-- ==== Sys2Proof/Word.lean ====
section
/-! DEFINITION. The word types of the bus controller: the widths of 00_scope.md rule R9 (ADDR_BITS 20, DATA_BITS 8,
CTRL_BITS 8) and of the request header (30_encoding.md rule R80). Every value is unsigned (00_scope.md rule R10). -/

namespace Sys2Proof

/-- DATA_BITS = CTRL_BITS = 8 (R9): a data byte, a control byte, one byte of an address, one shift-register stage. -/
abbrev Byte := BitVec 8

/-- The 4-bit bank, the top nibble of the flash address (R21), and the nibbles of the opcode byte (R80). -/
abbrev Nibble := BitVec 4

/-- A 16-bit link parameter, and the 16-bit main address `addrHi : addrLo` (R21, R80). -/
abbrev Half := BitVec 16

/-- ADDR_BITS = 20 (R9): a flash address `bank : addrHi : addrLo` (R50). -/
abbrev Addr20 := BitVec 20

end Sys2Proof
end

