-- ==== Sys2Proof/Config.lean ====
section
/-! DEFINITION. The parameters of 00_scope.md rule R9 the model takes as plain data, and the free values: what the
spec calls `draw()` (R11), and the parameters the spec leaves without a number. A free value is an opaque constant
without a body, so no proof can see what it is. -/

namespace Sys2Proof

/-- ERASE_PREFIX (R9, R166, decision D20): the four writes the source lists, or the usual six-cycle erase. -/
inductive ErasePrefix
  | doc4
  | jedec6
  deriving DecidableEq, Repr

/-- BANK_SHIFT_RS (R9, R85, decision D7: 0 or 4): where the bank of READ sub-0 and SETUP sits in param1. -/
inductive BankShift
  | at0
  | at4
  deriving DecidableEq, Repr

/-- The four open codes and INITIALISED's 0 are five different bytes: STATUS_CODE is injective (R9). -/
def codesDiffer (eraseInProgress eraseFailed programInProgress programFailed : Byte) : Bool :=
  decide [0x00#8, eraseInProgress, eraseFailed, programInProgress, programFailed].Nodup

/-- STATUS_CODE (R9, R35): the codes of the four statuses other than INITIALISED, whose code is 0, with the check that
the five differ. -/
structure StatusCodes where
  eraseInProgress : Byte
  eraseFailed : Byte
  programInProgress : Byte
  programFailed : Byte
  differ : codesDiffer eraseInProgress eraseFailed programInProgress programFailed = true
  deriving DecidableEq, Repr

/-- The implementation parameters of R9 that a run may vary. They are fixed for a machine: no statement of the
controller writes them. The other rows of R9 (OPC, MODE_CODE, the flag positions and levels, CTRL_BYTE, BANK_PINS)
stand at their defaults in `Decode.lean` and `Machine/Flags.lean`. -/
structure Params where
  /-- READY_SPIN_BOUND: samples per readiness poll (R113). -/
  readySpinBound : Nat
  /-- ERASE_POLL_RETRIES: reads per erase completion poll (R167). -/
  erasePollRetries : Nat
  /-- ERASE_POLL_DELAY: recorded by `Wait(erasePoll, n)` (R112, R167). -/
  erasePollDelay : Nat
  /-- FIXED_DELAY_CYCLES: recorded by `Wait(nop, n)` (R112, R162). -/
  fixedDelayCycles : Nat
  /-- T_ACC: recorded by `Wait(acc, n)` (R112, R116). -/
  tAcc : Nat
  /-- T_EDGE_MIN: the least time between two consecutive line writes. The model records it and, having no time, never
  checks it (R104, R271). -/
  tEdgeMin : Nat
  /-- ERASE_PREFIX (R166). -/
  erasePrefix : ErasePrefix
  /-- ERASE_80_ADDR: the address of the 0x80 erase write (R166). -/
  erase80Addr : Half
  /-- SLOW_SELECTS_FIXED: whether a nonzero slow byte selects the fixed-delay variant (R164). -/
  slowSelectsFixed : Bool
  /-- BANK_SHIFT_RS (R85). -/
  bankShiftRs : BankShift
  /-- STATUS_CODE (R35). -/
  codes : StatusCodes
  deriving DecidableEq, Repr

namespace Config

/-- The n-th `draw()` of a byte on the dispatch loop's side: a flash answer (R60), a sample of undriven or contended
lines (R119), the data of a write event with the port an input (R117), or a read of an unwritten slot (R26 to R28). -/
opaque drawByte : Nat → Byte

/-- The n-th answer of the readiness line when the environment is left free (R36, R60). -/
opaque drawReady : Nat → Bool

/-- The n-th `draw()` of a byte in an RX response: an unwritten `data` or IOBuffer entry (R140, R141). -/
opaque rxDrawByte : Nat → Byte

/-- The draw that settles the race of a command header arriving in COMMAND_RECEIVED: true for overwrite (R132). -/
opaque raceOverwrites : Nat → Bool

/-- The unknown power-on contents of the six shift-register stages, numbered C.S, C.Q, A1.S, A1.Q, A2.S, A2.Q (R39). -/
opaque powerOnStage : Nat → Byte

/-- The unknown power-on levels of CCLK, CDAT, ACLK, ADAT, LATCH, in that order (R39). -/
opaque powerOnLine : Nat → Bool

/-- ERASE_POLL_DELAY, which the spec leaves open (R9, D23). -/
opaque openErasePollDelay : Nat

/-- FIXED_DELAY_CYCLES, which the spec leaves open (R9, D23). -/
opaque openFixedDelayCycles : Nat

/-- T_ACC, which the spec leaves open (R9, D17). -/
opaque openTAcc : Nat

/-- T_EDGE_MIN, which the spec leaves open (R9, R104, D51). -/
opaque openTEdgeMin : Nat

end Config

end Sys2Proof
end

