-- ==== Sys2Proof/Syntax.lean ====
section
/-! DEFINITION. The requests the controller takes from the link (30_encoding.md): the request header, the opcode and
SETUP mode names, and `Instr`, one constructor per row of spec/opcode_table.json. The bits rule R87 calls ignored are
kept as operands (named x…), because the mailbox `cmd` holds both parameters whole (R131); no meaning reads them. -/

namespace Sys2Proof

/-- A request header (R80): the opcode byte and two 16-bit parameters. -/
structure Header where
  op8 : Byte
  p0 : Half
  p1 : Half
  deriving DecidableEq, Repr

/-- The eight commands of R83; READ stands for both of its sub-selectors. -/
inductive Opc
  | setControl
  | setAddress
  | setData
  | getData
  | write
  | read
  | setup
  | bootloader
  deriving DecidableEq, Repr

/-- The eight SETUP modes of R86. -/
inductive Mode
  | probeReady
  | beginRead
  | beginWrite
  | idManuf
  | idDevice
  | verifyProt
  | eraseChip
  | eraseSector
  deriving DecidableEq, Repr

/-- One constructor per row of spec/opcode_table.json, operands as R85 lays them out, high bits first. -/
inductive Instr
  /-- SET_CONTROL: p0 = `x0 : c`, p1 = `x1`. -/
  | setControl (c : Byte) (x0 : Byte) (x1 : Half)
  /-- SET_ADDRESS: p0 = `a`, p1 = `xh : b : xl`. -/
  | setAddress (a : Half) (b : Nibble) (xh : Byte) (xl : Nibble)
  /-- SET_DATA: p0 = `x0 : d`, p1 = `x1`. -/
  | setData (d : Byte) (x0 : Byte) (x1 : Half)
  /-- GET_DATA: both parameters ignored. -/
  | getData (x0 : Half) (x1 : Half)
  /-- WRITE, the row with slow byte 0: p0 = `a`, p1 = `0x00 : b : xl`. -/
  | write (a : Half) (b : Nibble) (xl : Nibble)
  /-- WRITE.FIXED, the row with slow byte `sl` nonzero: p0 = `a`, p1 = `sl : b : xl`. -/
  | writeFixed (a : Half) (sl : Byte) (b : Nibble) (xl : Nibble)
  /-- READ sub-0 (READ_ARM): p0 = `a`, p1 = `xh : xm : b`; the bank is `xm` where BANK_SHIFT_RS is 4. -/
  | readArm (a : Half) (b : Nibble) (xh : Byte) (xm : Nibble)
  /-- READ sub-1 (READ_FETCH): both parameters ignored. -/
  | readFetch (x0 : Half) (x1 : Half)
  /-- SETUP.PROBE_READY: p0 = `a` (ignored), p1 = `mode : xm : b`; the bank is `xm` where BANK_SHIFT_RS is 4. -/
  | setupProbeReady (a : Half) (b : Nibble) (xm : Nibble)
  /-- SETUP.BEGIN_READ: p0 = `a`, p1 = `mode : xm : b`. -/
  | setupBeginRead (a : Half) (b : Nibble) (xm : Nibble)
  /-- SETUP.BEGIN_WRITE: p0 = `a`, p1 = `mode : xm : b`. -/
  | setupBeginWrite (a : Half) (b : Nibble) (xm : Nibble)
  /-- SETUP.ID_MANUF: p0 = `a` (ignored), p1 = `mode : xm : b`. -/
  | setupIdManuf (a : Half) (b : Nibble) (xm : Nibble)
  /-- SETUP.ID_DEVICE: p0 = `a` (ignored), p1 = `mode : xm : b`. -/
  | setupIdDevice (a : Half) (b : Nibble) (xm : Nibble)
  /-- SETUP.VERIFY_PROT: p0 = `a`, p1 = `mode : xm : b`. -/
  | setupVerifyProt (a : Half) (b : Nibble) (xm : Nibble)
  /-- SETUP.ERASE_CHIP: p0 = `a`, the poll address, p1 = `mode : xm : b`. -/
  | setupEraseChip (a : Half) (b : Nibble) (xm : Nibble)
  /-- SETUP.ERASE_SECTOR: p0 = `a`, p1 = `mode : xm : b`. -/
  | setupEraseSector (a : Half) (b : Nibble) (xm : Nibble)
  /-- BOOTLOADER: both parameters ignored. -/
  | bootloader (x0 : Half) (x1 : Half)
  deriving DecidableEq, Repr

end Sys2Proof
end

