-- ==== Sys2Proof/WellFormed.lean ====
section
/-! DEFINITION. Which terms of `Instr` stand for a row of spec/opcode_table.json. The operand widths are in the types;
the one check left is the note of row WRITE.FIXED: its slow byte is nonzero (a zero slow byte selects row WRITE). -/

namespace Sys2Proof

/-- The check of row WRITE.FIXED: "slow flag, must be nonzero". -/
def slowByteOk (sl : Byte) : Bool := sl != 0#8

/-- The instruction stands for a row of the opcode table. -/
def Instr.wellFormed : Instr → Bool
  | .setControl _ _ _ => true
  | .setAddress _ _ _ _ => true
  | .setData _ _ _ => true
  | .getData _ _ => true
  | .write _ _ _ => true
  | .writeFixed _ sl _ _ => slowByteOk sl
  | .readArm _ _ _ _ => true
  | .readFetch _ _ => true
  | .setupProbeReady _ _ _ => true
  | .setupBeginRead _ _ _ => true
  | .setupBeginWrite _ _ _ => true
  | .setupIdManuf _ _ _ => true
  | .setupIdDevice _ _ _ => true
  | .setupVerifyProt _ _ _ => true
  | .setupEraseChip _ _ _ => true
  | .setupEraseSector _ _ _ => true
  | .bootloader _ _ => true

end Sys2Proof
end

