-- ==== Sys2Proof/Decode.lean ====
section
/-! DEFINITION. Decoding a request header (30_encoding.md rules R80 to R90), total on every header and rejecting by
name, and the encoder written from the same tables. The header's 40-bit number is the request word of rule R81. -/

namespace Sys2Proof

/-- OPC, the default map of R83. -/
def opc : Opc → Nibble
  | .setControl => 0x1#4
  | .setAddress => 0x2#4
  | .setData => 0x3#4
  | .getData => 0x4#4
  | .write => 0x5#4
  | .read => 0x6#4
  | .setup => 0x7#4
  | .bootloader => 0x8#4

/-- The commands in the order of R83. -/
def allOpcs : List Opc :=
  [.setControl, .setAddress, .setData, .getData, .write, .read, .setup, .bootloader]

/-- The command whose OPC value is the nibble, none where R84 says "unsupported". -/
def opcOfNibble (n : Nibble) : Option Opc := allOpcs.find? fun o => opc o == n

/-- MODE_CODE, the default map of R86. -/
def modeCode : Mode → Byte
  | .probeReady => 0x00#8
  | .beginRead => 0x01#8
  | .beginWrite => 0x02#8
  | .idManuf => 0x03#8
  | .idDevice => 0x04#8
  | .verifyProt => 0x05#8
  | .eraseChip => 0x06#8
  | .eraseSector => 0x07#8

/-- The SETUP modes in the order of R86. -/
def allModes : List Mode :=
  [.probeReady, .beginRead, .beginWrite, .idManuf, .idDevice, .verifyProt, .eraseChip, .eraseSector]

/-- The mode whose MODE_CODE is the byte, none where R84 refuses. -/
def modeOfByte (b : Byte) : Option Mode := allModes.find? fun m => modeCode m == b

/-! ### Fields of the request word (R81, R85) -/

/-- The opcode nibble `op8[7:4]`. -/
def Header.nib (h : Header) : Nibble := h.op8.extractLsb' 4 4

/-- The sub-selector `op8[3:0]`. -/
def Header.sub (h : Header) : Nibble := h.op8.extractLsb' 0 4

/-- The high byte of a parameter, `p[15:8]`. -/
def hiByte (p : Half) : Byte := p.extractLsb' 8 8

/-- The low byte of a parameter, `p[7:0]`. -/
def loByte (p : Half) : Byte := p.extractLsb' 0 8

/-- `p[7:4]`. -/
def midNibble (p : Half) : Nibble := p.extractLsb' 4 4

/-- `p[3:0]`. -/
def lowNibble (p : Half) : Nibble := p.extractLsb' 0 4

/-- The header of a request word: RW[39:32] is op8, RW[31:16] p0, RW[15:0] p1 (R81). -/
def Header.ofRW (rw : BitVec 40) : Header :=
  { op8 := rw.extractLsb' 32 8, p0 := rw.extractLsb' 16 16, p1 := rw.extractLsb' 0 16 }

/-- The request word of a header (R81). -/
def Header.toRW (h : Header) : BitVec 40 := h.op8 ++ h.p0 ++ h.p1

/-! ### Decoding (R84, R88) -/

/-- The reasons of `refuse(reason)` (R246). -/
inductive RefuseReason
  | readSub
  | subNonzero
  | setupMode
  deriving DecidableEq, Repr

/-- What RX makes of a header (R84, R88). -/
inductive Decoded
  | unsupported
  | refused (r : RefuseReason)
  | ok (i : Instr)
  deriving DecidableEq, Repr

/-- A non-READ opcode requires sub-selector 0 (R82, R84). -/
def requireSub0 (h : Header) (d : Decoded) : Decoded :=
  if h.sub = 0x0#4 then d else .refused .subNonzero

/-- SETUP's mode is `p1[15:8]` (R86). -/
def decodeSetup (h : Header) : Decoded :=
  match modeOfByte (hiByte h.p1) with
  | none => .refused .setupMode
  | some .probeReady => .ok (.setupProbeReady h.p0 (lowNibble h.p1) (midNibble h.p1))
  | some .beginRead => .ok (.setupBeginRead h.p0 (lowNibble h.p1) (midNibble h.p1))
  | some .beginWrite => .ok (.setupBeginWrite h.p0 (lowNibble h.p1) (midNibble h.p1))
  | some .idManuf => .ok (.setupIdManuf h.p0 (lowNibble h.p1) (midNibble h.p1))
  | some .idDevice => .ok (.setupIdDevice h.p0 (lowNibble h.p1) (midNibble h.p1))
  | some .verifyProt => .ok (.setupVerifyProt h.p0 (lowNibble h.p1) (midNibble h.p1))
  | some .eraseChip => .ok (.setupEraseChip h.p0 (lowNibble h.p1) (midNibble h.p1))
  | some .eraseSector => .ok (.setupEraseSector h.p0 (lowNibble h.p1) (midNibble h.p1))

/-- WRITE: the slow byte `p1[15:8]` tells the two rows apart (R85; opcode table rows WRITE and WRITE.FIXED). -/
def decodeWrite (h : Header) : Instr :=
  if hiByte h.p1 = 0#8 then .write h.p0 (midNibble h.p1) (lowNibble h.p1)
  else .writeFixed h.p0 (hiByte h.p1) (midNibble h.p1) (lowNibble h.p1)

/-- READ's sub-selector: 0 arms, 1 fetches, others are refused (R84). -/
def decodeRead (h : Header) : Decoded :=
  if h.sub = 0x0#4 then .ok (.readArm h.p0 (lowNibble h.p1) (hiByte h.p1) (midNibble h.p1))
  else if h.sub = 0x1#4 then .ok (.readFetch h.p0 h.p1)
  else .refused .readSub

/-- R84, in its order: unsupported nibble, READ sub-selector, nonzero sub-selector, SETUP mode. -/
def decode (h : Header) : Decoded :=
  match opcOfNibble h.nib with
  | none => .unsupported
  | some .read => decodeRead h
  | some .setControl => requireSub0 h (.ok (.setControl (loByte h.p0) (hiByte h.p0) h.p1))
  | some .setAddress => requireSub0 h (.ok (.setAddress h.p0 (midNibble h.p1) (hiByte h.p1) (lowNibble h.p1)))
  | some .setData => requireSub0 h (.ok (.setData (loByte h.p0) (hiByte h.p0) h.p1))
  | some .getData => requireSub0 h (.ok (.getData h.p0 h.p1))
  | some .write => requireSub0 h (.ok (decodeWrite h))
  | some .setup => requireSub0 h (decodeSetup h)
  | some .bootloader => requireSub0 h (.ok (.bootloader h.p0 h.p1))

/-- The header behind the opcode table's number: the table numbers an instruction's bits as the request word of R81. -/
def headerOfTable (nbits w : Nat) : Header := Header.ofRW (BitVec.ofNat 40 (w % 2 ^ nbits))

/-- The instruction the decoder reads from the request word `w`, none where it refuses. -/
def decodeTableWord (nbits w : Nat) : Option Instr :=
  match decode (headerOfTable nbits w) with
  | .ok i => some i
  | .unsupported => none
  | .refused _ => none

/-! ### Encoding (R81, R83, R85, R86) -/

/-- The header of an opcode, a sub-selector and two parameters. -/
def header (o : Opc) (sub : Nibble) (p0 p1 : Half) : Header := { op8 := opc o ++ sub, p0 := p0, p1 := p1 }

/-- A SETUP header: p1 = `MODE_CODE(mode) : xm : b` (R85). -/
def setupHeader (m : Mode) (a : Half) (b xm : Nibble) : Header :=
  header .setup 0#4 a (modeCode m ++ xm ++ b)

/-- The header of an instruction, every bit of it. -/
def encode : Instr → Header
  | .setControl c x0 x1 => header .setControl 0#4 (x0 ++ c) x1
  | .setAddress a b xh xl => header .setAddress 0#4 a (xh ++ b ++ xl)
  | .setData d x0 x1 => header .setData 0#4 (x0 ++ d) x1
  | .getData x0 x1 => header .getData 0#4 x0 x1
  | .write a b xl => header .write 0#4 a (0#8 ++ b ++ xl)
  | .writeFixed a sl b xl => header .write 0#4 a (sl ++ b ++ xl)
  | .readArm a b xh xm => header .read 0#4 a (xh ++ xm ++ b)
  | .readFetch x0 x1 => header .read 1#4 x0 x1
  | .setupProbeReady a b xm => setupHeader .probeReady a b xm
  | .setupBeginRead a b xm => setupHeader .beginRead a b xm
  | .setupBeginWrite a b xm => setupHeader .beginWrite a b xm
  | .setupIdManuf a b xm => setupHeader .idManuf a b xm
  | .setupIdDevice a b xm => setupHeader .idDevice a b xm
  | .setupVerifyProt a b xm => setupHeader .verifyProt a b xm
  | .setupEraseChip a b xm => setupHeader .eraseChip a b xm
  | .setupEraseSector a b xm => setupHeader .eraseSector a b xm
  | .bootloader x0 x1 => header .bootloader 0#4 x0 x1

/-! ### Classes of requests (R89, R130) -/

/-- GET_DATA and READ_FETCH are answered by RX at once; every other request is a command (R130). -/
def Instr.isQuery : Instr → Bool
  | .setControl _ _ _ => false
  | .setAddress _ _ _ _ => false
  | .setData _ _ _ => false
  | .getData _ _ => true
  | .write _ _ _ => false
  | .writeFixed _ _ _ _ => false
  | .readArm _ _ _ _ => false
  | .readFetch _ _ => true
  | .setupProbeReady _ _ _ => false
  | .setupBeginRead _ _ _ => false
  | .setupBeginWrite _ _ _ => false
  | .setupIdManuf _ _ _ => false
  | .setupIdDevice _ _ _ => false
  | .setupVerifyProt _ _ _ => false
  | .setupEraseChip _ _ _ => false
  | .setupEraseSector _ _ _ => false
  | .bootloader _ _ => false

/-- The requests followed by a 64-byte data phase (R89): opcode WRITE, in either variant. -/
def Instr.isWrite : Instr → Bool
  | .setControl _ _ _ => false
  | .setAddress _ _ _ _ => false
  | .setData _ _ _ => false
  | .getData _ _ => false
  | .write _ _ _ => true
  | .writeFixed _ _ _ _ => true
  | .readArm _ _ _ _ => false
  | .readFetch _ _ => false
  | .setupProbeReady _ _ _ => false
  | .setupBeginRead _ _ _ => false
  | .setupBeginWrite _ _ _ => false
  | .setupIdManuf _ _ _ => false
  | .setupIdDevice _ _ _ => false
  | .setupVerifyProt _ _ _ => false
  | .setupEraseChip _ _ _ => false
  | .setupEraseSector _ _ _ => false
  | .bootloader _ _ => false

/-! ### The spec's mnemonic syntax (R91): an ignored field is written as 0 -/

/-- The bank nibble of a 20-bit address. -/
def bankOf (a20 : Addr20) : Nibble := a20.extractLsb' 16 4

/-- The 16-bit main address of a 20-bit address. -/
def mainOf (a20 : Addr20) : Half := a20.extractLsb' 0 16

/-- p1 of READ_ARM and SETUP apart from the mode: the bank at BANK_SHIFT_RS, split as (bits 3:0, bits 7:4). -/
def rsNibbles (bs : BankShift) (a20 : Addr20) : Nibble × Nibble :=
  match bs with
  | .at0 => (bankOf a20, 0#4)
  | .at4 => (0#4, bankOf a20)

/-- `SET_CONTROL c8`. -/
def asmSetControl (c : Byte) : Instr := .setControl c 0#8 0#16

/-- `SET_ADDRESS a20`. -/
def asmSetAddress (a20 : Addr20) : Instr := .setAddress (mainOf a20) (bankOf a20) 0#8 0#4

/-- `SET_DATA d8`. -/
def asmSetData (d : Byte) : Instr := .setData d 0#8 0#16

/-- `GET_DATA`. -/
def asmGetData : Instr := .getData 0#16 0#16

/-- `WRITE a20`, its header. -/
def asmWrite (a20 : Addr20) : Instr := .write (mainOf a20) (bankOf a20) 0#4

/-- `WRITE.FIXED a20`, its header: p1 = 0x0100 | bank << 4. -/
def asmWriteFixed (a20 : Addr20) : Instr := .writeFixed (mainOf a20) 0x01#8 (bankOf a20) 0#4

/-- `READ_ARM a20`. -/
def asmReadArm (bs : BankShift) (a20 : Addr20) : Instr :=
  .readArm (mainOf a20) (rsNibbles bs a20).1 0#8 (rsNibbles bs a20).2

/-- `READ_FETCH`. -/
def asmReadFetch : Instr := .readFetch 0#16 0#16

/-- `SETUP mode, a20`. -/
def asmSetup (bs : BankShift) (m : Mode) (a20 : Addr20) : Instr :=
  let n := rsNibbles bs a20
  match m with
  | .probeReady => .setupProbeReady (mainOf a20) n.1 n.2
  | .beginRead => .setupBeginRead (mainOf a20) n.1 n.2
  | .beginWrite => .setupBeginWrite (mainOf a20) n.1 n.2
  | .idManuf => .setupIdManuf (mainOf a20) n.1 n.2
  | .idDevice => .setupIdDevice (mainOf a20) n.1 n.2
  | .verifyProt => .setupVerifyProt (mainOf a20) n.1 n.2
  | .eraseChip => .setupEraseChip (mainOf a20) n.1 n.2
  | .eraseSector => .setupEraseSector (mainOf a20) n.1 n.2

/-- `BOOTLOADER`. -/
def asmBootloader : Instr := .bootloader 0#16 0#16

end Sys2Proof
end

