-- ==== Sys2Proof/Machine/Flags.lean ====
section
/-! DEFINITION. The ControlRegister's flags (10_state.md rule R23), the control byte shiftControl emits (R25), and the
status codes, the controller's only condition flag (R35). -/

namespace Sys2Proof.Machine

open Sys2Proof

/-- The four named flags of ControlRegister (R23). -/
inductive Flag
  | we
  | oe
  | als
  | led
  deriving DecidableEq, Repr

/-- POS_WE, POS_OE, POS_ALS, POS_LED: the default bit positions (R9, R23). -/
def flagPos : Flag → Nat
  | .we => 0
  | .oe => 1
  | .als => 2
  | .led => 3

/-- LVL_WE and LVL_OE are 0 (active-low, source); LVL_ALS and LVL_LED default to 1 (R9, R23). -/
def flagLevel : Flag → Bool
  | .we => false
  | .oe => false
  | .als => true
  | .led => true

/-- `isAsserted(F, byte)`: `byte[POS_F] == LVL_F` (R11). -/
def isAsserted (f : Flag) (b : Byte) : Bool := b.getLsbD (flagPos f) == flagLevel f

/-- Bit `pos` of a byte set to `v`, the other bits kept. -/
def writeBit (pos : Nat) (v : Bool) (b : Byte) : Byte :=
  if v then b ||| (1#8 <<< pos) else b &&& ~~~(1#8 <<< pos)

/-- `assert(F)` for `on = true`, `deassert(F)` for `on = false`, on a control byte (R11). -/
def writeFlag (f : Flag) (on : Bool) (b : Byte) : Byte :=
  writeBit (flagPos f) (if on then flagLevel f else !flagLevel f) b

/-- CTRL_BYTE, the default: `(bank << 4) OR (ctrl AND 0x0F)` (R25). -/
def ctrlByte (ctrl : Byte) (bank : Nibble) : Byte :=
  (bank.setWidth 8 <<< 4) ||| (ctrl &&& 0x0F#8)

/-- BANK_PINS, the default: A19..A16 are control storage bits 7:4 (R25, R32). -/
def bankPins (cq : Byte) : Nibble := cq.extractLsb' 4 4

/-- The controller's status (R35). -/
inductive Status
  | initialised
  | eraseInProgress
  | eraseFailed
  | programInProgress
  | programFailed
  deriving DecidableEq, Repr

/-- STATUS_CODE: 0 for INITIALISED (derived by R35), a parameter for the others (R9); no two the same. -/
def statusCode (p : Params) : Status → Byte
  | .initialised => 0x00#8
  | .eraseInProgress => p.codes.eraseInProgress
  | .eraseFailed => p.codes.eraseFailed
  | .programInProgress => p.codes.programInProgress
  | .programFailed => p.codes.programFailed

end Sys2Proof.Machine
end

