-- ==== Sys2Proof/Machine/Operands.lean ====
section
/-! DEFINITION. The default parameters of R9, the operand forms of R85, and the chunk address arithmetic of R163. -/

namespace Sys2Proof.Machine

open Sys2Proof

/-- The default STATUS_CODE, in declaration order (R9, D3). -/
def defaultCodes : StatusCodes :=
  { eraseInProgress := 0x01#8
    eraseFailed := 0x02#8
    programInProgress := 0x03#8
    programFailed := 0x04#8
    differ := by decide }

/-- The parameter defaults of R9; the four times, which R9 leaves open, are free values. -/
def defaultParams : Params :=
  { readySpinBound := 255
    erasePollRetries := 100
    erasePollDelay := Config.openErasePollDelay
    fixedDelayCycles := Config.openFixedDelayCycles
    tAcc := Config.openTAcc
    tEdgeMin := Config.openTEdgeMin
    erasePrefix := .doc4
    erase80Addr := 0x0AAA#16
    slowSelectsFixed := true
    bankShiftRs := .at0
    codes := defaultCodes }

/-- The bank operand of READ sub-0 and SETUP, `p1[BS+3:BS]` (R85): bits 3:0 or bits 7:4 of p1. -/
def rsBank (p : Params) (b xm : Nibble) : Nibble :=
  match p.bankShiftRs with
  | .at0 => b
  | .at4 => xm

/-- A 20-bit flash address `bank : a16` (R21, R51). -/
def addr20 (bank : Nibble) (a : Half) : Addr20 := bank ++ a

/-- The 16-bit address `hi : lo` (R21). -/
def addr16 (hi lo : Byte) : Half := hi ++ lo

/-- The target of byte `i` of a chunk: the low byte alone is incremented, mod 256 (R163). -/
def chunkAddr (a : Half) (i : Nat) : Half := addr16 (hiByte a) (loByte a + BitVec.ofNat 8 i)

/-- The two variants of the byte program (R160). -/
inductive Variant
  | readyPolled
  | fixed
  deriving DecidableEq, Repr

/-- The variant WRITE runs for its slow byte (R164): `fixed <- (s != 0) if SLOW_SELECTS_FIXED else (s == 0)`. -/
def writeVariant (p : Params) (sl : Byte) : Variant :=
  if p.slowSelectsFixed then (if sl != 0#8 then .fixed else .readyPolled)
  else (if sl == 0#8 then .fixed else .readyPolled)

/-- The protection read's address: the 20-bit sum `(bank : a16) + 4 mod 2^20` (R197). -/
def protAddr (bank : Nibble) (a : Half) : Addr20 := addr20 bank a + 4#20

end Sys2Proof.Machine
end

