-- ==== Sys2Proof/Machine/State.lean ====
section
/-! DEFINITION. The machine's state as plain data. `Device` is the state record of 10_state.md rule R20 with the
dispatch loop's position (R34), and beside it the model's own fields: the parameters of R9 and the environment that
answers samples (R60, R70). `State` adds the refusal mark, what the host still sends, and the trace of R58. -/

namespace Sys2Proof.Machine

open Sys2Proof

/-- `8 bits | unwritten`, R20's own type: reading an unwritten slot yields a fresh `draw()` each time (R26 to R28). -/
inductive Slot
  | unwritten
  | byte (b : Byte)
  deriving DecidableEq, Repr

/-- The data port's direction (R27). -/
inductive PortDir
  | input
  | output
  deriving DecidableEq, Repr

/-- The dispatcher state (R34); `initialising` is R39's "none yet", before DSP first reaches IDLE. -/
inductive DState
  | initialising
  | idle
  | commandReceived
  | executing
  | terminated
  deriving DecidableEq, Repr

/-- CommandState, the one-slot mailbox's contents (R29). -/
structure Command where
  op : Byte
  p0 : Half
  p1 : Half
  d : Byte
  deriving DecidableEq, Repr

/-- One shift register: its shift stage and its output stage (R31). -/
structure ShiftReg where
  S : Byte
  Q : Byte
  deriving DecidableEq, Repr

/-- The five serial lines (R33). -/
inductive Line
  | cclk
  | cdat
  | aclk
  | adat
  | latch
  deriving DecidableEq, Repr

/-- The levels of the five serial lines (R33). -/
structure Lines where
  cclk : Bool
  cdat : Bool
  aclk : Bool
  adat : Bool
  latch : Bool
  deriving DecidableEq, Repr

/-- The kinds of `wait` (R11). R112 uses all but `edge`: the time between two line writes (R104, R271) is no event. -/
inductive WaitKind
  | edge
  | acc
  | nop
  | erasePoll
  deriving DecidableEq, Repr

/-- What RX answers (R89): an acknowledgement, the abstract NOT_SUPPORTED, GET_DATA's two bytes, or the IOBuffer. -/
inductive Response
  | ack
  | notSupported
  | dataStatus (data status : Byte)
  | buffer (bytes : List Byte)
  deriving DecidableEq, Repr

/-- The events of the observation (R58). -/
inductive Event
  | set (l : Line) (b : Bool)
  | dir (d : PortDir)
  | drive (v : Byte)
  | sampleData (v : Byte)
  | sampleReady (b : Bool)
  | wait (k : WaitKind) (n : Nat)
  | busWrite (a : Addr20) (d : Byte)
  | busRead (a : Addr20) (v : Byte)
  | respond (req : Header) (x : Response)
  deriving DecidableEq, Repr

/-- One statement of the dispatch loop's pseudocode, one atomic DSP step (R11, R136). -/
inductive Stmt
  /-- `bank <- b` -/
  | loadBank (b : Nibble)
  /-- `addrHi <- b` -/
  | loadAddrHi (b : Byte)
  /-- `addrLo <- b` -/
  | loadAddrLo (b : Byte)
  /-- `addrLo <- (addrLo + 1) mod 256` (R165) -/
  | incAddrLo
  /-- `assert(F)` or `deassert(F)` (R11) -/
  | setFlag (f : Flag) (on : Bool)
  /-- `ctrl <- c` (R137) -/
  | loadCtrl (c : Byte)
  /-- `data <- d` (R139) -/
  | loadData (d : Byte)
  /-- `shiftControl()` (R105) -/
  | shiftControl
  /-- `shiftFullAddress()` (R106) -/
  | shiftFullAddress
  /-- `shiftLowAddress()` (R107) -/
  | shiftLowAddress
  /-- the `assert(ALS)` of loadLow, taken if ALS is not asserted on C.Q (R114) -/
  | loadLowAssert
  /-- the `shiftControl()` of loadLow, taken if ALS is not asserted on C.Q (R114) -/
  | loadLowShift
  /-- `setDir(d)` (R111) -/
  | setDir (d : PortDir)
  /-- `drive(v)` (R111) -/
  | drive (v : Byte)
  /-- `drive(buf[i])` (R164, R115) -/
  | driveBuf (i : Fin 64)
  /-- `wait(kind, n)` (R112) -/
  | wait (k : WaitKind) (n : Nat)
  /-- `v <- sampleData()` (R116) -/
  | sampleData
  /-- `data <- v`, the byte busRead returned (R195 to R197) -/
  | storeData
  /-- `buf[i] <- v`, the byte busRead returned (R165) -/
  | storeBuf (i : Fin 64)
  /-- `buf[i] <- sampleData()` (R165) -/
  | sampleBuf (i : Fin 64)
  /-- `r <- sampleReady()` (R192) -/
  | sampleReady
  /-- `data <- 0x01 if r else 0x00` (R192) -/
  | storeReady
  /-- pollReady with `k` samples left; out of samples it is `fail(PROGRAM_FAILED)` (R113, R160, R164) -/
  | poll (k : Nat)
  /-- `if v == 0xFF: status <- INITIALISED; return` (R167) -/
  | eraseCheck
  /-- `fail(S)` (R11) -/
  | fail (st : Status)
  /-- `status <- S` (R164) -/
  | setStatus (st : Status)
  /-- `dstate <- IDLE`, the end of the initialisation sequence (R262) -/
  | enterIdle
  /-- `dstate <- TERMINATED` (R142) -/
  | terminate
  deriving DecidableEq, Repr

/-- A link input: a request header, or a segment of a WRITE's data phase (R130). -/
inductive LinkInput
  | header (h : Header)
  | data (seg : List Byte)
  deriving DecidableEq, Repr

/-- An input the host still sends: it arrives after `delay` more DSP steps, or as soon as DSP has no step to take.
The delays say which agent moves next; every interleaving of R228 and R136 is some choice of delays. -/
structure Arrival where
  delay : Nat
  input : LinkInput
  deriving DecidableEq, Repr

/-- Who answers `sampleData()` (R60): the free oracle, the reference fixture of R70 to R76, or a fake that answers a
list and then one value (95_test_vectors.md V-FA9). -/
inductive FlashSource
  | oracle
  | fixture
  | fake (next : List Byte) (rest : Byte)
  deriving DecidableEq, Repr

/-- Who answers `sampleReady()` (R60): the free oracle, or a fake that answers a list and then one value; the
fixture's F_READY = true (R74) is `fake [] true`. -/
inductive ReadySource
  | oracle
  | fake (next : List Bool) (rest : Bool)
  deriving DecidableEq, Repr

/-- The fixture's command state (R70). -/
inductive FState
  | read
  | u1
  | u2
  | p3
  | i2
  | idMode
  | e1
  | e2
  | e3
  deriving DecidableEq, Repr

/-- Why a step can stop. The controller itself never faults (R220, R245): each of these is an input the spec gives no
move. All three are safe: the model stops where the spec assumes the input away or has ended the run. -/
inductive Fault
  /-- Raised by a header before DSP first reaches IDLE: host duty HD0, "no move" (R130, R240, R245). Safe. -/
  | headerBeforeIdle
  /-- Raised by a header while `dataPending > 0`: host duty HD1, "no move" (R130, R240, R245). Safe. -/
  | headerInDataPhase
  /-- Raised by any step in TERMINATED: "final: no step of either agent" (R142, R245). Safe. -/
  | terminated
  deriving DecidableEq, Repr

/-- Why the model would give an instruction no meaning. -/
inductive Refusal
  /-- Raised by an arm of `exec` whose instruction has no meaning yet; no arm answers it now. Safe. -/
  | notModelled (mnemonic : String)
  deriving DecidableEq, Repr

/-- What DSP and the environment it drives hold: R20's record (the refusal mark is in `State`), then the dispatch
loop's position, then the model's own fields. -/
structure Device where
  /-- AddressRegister, bank nibble (R21, R22). -/
  bank : Nibble
  /-- AddressRegister, high byte (R21). -/
  addrHi : Byte
  /-- AddressRegister, low byte (R21). -/
  addrLo : Byte
  /-- ControlRegister (R23, R24). -/
  ctrl : Byte
  /-- DataByte (R26). -/
  data : Slot
  /-- Direction of the data port (R27). -/
  portDir : PortDir
  /-- The data port's output latch (R27). -/
  portOut : Slot
  /-- IOBuffer (R28). -/
  buf : Vector Slot 64
  /-- CommandState; none is `empty` (R29). -/
  cmd : Option Command
  /-- Bytes of a WRITE data phase still owed, 0 to 64 (R30). -/
  dataPending : Fin 65
  /-- Dispatcher state (R34). -/
  dstate : DState
  /-- Status (R35). -/
  status : Status
  /-- The control register C (R31). -/
  c : ShiftReg
  /-- The first address bank A1 (R31). -/
  a1 : ShiftReg
  /-- The second address bank A2 (R31). -/
  a2 : ShiftReg
  /-- The serial lines (R33). -/
  lines : Lines
  /-- DSP's position in the running command's pseudocode: the statements still to run (R34, R136). -/
  pos : List Stmt
  /-- The running command's local `v`, the byte of its last `sampleData()` (R116, R167). Internal, as `pos` is. -/
  localV : Byte
  /-- The running command's local `r`, its last `sampleReady()` (R192). Internal, as `pos` is. -/
  localR : Bool
  /-- The model's own: the parameters of R9, which no statement writes. -/
  params : Params
  /-- The model's own: who answers data samples (R60). -/
  flash : FlashSource
  /-- The model's own: who answers readiness samples (R60). -/
  ready : ReadySource
  /-- The reference fixture's array, a canonical list; an unlisted address reads 0xFF (R70). -/
  fmem : List Host.Cell
  /-- The reference fixture's command state (R70). -/
  fstate : FState
  /-- The model's own: how many free values DSP's side has drawn. -/
  draws : Nat
  deriving DecidableEq, Repr

/-- The whole machine: the device, the refusal mark, the host's remaining inputs, and the observation. -/
structure State extends Device where
  /-- The refusal mark (R20, R246). -/
  refused : Bool
  /-- The model's own: what the host still sends, in order (R130, R227). -/
  link : List Arrival
  /-- The observation's trace (R58), the latest event first. -/
  trace : List Event
  /-- The model's own: how many free values RX has drawn. -/
  rxDraws : Nat
  deriving DecidableEq, Repr

/-- The trace in R58's order, the earliest event first. -/
def State.events (s : State) : List Event := s.trace.reverse

/-- The initialisation sequence of R262, four statements. -/
def initProgram : List Stmt := [.setDir .input, .shiftControl, .shiftFullAddress, .enterIdle]

/-- The unknown power-on register number `n` (R39): a free value for each stage. -/
def powerOnReg (n : Nat) : ShiftReg := { S := Config.powerOnStage (2 * n), Q := Config.powerOnStage (2 * n + 1) }

/-- The machine at power-on: the column "value at power-on, before initialisation" of R39 (R261). DSP stands at the
start of the initialisation sequence. -/
def State.reset : State :=
  { bank := 0#4
    addrHi := 0#8
    addrLo := 0#8
    ctrl := 0x03#8
    data := .unwritten
    portDir := .input
    portOut := .unwritten
    buf := Vector.replicate 64 .unwritten
    cmd := none
    dataPending := 0
    dstate := .initialising
    status := .initialised
    c := powerOnReg 0
    a1 := powerOnReg 1
    a2 := powerOnReg 2
    lines :=
      { cclk := Config.powerOnLine 0
        cdat := Config.powerOnLine 1
        aclk := Config.powerOnLine 2
        adat := Config.powerOnLine 3
        latch := Config.powerOnLine 4 }
    pos := initProgram
    localV := 0#8
    localR := false
    params := defaultParams
    flash := .oracle
    ready := .oracle
    fmem := []
    fstate := .read
    draws := 0
    refused := false
    link := []
    trace := []
    rxDraws := 0 }

end Sys2Proof.Machine
end

