-- ==== Sys2Proof/Machine/Memory.lean ====
section
/-! DEFINITION. The reference fixture's array (20_memory.md rule R70): 2^20 bytes, initially all 0xFF, held as a list of
(address, byte) pairs in one canonical form: addresses strictly rising and below 2^20, no entry equal to 0xFF. -/

namespace Sys2Proof.Machine

open Sys2Proof

/-- What an unlisted address reads as: the erased value (R70). -/
def erased : Byte := 0xFF#8

/-- The size of the flash address space (R50). -/
def flashSize : Nat := 0x100000

/-- F_SECTOR (R70). -/
def fixtureSector : Nat := 0x10000

/-- One byte of the array. -/
def memRead : List Host.Cell → Nat → Byte
  | [], _ => erased
  | (k, b) :: t, a => if k = a then b else memRead t a

/-- An entry for `a` put before `t`, left out when it equals what an unlisted address reads as. -/
def memCons (a : Nat) (v : Byte) (t : List Host.Cell) : List Host.Cell :=
  if v = erased then t else (a, v) :: t

/-- The array with byte `a` set to `v`; the canonical form is kept. -/
def memWrite : List Host.Cell → Nat → Byte → List Host.Cell
  | [], a, v => memCons a v []
  | (k, b) :: t, a, v =>
    if a < k then memCons a v ((k, b) :: t)
    else if a = k then memCons a v t
    else (k, b) :: memWrite t a v

/-- The array with every byte of the sector of `a` erased (R72). -/
def memEraseSector (m : List Host.Cell) (a : Nat) : List Host.Cell :=
  m.filter fun cell => cell.1 / fixtureSector != a / fixtureSector

/-- Canonical from `lo` on: every address at least `lo`, rising, below 2^20, no entry an erased byte. -/
def memWfFrom : Nat → List Host.Cell → Bool
  | _, [] => true
  | lo, (k, b) :: t => decide (lo ≤ k) && decide (k < flashSize) && (b != erased) && memWfFrom (k + 1) t

/-- The canonical form of the array. -/
def memWf (m : List Host.Cell) : Bool := memWfFrom 0 m

end Sys2Proof.Machine
end

