-- ==== Sys2Proof/Machine/Fixture.lean ====
section
/-! DEFINITION. The reference flash fixture (20_memory.md rules R70 to R75): it watches the bus write events of every
run and, where the environment selects it, answers the data samples. It is a test aid and models no chip (D49). -/

namespace Sys2Proof.Machine

open Sys2Proof

/-- F_MFR_ID (R70). -/
def fixtureMfrId : Byte := 0x11#8

/-- F_DEV_ID (R70). -/
def fixtureDevId : Byte := 0x22#8

/-- F_PROT(s): 0x00 for every sector (R70). -/
def fixtureProt (_sector : Nat) : Byte := 0x00#8

/-- The low 16 bits of a flash address, on which command cycles are matched (R71). -/
def eventA16 (a : Addr20) : Half := a.extractLsb' 0 16

/-- The next command state: R72's rows, the first that matches. -/
def fixtureNext (f : FState) (a : Addr20) (d : Byte) : FState :=
  if f = .p3 then .read
  else if d = 0xF0#8 then .read
  else match f with
    | .read =>
      if eventA16 a = 0x0AAA#16 ∧ d = 0xAA#8 then .u1
      else if eventA16 a = 0x0AAA#16 ∧ d = 0x80#8 then .e1
      else .read
    | .u1 =>
      if eventA16 a = 0x0555#16 ∧ d = 0x55#8 then .u2
      else if eventA16 a = 0x1555#16 ∧ d = 0x55#8 then .i2
      else .read
    | .u2 =>
      if eventA16 a = 0x0AAA#16 ∧ d = 0xA0#8 then .p3
      else if eventA16 a = 0x0AAA#16 ∧ d = 0x80#8 then .e1
      else .read
    | .i2 => if eventA16 a = 0x0AAA#16 ∧ d = 0x90#8 then .idMode else .read
    | .e1 => if eventA16 a = 0x0AAA#16 ∧ d = 0xAA#8 then .e2 else .read
    | .e2 => if eventA16 a = 0x0555#16 ∧ d = 0x55#8 then .e3 else .read
    | .e3 => .read
    | .idMode => .idMode
    | .p3 => .read

/-- The effect on the array: R72's effect column for the same row. -/
def fixtureEffect (f : FState) (m : List Host.Cell) (a : Addr20) (d : Byte) : List Host.Cell :=
  if f = .p3 then memWrite m a.toNat (memRead m a.toNat &&& d)
  else if d = 0xF0#8 then m
  else if f = .e3 then
    if eventA16 a = 0x0AAA#16 ∧ d = 0x10#8 then []
    else if d = 0x30#8 then memEraseSector m a.toNat
    else m
  else m

/-- What the fixture answers at a pin address in ID mode (R73). -/
def fixtureId (a : Addr20) : Byte :=
  if a.toNat % fixtureSector = 0 then fixtureMfrId
  else if a.toNat % fixtureSector = 2 then fixtureDevId
  else if a.toNat % fixtureSector = 4 then fixtureProt (a.toNat / fixtureSector)
  else 0x00#8

/-- What the fixture answers while the flash drives the lines (R73). -/
def fixtureAnswer (f : FState) (m : List Host.Cell) (a : Addr20) : Byte :=
  if f = .idMode then fixtureId a else memRead m a.toNat

/-- The fixture's reaction to the write event `BusWrite(a, d)` (R71, R72). -/
def Device.fixtureWrite (d : Device) (a : Addr20) (v : Byte) : Device :=
  { d with fstate := fixtureNext d.fstate a v, fmem := fixtureEffect d.fstate d.fmem a v }

/-- The fixture's state and array after write events in order (R71: it acts on them in trace order). -/
def fixtureWrites : List (Addr20 × Byte) → FState × List Host.Cell → FState × List Host.Cell
  | [], fm => fm
  | (a, v) :: rest, fm => fixtureWrites rest (fixtureNext fm.1 a v, fixtureEffect fm.1 fm.2 a v)

end Sys2Proof.Machine
end

