-- ==== Sys2Proof/Machine/Ops.lean ====
section
/-! DEFINITION. The bus driver (40_bus_driver.md): the pins, the latch and its write event, the three shift primitives
at cycle level (R108, R109), the port, wait and poll primitives, each statement's effect, and the statement lists of
the bus cycles. The controller has no trap (60_exceptions.md rule R220); its one error entry is `fail(S)` (R226). -/

namespace Sys2Proof.Machine

open Sys2Proof

/-! ### Free values and slots -/

/-- A fresh `draw()` (R11). -/
def Device.draw (d : Device) : Byte × Device := (Config.drawByte d.draws, { d with draws := d.draws + 1 })

/-- Reading a slot: its byte, or a fresh draw where it is unwritten (R26 to R28). -/
def Device.readSlot (d : Device) (x : Slot) : Byte × Device :=
  match x with
  | .byte b => (b, d)
  | .unwritten => d.draw

/-! ### Pins (R32) -/

/-- `pinAddr20 = C.Q[7:4] : A2.Q : A1.Q`. -/
def Device.pinAddr (d : Device) : Addr20 := addr20 (bankPins d.c.Q) (addr16 d.a2.Q d.a1.Q)

/-- Whether an output is asserted on the pins: `isAsserted(F, C.Q)`. -/
def Device.pinOn (d : Device) (f : Flag) : Bool := isAsserted f d.c.Q

/-! ### The latch (R103, R117) -/

/-- A register's output stage loaded from its shift stage. -/
def ShiftReg.latched (r : ShiftReg) : ShiftReg := { r with Q := r.S }

/-- All three output stages loaded together (R103). -/
def Device.loadOutputs (d : Device) : Device :=
  { d with c := d.c.latched, a1 := d.a1.latched, a2 := d.a2.latched }

/-- Whether the next latch takes write-enable from asserted to deasserted (R117). -/
def Device.weRises (d : Device) : Bool := isAsserted .we d.c.Q && !isAsserted .we d.c.S

/-- The data of a write event: `portOut` where the port drives, a draw where the lines float (R117). -/
def Device.writeData (d : Device) : Byte × Device :=
  match d.portDir with
  | .output => d.readSlot d.portOut
  | .input => d.draw

/-- A LATCH rising edge: the write event at the pins' address as it stood before the edge, if write-enable rises,
then the three output stages (R103, R117). The fixture sees the event (R71). The event comes in the trace after the
`Set(LATCH, 1)` that makes the edge: DESIGN CHOICE, log 26, safe. -/
def Device.latch (d : Device) : Device × List Event :=
  if d.weRises then
    ((d.writeData.2.fixtureWrite d.pinAddr d.writeData.1).loadOutputs, [.busWrite d.pinAddr d.writeData.1])
  else (d.loadOutputs, [])

/-! ### Shift primitives at cycle level (R105 to R109) -/

/-- The bits of a value, most significant first (R52). -/
def msbFirst {w : Nat} (v : BitVec w) : List Bool := (List.range w).map fun k => v.getLsbD (w - 1 - k)

/-- The line writes of one shift: LATCH low, then clock low, data, clock high for each bit, then LATCH high
(R105 to R107). -/
def shiftEvents (clk dat : Line) (bits : List Bool) : List Event :=
  .set .latch false :: bits.flatMap (fun b => [.set clk false, .set dat b, .set clk true]) ++ [.set .latch true]

/-- The device just before the last latch edge of `shiftControl()` (R108): C.S has taken CTRL_BYTE(ctrl, bank). -/
def Device.controlShifted (d : Device) : Device :=
  { d with
    c := { d.c with S := ctrlByte d.ctrl d.bank }
    lines := { d.lines with cclk := true, cdat := (ctrlByte d.ctrl d.bank).getLsbD 0, latch := true } }

/-- `shiftControl()` (R105, R108): C takes CTRL_BYTE(ctrl, bank), the lines end at R108's levels, then the latch. -/
def Device.shiftControl (d : Device) : Device × List Event :=
  (d.controlShifted.latch.1,
    shiftEvents .cclk .cdat (msbFirst (ctrlByte d.ctrl d.bank)) ++ d.controlShifted.latch.2)

/-- The lines after an address shift whose last bit is `b` (R109). -/
def Lines.afterAddress (l : Lines) (b : Bool) : Lines := { l with aclk := true, adat := b, latch := true }

/-- The device just before the last latch edge of `shiftFullAddress()` (R109): A1.S has taken addrLo; A2.S has taken
addrHi, or keeps its byte where ALS is asserted. -/
def Device.fullShifted (d : Device) : Device :=
  { d with
    a1 := { d.a1 with S := d.addrLo }
    a2 := { d.a2 with S := if d.pinOn .als then d.a2.S else d.addrHi }
    lines := d.lines.afterAddress (d.addrLo.getLsbD 0) }

/-- `shiftFullAddress()` (R106, R109): A1 takes addrLo; A2 takes addrHi, or keeps its byte where ALS is asserted. -/
def Device.shiftFullAddress (d : Device) : Device × List Event :=
  (d.fullShifted.latch.1,
    shiftEvents .aclk .adat (msbFirst (addr16 d.addrHi d.addrLo)) ++ d.fullShifted.latch.2)

/-- The device just before the last latch edge of `shiftLowAddress()` (R109): A1.S has taken addrLo; A2.S keeps its
byte, or takes A1.S's old one where ALS is deasserted. -/
def Device.lowShifted (d : Device) : Device :=
  { d with
    a1 := { d.a1 with S := d.addrLo }
    a2 := { d.a2 with S := if d.pinOn .als then d.a2.S else d.a1.S }
    lines := d.lines.afterAddress (d.addrLo.getLsbD 0) }

/-- `shiftLowAddress()` (R107, R109): A1 takes addrLo; A2 keeps its byte, or takes A1's old one where ALS is
deasserted. -/
def Device.shiftLowAddress (d : Device) : Device × List Event :=
  (d.lowShifted.latch.1, shiftEvents .aclk .adat (msbFirst d.addrLo) ++ d.lowShifted.latch.2)

/-! ### Samples (R60, R73, R118, R119) -/

/-- The flash drives the lines: the port is an input, OE is asserted and WE is not (R73, R119). -/
def Device.flashDrives (d : Device) : Bool :=
  d.portDir == .input && d.pinOn .oe && !d.pinOn .we

/-- The byte `sampleData()` returns: the environment's answer while the flash drives the lines, else a draw. -/
def Device.dataLines (d : Device) : Byte × Device :=
  if d.flashDrives then
    match d.flash with
    | .oracle => d.draw
    | .fixture => (fixtureAnswer d.fstate d.fmem d.pinAddr, d)
    | .fake (v :: next) rest => (v, { d with flash := .fake next rest })
    | .fake [] rest => (rest, d)
  else d.draw

/-- The events of one data sample: the sample, and then its read event (R58, R118). Their order in the trace is DESIGN
CHOICE, log 26, safe. -/
def Device.sampleEvents (d : Device) : List Event := [.sampleData d.dataLines.1, .busRead d.pinAddr d.dataLines.1]

/-- The Boolean `sampleReady()` returns (R36, R60). -/
def Device.readyLine (d : Device) : Bool × Device :=
  match d.ready with
  | .oracle => (Config.drawReady d.draws, { d with draws := d.draws + 1 })
  | .fake (b :: next) rest => (b, { d with ready := .fake next rest })
  | .fake [] rest => (rest, d)

/-! ### Completion and failure (R135, R226) -/

/-- `cmd <- empty; dstate <- IDLE` (R135); nothing of the command is left to run. -/
def Device.complete (d : Device) : Device := { d with cmd := none, dstate := .idle, pos := [] }

/-- `fail(S)` without the completion that follows it in the same step: the status, and nothing left to run (R226). -/
def Device.failWith (d : Device) (st : Status) : Device := { d with status := st, pos := [] }

/-- After a statement: the command completes in the same step if that was its last statement, unless it
terminated (R135, R142). After R262's `dstate <- IDLE` this changes nothing: the mailbox is empty since power-on
(R39). -/
def Device.finish (d : Device) : Device :=
  if d.pos = [] ∧ d.dstate ≠ .terminated then d.complete else d

/-! ### Statements (R11, R136) -/

/-- DSP's position moved to `p`. -/
def Device.withPos (d : Device) (p : List Stmt) : Device := { d with pos := p }

/-- The IOBuffer with entry `i` written. -/
def Device.writeBuf (d : Device) (i : Fin 64) (v : Byte) : Device := { d with buf := d.buf.set i.val (.byte v) i.isLt }

/-- One sample of a readiness poll with `k + 1` samples left (R113): true ends the poll, false leaves `k`. -/
def Device.pollSample (d : Device) (k : Nat) : Device × List Event :=
  if d.readyLine.1 then (d.readyLine.2, [.sampleReady true])
  else (d.readyLine.2.withPos (.poll k :: d.pos), [.sampleReady false])

/-- The effect of one statement on a device whose `pos` is what stands after it. -/
def Stmt.exec (st : Stmt) (d : Device) : Device × List Event :=
  match st with
  | .loadBank b => ({ d with bank := b }, [])
  | .loadAddrHi b => ({ d with addrHi := b }, [])
  | .loadAddrLo b => ({ d with addrLo := b }, [])
  | .incAddrLo => ({ d with addrLo := d.addrLo + 1#8 }, [])
  | .setFlag f on => ({ d with ctrl := writeFlag f on d.ctrl }, [])
  | .loadCtrl c => ({ d with ctrl := c }, [])
  | .loadData v => ({ d with data := .byte v }, [])
  | .shiftControl => d.shiftControl
  | .shiftFullAddress => d.shiftFullAddress
  | .shiftLowAddress => d.shiftLowAddress
  | .loadLowAssert => if d.pinOn .als then (d, []) else ({ d with ctrl := writeFlag .als true d.ctrl }, [])
  | .loadLowShift => if d.pinOn .als then (d, []) else d.shiftControl
  | .setDir p => ({ d with portDir := p }, [.dir p])
  | .drive v => ({ d with portOut := .byte v }, [.drive v])
  | .driveBuf i =>
    ({ (d.readSlot (d.buf.get i)).2 with portOut := .byte (d.readSlot (d.buf.get i)).1 },
      [.drive (d.readSlot (d.buf.get i)).1])
  | .wait k n => (d, [.wait k n])
  | .sampleData => ({ d.dataLines.2 with localV := d.dataLines.1 }, d.sampleEvents)
  | .storeData => ({ d with data := .byte d.localV }, [])
  | .storeBuf i => (d.writeBuf i d.localV, [])
  | .sampleBuf i => (d.dataLines.2.writeBuf i d.dataLines.1, d.sampleEvents)
  | .sampleReady => ({ d.readyLine.2 with localR := d.readyLine.1 }, [.sampleReady d.readyLine.1])
  | .storeReady => ({ d with data := .byte (if d.localR then 0x01#8 else 0x00#8) }, [])
  | .poll 0 => (d.failWith .programFailed, [])
  | .poll (k + 1) => d.pollSample k
  | .eraseCheck => if d.localV = 0xFF#8 then ({ d with status := .initialised, pos := [] }, []) else (d, [])
  | .fail st => (d.failWith st, [])
  | .setStatus st => ({ d with status := st }, [])
  | .enterIdle => ({ d with dstate := .idle, pos := [] }, [])
  | .terminate => ({ d with dstate := .terminated }, [])

/-- The most DSP steps a statement can take: a poll takes one for each sample and one to fail (R145). -/
def Stmt.cost : Stmt → Nat
  | .poll k => k + 1
  | _ => 1

/-- The most DSP steps a list of statements can take. -/
def stepBound : List Stmt → Nat
  | [] => 0
  | st :: rest => st.cost + stepBound rest

/-! ### Address-load helpers and bus cycles (R114 to R116) -/

/-- `loadFull()` (R114). -/
def loadFull : List Stmt := [.setFlag .als false, .shiftControl, .shiftFullAddress]

/-- `loadLow()` (R114): its two conditional statements both test ALS on C.Q, which the assert does not change. -/
def loadLow : List Stmt := [.loadLowAssert, .loadLowShift, .shiftLowAddress]

/-- `addrHi <- a16[15:8]; addrLo <- a16[7:0]`. -/
def loadAddr (a : Half) : List Stmt := [.loadAddrHi (hiByte a), .loadAddrLo (loByte a)]

/-- `busWrite(a16, v)` (R115), its `drive` given as a statement so that the byte may come from `buf`. -/
def busWriteVia (a : Half) (driveIt : Stmt) : List Stmt :=
  loadAddr a ++ [.setFlag .oe false] ++ loadFull ++
    [.setDir .output, driveIt, .setFlag .we true, .shiftControl, .setFlag .we false, .shiftControl]

/-- `busWrite(a16, v)` (R115). -/
def busWrite (a : Half) (v : Byte) : List Stmt := busWriteVia a (.drive v)

/-- `busRead(a16)` (R116); the byte is left in the local `v`. -/
def busRead (p : Params) (a : Half) : List Stmt :=
  loadAddr a ++ [.setDir .input, .setFlag .we false, .setFlag .oe true] ++ loadFull ++
    [.wait .acc p.tAcc, .sampleData]

end Sys2Proof.Machine
end

