-- ==== Sys2Proof/Machine/ChunkRequests.lean ====
section
/-! DEFINITION. What the dispatch loop runs for the chunk requests: WRITE in both variants (42_flash_algorithm.md rules
R160 to R164) and READ sub-0 (R165). -/

namespace Sys2Proof.Machine

open Sys2Proof

/-- The readiness poll before each unlock write, in the ready-polled variant only (R160, R161). -/
def pollFirst (p : Params) : Variant → List Stmt
  | .readyPolled => [.poll p.readySpinBound]
  | .fixed => []

/-- The fixed delay after a target write, in the fixed-delay variant only (R160, R162). -/
def waitAfter (p : Params) : Variant → List Stmt
  | .readyPolled => []
  | .fixed => [.wait .nop p.fixedDelayCycles]

/-- `programByte(t16, buf[i], variant)` (R160): three unlock writes, each after its poll, then the target write. -/
def programByte (p : Params) (t : Half) (i : Fin 64) (v : Variant) : List Stmt :=
  pollFirst p v ++ busWrite 0x0AAA#16 0xAA#8 ++
  pollFirst p v ++ busWrite 0x0555#16 0x55#8 ++
  pollFirst p v ++ busWrite 0x0AAA#16 0xA0#8 ++
  busWriteVia t (.driveBuf i) ++ waitAfter p v

/-- WRITE's pseudocode in one variant (R164). -/
def progChunk (p : Params) (a : Half) (b : Nibble) (v : Variant) : List Stmt :=
  [.loadBank b] ++ (List.finRange 64).flatMap (fun i => programByte p (chunkAddr a i.val) i v) ++
    pollFirst p v ++ [.setStatus .initialised]

/-- WRITE, slow byte 0 (R164): ready-polled where SLOW_SELECTS_FIXED. -/
def progWrite (p : Params) (a : Half) (b : Nibble) : List Stmt := progChunk p a b (writeVariant p 0#8)

/-- WRITE.FIXED, a nonzero slow byte (R164): fixed-delay where SLOW_SELECTS_FIXED. -/
def progWriteFixed (p : Params) (a : Half) (sl : Byte) (b : Nibble) : List Stmt :=
  progChunk p a b (writeVariant p sl)

/-- One turn of READ sub-0's loop (R165). -/
def readNext (p : Params) (i : Fin 64) : List Stmt :=
  [.incAddrLo] ++ loadLow ++ [.wait .acc p.tAcc, .sampleBuf i]

/-- READ sub-0 (R165): one full read into `buf[0]`, then 63 low-byte reads. -/
def progReadArm (p : Params) (a : Half) (b : Nibble) : List Stmt :=
  [.loadBank b] ++ busRead p a ++ [.storeBuf 0] ++ ((List.finRange 64).drop 1).flatMap (readNext p)

end Sys2Proof.Machine
end

