-- ==== Sys2Proof/Machine/RegisterRequests.lean ====
section
/-! DEFINITION. What the dispatch loop runs for the register requests (41_dispatcher.md rules R137 to R139, R142). -/

namespace Sys2Proof.Machine

open Sys2Proof

/-- SET_CONTROL (R137). -/
def progSetControl (c : Byte) : List Stmt := [.loadCtrl c, .shiftControl]

/-- SET_ADDRESS (R138). -/
def progSetAddress (a : Half) (b : Nibble) : List Stmt := [.loadBank b] ++ loadAddr a ++ loadFull

/-- SET_DATA (R139). -/
def progSetData (d : Byte) : List Stmt := [.loadData d, .setDir .output, .drive d]

/-- BOOTLOADER (R142). -/
def progBootloader : List Stmt := [.terminate]

end Sys2Proof.Machine
end

