-- ==== Sys2Proof/Machine/SetupRequests.lean ====
section
/-! DEFINITION. What the dispatch loop runs for the SETUP modes (43_setup.md rules R190 to R199) and the command
sequences they call (42_flash_algorithm.md rules R166 to R168). `b` is the bank operand of R190. -/

namespace Sys2Proof.Machine

open Sys2Proof

/-- `preamble()` (R191). -/
def preamble : List Stmt := busWrite 0x000F#16 0xF0#8

/-- SETUP's common part (R190): the bank, then the preamble. -/
def setupCommon (b : Nibble) : List Stmt := [.loadBank b] ++ preamble

/-- `idEntry()` (R168). -/
def idEntry : List Stmt := busWrite 0x0AAA#16 0xAA#8 ++ busWrite 0x1555#16 0x55#8 ++ busWrite 0x0AAA#16 0x90#8

/-- The writes ERASE_PREFIX puts before the 0x80 write (R166). -/
def eraseUnlock : ErasePrefix → List Stmt
  | .doc4 => []
  | .jedec6 => busWrite 0x0AAA#16 0xAA#8 ++ busWrite 0x0555#16 0x55#8

/-- `eraseCommand(f16, fd)` (R166). -/
def eraseCommand (p : Params) (f : Half) (fd : Byte) : List Stmt :=
  eraseUnlock p.erasePrefix ++ busWrite p.erase80Addr 0x80#8 ++
    busWrite 0x0AAA#16 0xAA#8 ++ busWrite 0x0555#16 0x55#8 ++ busWrite f fd

/-- One turn of eraseWait's loop (R167). -/
def erasePoll (p : Params) (a : Half) : List Stmt :=
  [.wait .erasePoll p.erasePollDelay] ++ busRead p a ++ [.eraseCheck]

/-- `k` turns of eraseWait's loop. -/
def erasePolls (p : Params) (a : Half) : Nat → List Stmt
  | 0 => []
  | k + 1 => erasePoll p a ++ erasePolls p a k

/-- `eraseWait(p16)` (R167). -/
def eraseWait (p : Params) (a : Half) : List Stmt := erasePolls p a p.erasePollRetries ++ [.fail .eraseFailed]

/-- SETUP probe-ready (R192). -/
def progProbeReady (b : Nibble) : List Stmt := setupCommon b ++ [.sampleReady, .storeReady]

/-- SETUP begin-read (R193). -/
def progBeginRead (a : Half) (b : Nibble) : List Stmt :=
  setupCommon b ++ loadAddr a ++ [.setDir .input, .setFlag .we false, .setFlag .oe true] ++ loadFull

/-- SETUP begin-write (R194). -/
def progBeginWrite (a : Half) (b : Nibble) : List Stmt :=
  setupCommon b ++ loadAddr a ++ [.setFlag .oe false] ++ loadFull ++
    [.setDir .output, .setFlag .we true, .shiftControl]

/-- SETUP identify-manufacturer (R195). -/
def progIdManuf (p : Params) (b : Nibble) : List Stmt :=
  setupCommon b ++ idEntry ++ busRead p 0x0000#16 ++ [.storeData]

/-- SETUP identify-device (R196). -/
def progIdDevice (p : Params) (b : Nibble) : List Stmt :=
  setupCommon b ++ idEntry ++ busRead p 0x0002#16 ++ [.storeData]

/-- SETUP verify-sector-protection (R197): `q` is the 20-bit sum, and its bank nibble becomes the bank. -/
def progVerifyProt (p : Params) (a : Half) (b : Nibble) : List Stmt :=
  setupCommon b ++ idEntry ++ [.loadBank (bankOf (protAddr b a))] ++ busRead p (mainOf (protAddr b a)) ++
    [.storeData]

/-- SETUP erase-chip (R198). -/
def progEraseChip (p : Params) (a : Half) (b : Nibble) : List Stmt :=
  setupCommon b ++ eraseCommand p 0x0AAA#16 0x10#8 ++ eraseWait p a

/-- SETUP erase-sector (R199). -/
def progEraseSector (p : Params) (a : Half) (b : Nibble) : List Stmt :=
  setupCommon b ++ eraseCommand p a 0x30#8 ++ eraseWait p a

end Sys2Proof.Machine
end

