-- ==== Sys2Proof/Machine/Agents.lean ====
section
/-! DEFINITION. The two device-side agents (41_dispatcher.md): DSP, the dispatch loop, starts, runs and completes
commands (R134 to R136), one statement an atomic step; RX, the receive path, handles one link input an atomic step
(R130 to R133, R140, R141, R144). `settle` lets the two move until the controller waits. -/

namespace Sys2Proof.Machine

open Sys2Proof

/-! ### DSP (R134, R135) -/

/-- The rule DSP runs for each kind (R134); a query never reaches DSP. -/
def program (p : Params) : Instr → List Stmt
  | .setControl c _ _ => progSetControl c
  | .setAddress a b _ _ => progSetAddress a b
  | .setData d _ _ => progSetData d
  | .getData _ _ => []
  | .write a b _ => progWrite p a b
  | .writeFixed a sl b _ => progWriteFixed p a sl b
  | .readArm a b _ xm => progReadArm p a (rsBank p b xm)
  | .readFetch _ _ => []
  | .setupProbeReady _ b xm => progProbeReady (rsBank p b xm)
  | .setupBeginRead a b xm => progBeginRead a (rsBank p b xm)
  | .setupBeginWrite a b xm => progBeginWrite a (rsBank p b xm)
  | .setupIdManuf _ b xm => progIdManuf p (rsBank p b xm)
  | .setupIdDevice _ b xm => progIdDevice p (rsBank p b xm)
  | .setupVerifyProt a b xm => progVerifyProt p a (rsBank p b xm)
  | .setupEraseChip a b xm => progEraseChip p a (rsBank p b xm)
  | .setupEraseSector a b xm => progEraseSector p a (rsBank p b xm)
  | .bootloader _ _ => progBootloader

/-- The status the start step leaves (R134): in progress for WRITE and the erase modes, else as it was. -/
def startStatus (st : Status) : Instr → Status
  | .setControl _ _ _ => st
  | .setAddress _ _ _ _ => st
  | .setData _ _ _ => st
  | .getData _ _ => st
  | .write _ _ _ => .programInProgress
  | .writeFixed _ _ _ _ => .programInProgress
  | .readArm _ _ _ _ => st
  | .readFetch _ _ => st
  | .setupProbeReady _ _ _ => st
  | .setupBeginRead _ _ _ => st
  | .setupBeginWrite _ _ _ => st
  | .setupIdManuf _ _ _ => st
  | .setupIdDevice _ _ _ => st
  | .setupVerifyProt _ _ _ => st
  | .setupEraseChip _ _ _ => .eraseInProgress
  | .setupEraseSector _ _ _ => .eraseInProgress
  | .bootloader _ _ => st

/-- The header the mailbox's command came in. -/
def Command.header (c : Command) : Header := { op8 := c.op, p0 := c.p0, p1 := c.p1 }

/-- The mailbox entry of a header (R131): `d = p0[7:0]`. -/
def Command.ofHeader (h : Header) : Command := { op := h.op8, p0 := h.p0, p1 := h.p1, d := loByte h.p0 }

/-- What DSP decodes from the mailbox (R134). R134 says it is never unsupported or refused; the model reads none there,
and in an empty mailbox. -/
def Device.mail (d : Device) : Option Instr :=
  match d.cmd with
  | none => none
  | some c =>
    match decode c.header with
    | .ok i => some i
    | .unsupported => none
    | .refused _ => none

/-- Executing command `i` from its first statement (R134). -/
def Device.startWith (d : Device) (i : Instr) : Device :=
  { d with dstate := .executing, status := startStatus d.status i, pos := program d.params i }

/-- The start step (R134). With no command to decode there is nothing to run. -/
def Device.start (d : Device) : Device :=
  match d.mail with
  | some i => d.startWith i
  | none => { d with dstate := .executing, pos := [] }

/-- One statement, with the completion if it was the last (R135). -/
def Device.statement (d : Device) : Device × List Event :=
  match d.pos with
  | [] => (d.complete, [])
  | st :: rest => ((st.exec (d.withPos rest)).1.finish, (st.exec (d.withPos rest)).2)

/-- DSP has a start step (R134). -/
def Device.startable (d : Device) : Bool := d.dstate == .commandReceived && d.dataPending == 0

/-- DSP is inside its pseudocode: initialising (R262) or executing (R136). -/
def Device.running (d : Device) : Bool := d.dstate == .initialising || d.dstate == .executing

/-- One atomic DSP step; where DSP has none it polls, which changes nothing (R134). -/
def Device.dspStep (d : Device) : Device × List Event :=
  if d.running then d.statement else if d.startable then (d.start, []) else (d, [])

/-! ### RX (R130 to R133, R140, R141, R144) -/

/-- `respond(x)` for the request `h` (R11, R58). -/
def State.respond (s : State) (h : Header) (x : Response) : State := { s with trace := .respond h x :: s.trace }

/-- The byte an RX response shows for a slot: a draw where it is unwritten (R140, R141). -/
def rxByte (n : Nat) : Slot → Byte
  | .byte b => b
  | .unwritten => Config.rxDrawByte n

/-- GET_DATA's two bytes (R140). -/
def State.dataAnswer (s : State) : Response := .dataStatus (rxByte s.rxDraws s.data) (statusCode s.params s.status)

/-- READ_FETCH's 64 bytes, buf[0] first, each unwritten one a draw of its own (R141). -/
def State.bufferAnswer (s : State) : Response :=
  .buffer ((List.finRange 64).map fun i => rxByte (s.rxDraws + i.val) (s.buf.get i))

/-- GET_DATA (R140). -/
def State.rxGetData (s : State) (h : Header) : State :=
  { s.respond h s.dataAnswer with rxDraws := s.rxDraws + 1 }

/-- READ_FETCH (R141). -/
def State.rxReadFetch (s : State) (h : Header) : State :=
  { s.respond h s.bufferAnswer with rxDraws := s.rxDraws + 64 }

/-- The mailbox takes a command (R131); a WRITE owes its 64 data bytes. -/
def State.intoMailbox (s : State) (i : Instr) : State :=
  { s with
    cmd := some (Command.ofHeader (encode i))
    dstate := .commandReceived
    dataPending := if i.isWrite then 64 else s.dataPending }

/-- Acceptance (R131): the mailbox takes the command, and the host gets the ack. -/
def State.accept (s : State) (i : Instr) : State := (s.intoMailbox i).respond (encode i) .ack

/-- A dropped command: no state changes, and the host gets the ack (R132). -/
def State.dropCommand (s : State) (i : Instr) : State := s.respond (encode i) .ack

/-- A command header in COMMAND_RECEIVED: the race of R132, drop or overwrite, settled by a draw. -/
def State.raceCommand (s : State) (i : Instr) : State :=
  if Config.raceOverwrites s.rxDraws then { s.accept i with rxDraws := s.rxDraws + 1 }
  else { s.dropCommand i with rxDraws := s.rxDraws + 1 }

/-- RX on a command header (R131, R132). -/
def State.rxCommand (s : State) (i : Instr) : State :=
  match s.dstate with
  | .idle => s.accept i
  | .commandReceived => s.raceCommand i
  | .executing => s.dropCommand i
  | .initialising => s
  | .terminated => s

/-- RX on a decoded request (R130). -/
def State.rxInstr (s : State) (i : Instr) : State :=
  match i with
  | .getData _ _ => s.rxGetData (encode i)
  | .readFetch _ _ => s.rxReadFetch (encode i)
  | .setControl _ _ _ => s.rxCommand i
  | .setAddress _ _ _ _ => s.rxCommand i
  | .setData _ _ _ => s.rxCommand i
  | .write _ _ _ => s.rxCommand i
  | .writeFixed _ _ _ _ => s.rxCommand i
  | .readArm _ _ _ _ => s.rxCommand i
  | .setupProbeReady _ _ _ => s.rxCommand i
  | .setupBeginRead _ _ _ => s.rxCommand i
  | .setupBeginWrite _ _ _ => s.rxCommand i
  | .setupIdManuf _ _ _ => s.rxCommand i
  | .setupIdDevice _ _ _ => s.rxCommand i
  | .setupVerifyProt _ _ _ => s.rxCommand i
  | .setupEraseChip _ _ _ => s.rxCommand i
  | .setupEraseSector _ _ _ => s.rxCommand i
  | .bootloader _ _ => s.rxCommand i

/-- `refuse(reason)`: the mark, and nothing else (R246). -/
def State.refuse (s : State) : State := { s with refused := true }

/-- RX on a header (R130): unsupported, refused, or a request. -/
def State.rxHeader (s : State) (h : Header) : State :=
  match decode h with
  | .unsupported => s.respond h .notSupported
  | .refused _ => s.refuse
  | .ok i => s.rxInstr i

/-- One byte of a data segment: `buf[64 - dataPending]`, or dropped when none is owed (R133). -/
def Device.dataByte (d : Device) (b : Byte) : Device :=
  if h : d.dataPending.val = 0 then d
  else
    { d with
      buf := d.buf.set (64 - d.dataPending.val) (.byte b) (by omega)
      dataPending := ⟨d.dataPending.val - 1, by omega⟩ }

/-- A data segment, byte by byte, one atomic RX step (R133). -/
def Device.dataSegment (d : Device) (seg : List Byte) : Device := seg.foldl Device.dataByte d

/-- RX on a data segment (R133). -/
def State.rxData (s : State) (seg : List Byte) : State := { s with toDevice := s.toDevice.dataSegment seg }

/-- RX on one link input (R130). -/
def State.rxInput (s : State) : LinkInput → State
  | .header h => s.rxHeader h
  | .data seg => s.rxData seg

/-- One atomic RX step: the next input leaves the link and is handled. -/
def State.rxStep (s : State) : State :=
  match s.link with
  | [] => s
  | a :: rest => State.rxInput { s with link := rest } a.input

/-- Whether RX moves before DSP while a command is pending or running. While a data phase is owed DSP waits, so the
next input moves if it is data (a header then has no move, R130); otherwise the input moves when its delay is over.
RX has no step before the first IDLE and none in TERMINATED (R130). -/
def State.rxMoves (s : State) : Bool :=
  match s.link with
  | [] => false
  | a :: _ =>
    match s.dstate with
    | .initialising => false
    | .idle => false
    | .terminated => false
    | .executing => a.delay == 0
    | .commandReceived =>
      if s.dataPending = 0 then a.delay == 0
      else
        match a.input with
        | .data _ => true
        | .header _ => false

/-! ### Interleaving (R136, R228) -/

/-- The next input is one DSP step nearer. -/
def countDown : List Arrival → List Arrival
  | [] => []
  | a :: rest => { a with delay := a.delay - 1 } :: rest

/-- A device and the events of its step, put into the machine; the latest event stands first. -/
def State.withDevice (s : State) (r : Device × List Event) : State :=
  { s with toDevice := r.1, trace := r.2.reverse ++ s.trace }

/-- One atomic DSP step of the machine. -/
def State.dspMove (s : State) : State := { s.withDevice s.toDevice.dspStep with link := countDown s.link }

/-- One atomic step of whichever agent moves next. -/
def State.tick (s : State) : State := if s.rxMoves then s.rxStep else s.dspMove

/-- One atomic step of the machine, whatever it is doing: in IDLE the next input is RX's, elsewhere the agents move as
the link's schedule says (R136, R228). `step` is a number of these. -/
def State.atomicStep (s : State) : State := if s.dstate = .idle then s.rxStep else s.tick

/-- Ticks while DSP is inside its pseudocode, at most `n` of them. -/
def State.runTicks : Nat → State → State
  | 0, s => s
  | n + 1, s => if s.running then State.runTicks n s.tick else s

/-- Ticks enough for the running command to end: its statements' steps, one for an empty rest, and one RX step for
each input the host still sends (R145). -/
def State.fuel (s : State) : Nat := stepBound s.pos + 1 + s.link.length

/-- The running command, or the initialisation, carried to its end, with RX between its steps (R136). -/
def State.runCommand (s : State) : State := State.runTicks s.fuel s

/-- RX steps that come before DSP can start the pending command, at most `n` of them. -/
def State.takeInputs : Nat → State → State
  | 0, s => s
  | n + 1, s => if s.rxMoves && s.dstate == .commandReceived then State.takeInputs n s.rxStep else s

/-- The agents move until the controller waits: the inputs due before the start, then, if DSP can start, the start
step and the command. A WRITE whose data phase has not arrived is left waiting (R134). -/
def State.settle (s : State) : State :=
  let s1 := State.takeInputs s.link.length s
  if s1.startable then s1.dspMove.runCommand else s1

/-- A header arrives (R130): HD0 and HD1 give it no move before the first IDLE and while a data phase is owed (R240),
TERMINATED has no RX step (R142); otherwise it is handled. -/
def State.onHeader (s : State) (handled : State) : Host.Outcome State Fault Refusal :=
  match s.dstate with
  | .initialising => .fault .headerBeforeIdle
  | .terminated => .fault .terminated
  | .idle => if s.dataPending = 0 then .next handled else .fault .headerInDataPhase
  | .commandReceived => if s.dataPending = 0 then .next handled else .fault .headerInDataPhase
  | .executing => if s.dataPending = 0 then .next handled else .fault .headerInDataPhase

/-- A command request: RX handles it, and where that accepts it, it is carried to its end (R131 to R135). Elsewhere it
is dropped or raced, one RX step (R132). -/
def State.command (s : State) (i : Instr) : State :=
  match s.dstate with
  | .idle => (s.accept i).settle
  | .initialising => s.rxCommand i
  | .commandReceived => s.rxCommand i
  | .executing => s.rxCommand i
  | .terminated => s.rxCommand i

end Sys2Proof.Machine
end

