-- ==== Sys2Proof/Machine/Requests.lean ====
section
/-! DEFINITION. The meaning of each request: what the controller does when its header arrives. A command in IDLE is
accepted and carried to its end (R131, R134, R135), by the statements its rule gives (`program`); in COMMAND_RECEIVED
it races, in EXECUTING it is dropped (R132). A query is answered at once (R140, R141). -/

namespace Sys2Proof.Machine

open Sys2Proof

/-- SET_CONTROL (R137, R131 to R135); DSP runs `progSetControl`. -/
def execSetControl (c : Byte) (x0 : Byte) (x1 : Half) (s : State) : Host.Outcome State Fault Refusal :=
  s.onHeader (s.command (.setControl c x0 x1))

/-- SET_ADDRESS (R138); DSP runs `progSetAddress`. -/
def execSetAddress (a : Half) (b : Nibble) (xh : Byte) (xl : Nibble) (s : State) : Host.Outcome State Fault Refusal :=
  s.onHeader (s.command (.setAddress a b xh xl))

/-- SET_DATA (R139); DSP runs `progSetData`. -/
def execSetData (d : Byte) (x0 : Byte) (x1 : Half) (s : State) : Host.Outcome State Fault Refusal :=
  s.onHeader (s.command (.setData d x0 x1))

/-- GET_DATA (R140): one atomic RX step, in IDLE, COMMAND_RECEIVED or EXECUTING. -/
def execGetData (x0 x1 : Half) (s : State) : Host.Outcome State Fault Refusal :=
  s.onHeader (s.rxGetData (encode (.getData x0 x1)))

/-- WRITE (R164); DSP runs `progWrite`. -/
def execWrite (a : Half) (b xl : Nibble) (s : State) : Host.Outcome State Fault Refusal :=
  s.onHeader (s.command (.write a b xl))

/-- WRITE.FIXED (R164); DSP runs `progWriteFixed`. -/
def execWriteFixed (a : Half) (sl : Byte) (b xl : Nibble) (s : State) : Host.Outcome State Fault Refusal :=
  s.onHeader (s.command (.writeFixed a sl b xl))

/-- READ_ARM (R165); DSP runs `progReadArm`. -/
def execReadArm (a : Half) (b : Nibble) (xh : Byte) (xm : Nibble) (s : State) : Host.Outcome State Fault Refusal :=
  s.onHeader (s.command (.readArm a b xh xm))

/-- READ_FETCH (R141): one atomic RX step, in IDLE, COMMAND_RECEIVED or EXECUTING. -/
def execReadFetch (x0 x1 : Half) (s : State) : Host.Outcome State Fault Refusal :=
  s.onHeader (s.rxReadFetch (encode (.readFetch x0 x1)))

/-- SETUP.PROBE_READY (R190, R192); DSP runs `progProbeReady`. -/
def execSetupProbeReady (a : Half) (b xm : Nibble) (s : State) : Host.Outcome State Fault Refusal :=
  s.onHeader (s.command (.setupProbeReady a b xm))

/-- SETUP.BEGIN_READ (R190, R193); DSP runs `progBeginRead`. -/
def execSetupBeginRead (a : Half) (b xm : Nibble) (s : State) : Host.Outcome State Fault Refusal :=
  s.onHeader (s.command (.setupBeginRead a b xm))

/-- SETUP.BEGIN_WRITE (R190, R194); DSP runs `progBeginWrite`. -/
def execSetupBeginWrite (a : Half) (b xm : Nibble) (s : State) : Host.Outcome State Fault Refusal :=
  s.onHeader (s.command (.setupBeginWrite a b xm))

/-- SETUP.ID_MANUF (R190, R195); DSP runs `progIdManuf`. -/
def execSetupIdManuf (a : Half) (b xm : Nibble) (s : State) : Host.Outcome State Fault Refusal :=
  s.onHeader (s.command (.setupIdManuf a b xm))

/-- SETUP.ID_DEVICE (R190, R196); DSP runs `progIdDevice`. -/
def execSetupIdDevice (a : Half) (b xm : Nibble) (s : State) : Host.Outcome State Fault Refusal :=
  s.onHeader (s.command (.setupIdDevice a b xm))

/-- SETUP.VERIFY_PROT (R190, R197); DSP runs `progVerifyProt`. -/
def execSetupVerifyProt (a : Half) (b xm : Nibble) (s : State) : Host.Outcome State Fault Refusal :=
  s.onHeader (s.command (.setupVerifyProt a b xm))

/-- SETUP.ERASE_CHIP (R190, R198); DSP runs `progEraseChip`. -/
def execSetupEraseChip (a : Half) (b xm : Nibble) (s : State) : Host.Outcome State Fault Refusal :=
  s.onHeader (s.command (.setupEraseChip a b xm))

/-- SETUP.ERASE_SECTOR (R190, R199); DSP runs `progEraseSector`. -/
def execSetupEraseSector (a : Half) (b xm : Nibble) (s : State) : Host.Outcome State Fault Refusal :=
  s.onHeader (s.command (.setupEraseSector a b xm))

/-- BOOTLOADER (R142); DSP runs `progBootloader`. -/
def execBootloader (x0 x1 : Half) (s : State) : Host.Outcome State Fault Refusal :=
  s.onHeader (s.command (.bootloader x0 x1))

end Sys2Proof.Machine
end

