-- ==== Sys2Proof/Machine/Dispatch.lean ====
section
/-! DEFINITION. One arm per constructor of `Instr`, one direct call of its meaning. -/

namespace Sys2Proof.Machine

open Sys2Proof

def exec (i : Instr) (s : State) : Host.Outcome State Fault Refusal :=
  match i with
  | .setControl c x0 x1 => Sys2Proof.Machine.execSetControl c x0 x1 s
  | .setAddress a b xh xl => Sys2Proof.Machine.execSetAddress a b xh xl s
  | .setData d x0 x1 => Sys2Proof.Machine.execSetData d x0 x1 s
  | .getData x0 x1 => Sys2Proof.Machine.execGetData x0 x1 s
  | .write a b xl => Sys2Proof.Machine.execWrite a b xl s
  | .writeFixed a sl b xl => Sys2Proof.Machine.execWriteFixed a sl b xl s
  | .readArm a b xh xm => Sys2Proof.Machine.execReadArm a b xh xm s
  | .readFetch x0 x1 => Sys2Proof.Machine.execReadFetch x0 x1 s
  | .setupProbeReady a b xm => Sys2Proof.Machine.execSetupProbeReady a b xm s
  | .setupBeginRead a b xm => Sys2Proof.Machine.execSetupBeginRead a b xm s
  | .setupBeginWrite a b xm => Sys2Proof.Machine.execSetupBeginWrite a b xm s
  | .setupIdManuf a b xm => Sys2Proof.Machine.execSetupIdManuf a b xm s
  | .setupIdDevice a b xm => Sys2Proof.Machine.execSetupIdDevice a b xm s
  | .setupVerifyProt a b xm => Sys2Proof.Machine.execSetupVerifyProt a b xm s
  | .setupEraseChip a b xm => Sys2Proof.Machine.execSetupEraseChip a b xm s
  | .setupEraseSector a b xm => Sys2Proof.Machine.execSetupEraseSector a b xm s
  | .bootloader x0 x1 => Sys2Proof.Machine.execBootloader x0 x1 s

end Sys2Proof.Machine
end

