-- ==== Sys2Proof/Machine/Step.lean ====
section
/-! DEFINITION. One step of the machine: the initialisation (R262), a pending or running command carried to its end
(R134 to R136), or the next link input (R130); in TERMINATED there is none (R142). Where no agent has a step DSP polls,
which changes nothing (R134). -/

namespace Sys2Proof.Machine

open Sys2Proof

/-- A header taken from the link (R130): decoded (R84), and then its request runs. -/
def State.stepHeader (s : State) (h : Header) : Host.Outcome State Fault Refusal :=
  match decode h with
  | .unsupported => s.onHeader (s.respond h .notSupported)
  | .refused _ => s.onHeader s.refuse
  | .ok i => exec i s

/-- The next link input (R130); with none, DSP polls (R134). -/
def State.stepInput (s : State) : Host.Outcome State Fault Refusal :=
  match s.link with
  | [] => .next s
  | a :: rest =>
    match a.input with
    | .header h => State.stepHeader { s with link := rest } h
    | .data seg => .next (State.rxData { s with link := rest } seg)

/-- One step. -/
def step (s : State) : Host.Outcome State Fault Refusal :=
  match s.dstate with
  | .terminated => .fault .terminated
  | .initialising => .next s.runCommand
  | .executing => .next s.runCommand
  | .idle => s.stepInput
  | .commandReceived => if s.startable && !s.rxMoves then .next s.settle else s.stepInput

/-- The data phase that follows a header: 64 zero bytes after a WRITE (the bits above the table's are 0), else none. -/
def dataPhaseOf (h : Header) : List Arrival :=
  match decode h with
  | .ok i => if i.isWrite then [{ delay := 0, input := .data (List.replicate 64 0#8) }] else []
  | .unsupported => []
  | .refused _ => []

/-- The host sends the request word `w` next, and nothing after it: the machine, initialised if it was not, stands in
IDLE with the request on the link, so that the next step runs it. -/
def State.withFetchWord (s : State) (nbits w : Nat) : State :=
  let t := if s.dstate = .initialising then s.runCommand else s
  { t with
    dstate := .idle
    cmd := none
    pos := []
    dataPending := 0
    link := { delay := 0, input := .header (headerOfTable nbits w) } :: dataPhaseOf (headerOfTable nbits w) }

end Sys2Proof.Machine
end

