-- ==== Sys2Proof/Machine/Lines.lean ====
section
/-! DEFINITION. The line level of the bus driver (00_scope.md rule R7; 40_bus_driver.md rules R100 to R107): one write
of a serial line with its edge, and the three shift primitives written as their pseudocode, line write by line write.
`step` runs the cycle level of `Ops.lean`; that the two agree (R108, R109) is stated in the obligations. -/

namespace Sys2Proof.Machine

open Sys2Proof

/-- The level of a line (R33). -/
def Lines.level (l : Lines) : Line → Bool
  | .cclk => l.cclk
  | .cdat => l.cdat
  | .aclk => l.aclk
  | .adat => l.adat
  | .latch => l.latch

/-- The lines with one line driven to a level. -/
def Lines.put (l : Lines) (x : Line) (b : Bool) : Lines :=
  match x with
  | .cclk => { l with cclk := b }
  | .cdat => { l with cdat := b }
  | .aclk => { l with aclk := b }
  | .adat => { l with adat := b }
  | .latch => { l with latch := b }

/-- A shift stage moved up by one bit, the serial input in bit 0 (R101, R102). -/
def shiftIn (s : Byte) (b : Bool) : Byte := (s <<< 1) ||| (BitVec.ofBool b).setWidth 8

/-- A rising edge of CCLK (R101). -/
def Device.edgeControl (d : Device) : Device :=
  { d with c := { d.c with S := shiftIn d.c.S d.lines.cdat } }

/-- A rising edge of ACLK (R102): A2 takes A1's outgoing bit unless the latched ALS output is asserted. -/
def Device.edgeAddress (d : Device) : Device :=
  { d with
    a1 := { d.a1 with S := shiftIn d.a1.S d.lines.adat }
    a2 := { d.a2 with S := if d.pinOn .als then d.a2.S else shiftIn d.a2.S (d.a1.S.getLsbD 7) } }

/-- What a rising edge of a line does (R101 to R103); CDAT and ADAT have none. -/
def Device.edge (d : Device) : Line → Device × List Event
  | .cclk => (d.edgeControl, [])
  | .aclk => (d.edgeAddress, [])
  | .latch => d.latch
  | .cdat => (d, [])
  | .adat => (d, [])

/-- `LINE <- b` (R104): the write is recorded; it makes an edge only where the level rises. R58 and R117 record the
`Set(LATCH, 1)` and the write event of its edge in one step and give no order; the `Set` comes first here: DESIGN
CHOICE, log 26, safe. -/
def Device.setLine (d : Device) (x : Line) (b : Bool) : Device × List Event :=
  let d1 := { d with lines := d.lines.put x b }
  if b && !d.lines.level x then ((d1.edge x).1, .set x b :: (d1.edge x).2) else (d1, [.set x b])

/-- Line writes in order. -/
def Device.setLines (d : Device) : List (Line × Bool) → Device × List Event
  | [] => (d, [])
  | (x, b) :: rest =>
    let r := Device.setLines (d.setLine x b).1 rest
    (r.1, (d.setLine x b).2 ++ r.2)

/-- The line writes of one shift: LATCH low, each bit, LATCH high (R105 to R107). -/
def shiftWrites (clk dat : Line) (bits : List Bool) : List (Line × Bool) :=
  (.latch, false) :: bits.flatMap (fun b => [(clk, false), (dat, b), (clk, true)]) ++ [(.latch, true)]

/-- R105's pseudocode. -/
def Device.shiftControlByLines (d : Device) : Device × List Event :=
  d.setLines (shiftWrites .cclk .cdat (msbFirst (ctrlByte d.ctrl d.bank)))

/-- R106's pseudocode. -/
def Device.shiftFullAddressByLines (d : Device) : Device × List Event :=
  d.setLines (shiftWrites .aclk .adat (msbFirst (addr16 d.addrHi d.addrLo)))

/-- R107's pseudocode. -/
def Device.shiftLowAddressByLines (d : Device) : Device × List Event :=
  d.setLines (shiftWrites .aclk .adat (msbFirst d.addrLo))

end Sys2Proof.Machine
end

