-- ==== Sys2Proof/Safety.lean ====
section
/-! DEFINITION. The terms claims are stated in: the parts of the observation (R58), the launch premises (R247), when a
run is over (R244), when the pins reflect the registers (R40), and the invariant of the states between steps. -/

namespace Sys2Proof.Machine

open Sys2Proof

/-! ### Parts of the observation (R58) -/

/-- An answer RX gave. -/
def Event.isRespond : Event → Bool
  | .respond _ _ => true
  | .set _ _ => false
  | .dir _ => false
  | .drive _ => false
  | .sampleData _ => false
  | .sampleReady _ => false
  | .wait _ _ => false
  | .busWrite _ _ => false
  | .busRead _ _ => false

/-- A serial-line write. -/
def Event.isSet : Event → Bool
  | .set _ _ => true
  | .respond _ _ => false
  | .dir _ => false
  | .drive _ => false
  | .sampleData _ => false
  | .sampleReady _ => false
  | .wait _ _ => false
  | .busWrite _ _ => false
  | .busRead _ _ => false

/-- The write events among events, in order (R117). -/
def busWritesOf (es : List Event) : List (Addr20 × Byte) :=
  es.filterMap fun e => match e with
    | .busWrite a v => some (a, v)
    | _ => none

/-- The read events among events, in order (R118). -/
def busReadsOf (es : List Event) : List (Addr20 × Byte) :=
  es.filterMap fun e => match e with
    | .busRead a v => some (a, v)
    | _ => none

/-- The readiness samples among events, in order. -/
def readySamplesOf (es : List Event) : List Bool :=
  es.filterMap fun e => match e with
    | .sampleReady b => some b
    | _ => none

/-- The waits among events, in order (R112). -/
def waitsOf (es : List Event) : List (WaitKind × Nat) :=
  es.filterMap fun e => match e with
    | .wait k n => some (k, n)
    | _ => none

/-- How many serial-line writes are among events (R285). -/
def lineWritesOf (es : List Event) : Nat := es.countP Event.isSet

/-- What DSP did, earliest first: the trace without RX's answers. -/
def State.busEvents (s : State) : List Event := s.events.filter fun e => !e.isRespond

/-- RX's answers, earliest first. -/
def State.answers (s : State) : List Event := s.events.filter Event.isRespond

/-- What a stretch of the trace shows of the bus: every event but the line writes, in the order R58 gives them, and how
many line writes there are. -/
structure BusLog where
  events : List Event := []
  lineWrites : Nat := 0
  deriving DecidableEq, Repr

/-- The log of a stretch of the trace. -/
def BusLog.of (es : List Event) : BusLog :=
  { events := es.filter fun e => !e.isSet
    lineWrites := lineWritesOf es }

/-- Between `s` and `t` DSP has added a stretch to the trace whose log is `log`, and taken nothing from it. -/
def State.Shows (s t : State) (log : BusLog) : Prop := ∃ es, t.busEvents = s.busEvents ++ es ∧ BusLog.of es = log

/-! ### The events of the bus cycles, line writes aside (R58, R115, R116) -/

/-- A write cycle: the port turned to output, the byte driven, and, at the second latch of its strobe, the write event
(R115, R117). -/
def writeCycle (a : Addr20) (v : Byte) : List Event := [.dir .output, .drive v, .busWrite a v]

/-- Write cycles one after another. -/
def writeCycles (ws : List (Addr20 × Byte)) : List Event := ws.flatMap fun w => writeCycle w.1 w.2

/-- Write events alone: those a control shift makes, without a write cycle (R117). -/
def riseEvents (ws : List (Addr20 × Byte)) : List Event := ws.map fun w => .busWrite w.1 w.2

/-- One timed sample: the access wait, the sample, its read event (R116, R118, R165). That the read event stands after
the sample is the model's choice, log 26. -/
def timedSample (p : Params) (a : Addr20) (v : Byte) : List Event := [.wait .acc p.tAcc, .sampleData v, .busRead a v]

/-- A read cycle that begins with write-enable deasserted on the pins: the port turned to input, one timed sample
(R116). -/
def readCycle (p : Params) (a : Addr20) (v : Byte) : List Event := .dir .input :: timedSample p a v

/-- A readiness poll that succeeds after `n` false samples (R113). -/
def pollEvents (n : Nat) : List Event := List.replicate n (.sampleReady false) ++ [.sampleReady true]

/-! ### When a request runs at once -/

/-- No input arrives before the next DSP step. -/
def noneDue : List Arrival → Bool
  | [] => true
  | a :: _ => a.delay != 0

/-- The controller takes a command (R131), and no input comes between its acceptance and its start (R132, R274). Inputs
that come later, while it runs, are not restricted. -/
structure State.Ready (s : State) : Prop where
  idle : s.dstate = .idle
  noData : s.dataPending = 0
  quiet : noneDue s.link = true

/-- RX answers a query (R140, R141): DSP has reached its first IDLE, the run has not ended, no data phase is owed. -/
structure State.Answering (s : State) : Prop where
  begun : s.dstate ≠ .initialising
  going : s.dstate ≠ .terminated
  noData : s.dataPending = 0

/-- Segments that carry a data phase of 64 bytes, whatever their sizes (R133). -/
def isPhase (segs : List (List Byte)) : Bool := segs.flatten.length == 64

/-- The controller takes a WRITE whose data phase follows on the link in any segmentation, with no input between the
last data byte and the start (R133, R134). -/
structure State.ReadyWrite (s : State) (delays : List Nat) (segs : List (List Byte)) (rest : List Arrival) : Prop where
  idle : s.dstate = .idle
  noData : s.dataPending = 0
  sized : delays.length = segs.length
  some : ∀ seg ∈ segs, seg ≠ []
  phase : isPhase segs = true
  link : s.link = (delays.zip segs).map (fun p => { delay := p.1, input := .data p.2 }) ++ rest
  quiet : noneDue rest = true

/-- The controller takes `i`: a request other than WRITE as in `Ready`, a WRITE with its data phase as in
`ReadyWrite`. -/
def State.Takes (s : State) (i : Instr) : Prop :=
  (i.isWrite = false ∧ s.Ready) ∨ (i.isWrite = true ∧ ∃ delays segs rest, s.ReadyWrite delays segs rest)

/-! ### Ignored bits (R85, R87) -/

/-- The bank field of READ_ARM and SETUP kept and the other nibble written as 0, as (bits 3:0, bits 7:4) (R85). -/
def rsFields (p : Params) (b xm : Nibble) : Nibble × Nibble :=
  match p.bankShiftRs with
  | .at0 => (b, 0#4)
  | .at4 => (0#4, xm)

/-- The request with every bit R85 does not name written as 0 (R87, R91). -/
def clearIgnored (p : Params) : Instr → Instr
  | .setControl c _ _ => .setControl c 0#8 0#16
  | .setAddress a b _ _ => .setAddress a b 0#8 0#4
  | .setData d _ _ => .setData d 0#8 0#16
  | .getData _ _ => .getData 0#16 0#16
  | .write a b _ => .write a b 0#4
  | .writeFixed a sl b _ => .writeFixed a sl b 0#4
  | .readArm a b _ xm => .readArm a (rsFields p b xm).1 0#8 (rsFields p b xm).2
  | .readFetch _ _ => .readFetch 0#16 0#16
  | .setupProbeReady _ b xm => .setupProbeReady 0#16 (rsFields p b xm).1 (rsFields p b xm).2
  | .setupBeginRead a b xm => .setupBeginRead a (rsFields p b xm).1 (rsFields p b xm).2
  | .setupBeginWrite a b xm => .setupBeginWrite a (rsFields p b xm).1 (rsFields p b xm).2
  | .setupIdManuf _ b xm => .setupIdManuf 0#16 (rsFields p b xm).1 (rsFields p b xm).2
  | .setupIdDevice _ b xm => .setupIdDevice 0#16 (rsFields p b xm).1 (rsFields p b xm).2
  | .setupVerifyProt a b xm => .setupVerifyProt a (rsFields p b xm).1 (rsFields p b xm).2
  | .setupEraseChip a b xm => .setupEraseChip a (rsFields p b xm).1 (rsFields p b xm).2
  | .setupEraseSector a b xm => .setupEraseSector a (rsFields p b xm).1 (rsFields p b xm).2
  | .bootloader _ _ => .bootloader 0#16 0#16

/-! ### The pins and the registers (R40) -/

/-- Write-enable on the pins is as the control register has it. -/
def Device.weShown (d : Device) : Prop := isAsserted .we d.c.Q = isAsserted .we d.ctrl

/-- R40, as it stands whenever DSP is in IDLE: every output stage shows its shift stage, the address pins show
addrHi:addrLo, and C.Q is CTRL_BYTE of ctrl and the bank. The one exception is a ready-polled WRITE that failed at its
first poll: there C.Q holds the CTRL_BYTE of the previous bank. -/
structure Device.Coherent (d : Device) : Prop where
  c : d.c.Q = d.c.S
  a1 : d.a1.Q = d.a1.S
  a2 : d.a2.Q = d.a2.S
  lo : d.a1.Q = d.addrLo
  hi : d.a2.Q = d.addrHi
  control : d.c.Q = ctrlByte d.ctrl d.bank ∨ (d.status = .programFailed ∧ ∃ old, d.c.Q = ctrlByte d.ctrl old)

/-- The control register after a write cycle: OE, ALS and WE deasserted, the rest kept (R115). -/
def writeCtrl (ctrl : Byte) : Byte := writeFlag .we false (writeFlag .als false (writeFlag .oe false ctrl))

/-- The control register after a read cycle: WE and ALS deasserted, OE asserted, the rest kept (R116). -/
def readCtrl (ctrl : Byte) : Byte := writeFlag .als false (writeFlag .oe true (writeFlag .we false ctrl))

/-- The write event a read cycle begins with where write-enable stands asserted on the pins: its data is a draw, since
the port is an input by then (R116, R117, R280). -/
def Device.strayWrites (d : Device) : List (Addr20 × Byte) :=
  if d.pinOn .we then [(d.pinAddr, Config.drawByte d.draws)] else []

/-- The device with the chain, the pins and the lines showing its registers: what a control shift and then a full
address shift with ALS deasserted leave (R40, R108, R109). -/
def Device.shown (d : Device) : Device :=
  { d with
    c := { S := ctrlByte d.ctrl d.bank, Q := ctrlByte d.ctrl d.bank }
    a1 := { S := d.addrLo, Q := d.addrLo }
    a2 := { S := d.addrHi, Q := d.addrHi }
    lines :=
      { cclk := true
        cdat := (ctrlByte d.ctrl d.bank).getLsbD 0
        aclk := true
        adat := d.addrLo.getLsbD 0
        latch := true } }

/-- Contention on the data lines (R119). -/
def Device.contention (d : Device) : Bool := d.portDir == .output && d.pinOn .oe

/-! ### The write events of the command sequences (R160, R163, R166, R168, R191) -/

/-- The preamble's write event (R191). -/
def preambleWrites (b : Nibble) : List (Addr20 × Byte) := [(addr20 b 0x000F#16, 0xF0#8)]

/-- The write events of one programmed byte: three unlock writes, then the target write (R160). -/
def programWrites (b : Nibble) (t : Half) (v : Byte) : List (Addr20 × Byte) :=
  [(addr20 b 0x0AAA#16, 0xAA#8), (addr20 b 0x0555#16, 0x55#8), (addr20 b 0x0AAA#16, 0xA0#8), (addr20 b t, v)]

/-- The write events of a whole chunk, byte by byte (R160, R163, R164). -/
def chunkWrites (b : Nibble) (a : Half) (bytes : Vector Byte 64) : List (Addr20 × Byte) :=
  (List.finRange 64).flatMap fun i => programWrites b (chunkAddr a i.val) (bytes.get i)

/-- The write events of one programmed byte as the readiness polls divide them: a poll stands before each of the three
unlock writes, none before the target write (R160). -/
def programParts (b : Nibble) (t : Half) (v : Byte) : List (List (Addr20 × Byte)) :=
  [[(addr20 b 0x0AAA#16, 0xAA#8)], [(addr20 b 0x0555#16, 0x55#8)], [(addr20 b 0x0AAA#16, 0xA0#8), (addr20 b t, v)]]

/-- The write events of a whole chunk as its 193 polls divide them: each part follows its poll, and after the last poll
there is no write (R160, R164). -/
def chunkParts (b : Nibble) (a : Half) (bytes : Vector Byte 64) : List (List (Addr20 × Byte)) :=
  (List.finRange 64).flatMap (fun i => programParts b (chunkAddr a i.val) (bytes.get i)) ++ [[]]

/-- Polls that succeed, each after the number of false samples given, and the write cycles that follow each. -/
def polledCycles (misses : List Nat) (parts : List (List (Addr20 × Byte))) : List Event :=
  (misses.zip parts).flatMap fun x => pollEvents x.1 ++ writeCycles x.2

/-- The write events of an identification entry (R168). -/
def idWrites (b : Nibble) : List (Addr20 × Byte) :=
  [(addr20 b 0x0AAA#16, 0xAA#8), (addr20 b 0x1555#16, 0x55#8), (addr20 b 0x0AAA#16, 0x90#8)]

/-- The write events of an erase command whose last write is `(f, fd)` (R166). -/
def eraseWrites (p : Params) (b : Nibble) (f : Half) (fd : Byte) : List (Addr20 × Byte) :=
  (match p.erasePrefix with
    | .doc4 => []
    | .jedec6 => [(addr20 b 0x0AAA#16, 0xAA#8), (addr20 b 0x0555#16, 0x55#8)]) ++
  [(addr20 b p.erase80Addr, 0x80#8), (addr20 b 0x0AAA#16, 0xAA#8), (addr20 b 0x0555#16, 0x55#8), (addr20 b f, fd)]

/-- The write event of a control shift that latches the control register `c`: there is one where that takes
write-enable from asserted on the pins to deasserted, and its data is what the port drives, or a draw (R117). -/
def Device.riseWrites (d : Device) (c : Byte) : List (Addr20 × Byte) :=
  if d.pinOn .we && !isAsserted .we c then [(d.pinAddr, d.writeData.1)] else []

/-- The draws used up after that control shift. -/
def Device.riseDraws (d : Device) (c : Byte) : Nat :=
  if d.pinOn .we && !isAsserted .we c then d.writeData.2.draws else d.draws

/-- The fixture's command state after write events, from a device. -/
def Device.fstateAfter (d : Device) (ws : List (Addr20 × Byte)) : FState := (fixtureWrites ws (d.fstate, d.fmem)).1

/-- The fixture's array after write events, from a device. -/
def Device.fmemAfter (d : Device) (ws : List (Addr20 × Byte)) : List Host.Cell :=
  (fixtureWrites ws (d.fstate, d.fmem)).2

/-! ### What a request asks for (R164, R190) -/

/-- `i` asks for a ready-polled WRITE at `b : a` (R164): slow byte 0, or a nonzero one where SLOW_SELECTS_FIXED is
false. -/
def AsksReadyPolled (p : Params) (i : Instr) (a : Half) (b : Nibble) : Prop :=
  (p.slowSelectsFixed = true ∧ ∃ xl, i = .write a b xl) ∨
    (p.slowSelectsFixed = false ∧ ∃ sl xl, sl ≠ 0#8 ∧ i = .writeFixed a sl b xl)

/-- `i` asks for a fixed-delay WRITE at `b : a` (R164): a nonzero slow byte, or 0 where SLOW_SELECTS_FIXED is false. -/
def AsksFixedDelay (p : Params) (i : Instr) (a : Half) (b : Nibble) : Prop :=
  (p.slowSelectsFixed = true ∧ ∃ sl xl, sl ≠ 0#8 ∧ i = .writeFixed a sl b xl) ∨
    (p.slowSelectsFixed = false ∧ ∃ xl, i = .write a b xl)

/-- `i` asks for an erase with poll address `b : a`, whose command ends with the write `(f, fd)` (R166, R198, R199). -/
def AsksErase (p : Params) (i : Instr) (a : Half) (b : Nibble) (f : Half) (fd : Byte) : Prop :=
  ∃ n xm, b = rsBank p n xm ∧
    ((i = .setupEraseChip a n xm ∧ f = 0x0AAA#16 ∧ fd = 0x10#8) ∨ (i = .setupEraseSector a n xm ∧ f = a ∧ fd = 0x30#8))

/-- `i` asks for an identification read at offset `off`, in bank `b` (R195, R196). -/
def AsksId (p : Params) (i : Instr) (b : Nibble) (off : Half) : Prop :=
  ∃ a n xm, b = rsBank p n xm ∧
    ((i = .setupIdManuf a n xm ∧ off = 0x0000#16) ∨ (i = .setupIdDevice a n xm ∧ off = 0x0002#16))

/-- Only what the accepted request itself is answered: its ack; nothing more comes from the link (R131). -/
structure State.AckedAlone (s t : State) (i : Instr) : Prop where
  answers : t.answers = s.answers ++ [.respond (encode i) .ack]
  refused : t.refused = s.refused
  draws : t.rxDraws = s.rxDraws
  link : t.link = []

/-! ### Launch premises and the end of a run (R244, R247) -/

/-- The events of the initialisation (R262): the direction, the control shift of 0x03, the address shift of 0x0000.
`w` is the write event its first latch may make (R281). -/
def initEvents (w : List Event) : List Event :=
  .dir .input :: (shiftEvents .cclk .cdat (msbFirst (0x03#8 : Byte)) ++ w ++
    shiftEvents .aclk .adat (msbFirst (0x0000#16 : Half)))

/-- CLEAN_START (R247): the column "value when DSP first reaches IDLE" of R39. -/
structure State.CleanStart (s : State) : Prop where
  address : s.bank = 0#4 ∧ s.addrHi = 0#8 ∧ s.addrLo = 0#8
  control : s.ctrl = 0x03#8
  port : s.data = .unwritten ∧ s.portDir = .input ∧ s.portOut = .unwritten
  buffer : s.buf = Vector.replicate 64 .unwritten
  mailbox : s.cmd = none ∧ s.dataPending = 0 ∧ s.dstate = .idle
  status : s.status = .initialised
  chain : s.c = { S := 0x03#8, Q := 0x03#8 } ∧ s.a1 = { S := 0#8, Q := 0#8 } ∧ s.a2 = { S := 0#8, Q := 0#8 }
  lines : s.lines = { cclk := true, cdat := true, aclk := true, adat := false, latch := true }
  position : s.pos = []
  refused : s.refused = false
  trace : ∃ w, s.events = initEvents w ∧ (w = [] ∨ ∃ a v, w = [.busWrite a v])

/-- FIXTURE_FRESH (R247): the flash oracle is the fixture, in its initial state (R70). -/
structure State.FixtureFresh (s : State) : Prop where
  answers : s.flash = .fixture
  ready : s.ready = .fake [] true
  fstate : s.fstate = .read
  erased : s.fmem = []

/-- The header RX handles in the next atomic step, if that step is one of RX on a header. -/
def State.headerNow (s : State) : Option Header :=
  if s.dstate == .idle || s.rxMoves then
    match s.link with
    | { delay := _, input := .header h } :: _ => some h
    | { delay := _, input := .data _ } :: _ => none
    | [] => none
  else none

/-- HOST_PACED (R247) at one atomic step. A header that is no GET_DATA arrives only in IDLE; a GET_DATA that is meant
as a completion poll arrives only after DSP has taken the command's start step. Which of the inputs are meant so is the
host's own knowledge: `polls n` says it of the input with which `n` inputs are still to be handled. -/
def State.PacedNow (polls : Nat → Prop) (s : State) : Prop :=
  ∀ h, s.headerNow = some h →
    ((¬∃ x0 x1, decode h = .ok (.getData x0 x1)) → s.dstate = .idle) ∧
    ((∃ x0 x1, decode h = .ok (.getData x0 x1)) → polls s.link.length → s.dstate ≠ .commandReceived)

/-- HOST_PACED (R247) over a whole run: at every atomic step from `s` on. -/
def State.Paced (polls : Nat → Prop) (s : State) : Prop := ∀ n, (State.atomicStep^[n] s).PacedNow polls

/-- NO_REFUSAL (R247). -/
def State.NoRefusal (s : State) : Prop := s.refused = false

/-- The end of a run (R244). -/
def State.RunEnded (s : State) : Prop :=
  s.dstate = .terminated ∨ (s.link = [] ∧ s.dstate = .idle ∧ s.dataPending = 0)

/-! ### What a GET_DATA shows (R134, R140, R274) -/

/-- `i` is one of the two erase modes. -/
def IsErase (i : Instr) : Prop := ∃ a n xm, i = .setupEraseChip a n xm ∨ i = .setupEraseSector a n xm

/-- The start step of `i` writes the in-progress status `st` (R134). -/
def ReportsProgress (i : Instr) (st : Status) : Prop :=
  (i.isWrite = true ∧ st = .programInProgress) ∨ (IsErase i ∧ st = .eraseInProgress)

/-- Every GET_DATA answered in this state shows the status code `code`, and the answer changes nothing else: the one RX
handles in the next atomic step, if it does, and, where RX answers a query, one that arrives now. -/
def State.AnswersStatus (s : State) (code : Byte) : Prop :=
  (∀ h x0 x1, s.headerNow = some h → decode h = .ok (.getData x0 x1) →
    ∃ v, s.atomicStep =
      { s with
        link := s.link.tail
        trace := .respond h (.dataStatus v code) :: s.trace
        rxDraws := s.rxDraws + 1 }) ∧
  (s.Answering → ∀ x0 x1, ∃ v, exec (.getData x0 x1) s = .next
    { s with
      trace := .respond (encode (.getData x0 x1)) (.dataStatus v code) :: s.trace
      rxDraws := s.rxDraws + 1 })

/-! ### The invariant of the states between steps -/

/-- The states between steps: the fixture's array is canonical; DSP is never left inside a command; before the first
IDLE it stands at the start of the initialisation; in IDLE the mailbox is empty; in COMMAND_RECEIVED it holds a
command, a WRITE if a data phase is owed; the pins are as R40 says. -/
structure State.Inv (s : State) : Prop where
  memory : memWf s.fmem = true
  between : s.dstate ≠ .executing
  begin : s.dstate = .initialising →
    s.pos = initProgram ∧ s.cmd = none ∧ s.dataPending = 0 ∧ s.bank = 0#4 ∧ s.addrHi = 0#8 ∧ s.addrLo = 0#8 ∧
      s.ctrl = 0x03#8
  position : s.dstate ≠ .initialising → s.pos = []
  idle : s.dstate = .idle → s.cmd = none ∧ s.dataPending = 0
  pending : s.dstate = .commandReceived →
    ∃ i, s.toDevice.mail = some i ∧ i.isQuery = false ∧ (s.dataPending ≠ 0 → i.isWrite = true)
  pins : s.dstate = .idle ∨ s.dstate = .commandReceived → s.toDevice.Coherent

end Sys2Proof.Machine
end

