-- ==== Sys2Proof/Certificates/Slice0/Obligations.lean ====
section
/-! DEFINITION. The statements for the provers. A statement about a command holds for every machine parameter, every
operand and every environment answer it does not name. -/

open Sys2Proof Sys2Proof.Machine

/-! ### Encoding -/

/-- R80 to R86: every bit of an instruction's encoding is read back, for every instruction and every operand. -/
def Obligations.DecodeOfEncode : Prop :=
  ∀ i : Instr, i.wellFormed = true → decode (encode i) = .ok i

/-- R84, R87: a header has one meaning, and no bit of it is dropped: what it decodes to encodes back to it. -/
def Obligations.EncodeOfDecode : Prop :=
  ∀ (h : Header) (i : Instr), decode h = .ok i → i.wellFormed = true ∧ encode i = h

/-- R84: the four classes of a header, in the rule's order, and what RX does with the first. -/
def Obligations.HeaderClasses : Prop :=
  ∀ (h : Header) (s : State),
    ((∀ o, opc o ≠ h.nib) → decode h = .unsupported ∧ s.rxHeader h = s.respond h .notSupported) ∧
    (h.nib = opc .read →
      (h.sub = 0#4 → ∃ a b xh xm, decode h = .ok (.readArm a b xh xm)) ∧
      (h.sub = 1#4 → ∃ x0 x1, decode h = .ok (.readFetch x0 x1)) ∧
      (h.sub ≠ 0#4 → h.sub ≠ 1#4 → decode h = .refused .readSub ∧ s.rxHeader h = s.refuse)) ∧
    ((∃ o, o ≠ .read ∧ opc o = h.nib) → h.sub ≠ 0#4 →
      decode h = .refused .subNonzero ∧ s.rxHeader h = s.refuse) ∧
    (h.nib = opc .setup → h.sub = 0#4 → (∀ m, modeCode m ≠ hiByte h.p1) →
      decode h = .refused .setupMode ∧ s.rxHeader h = s.refuse) ∧
    (∀ o, o ≠ .read → o ≠ .setup → opc o = h.nib → h.sub = 0#4 →
      ∃ i, decode h = .ok i ∧ (encode i).nib = opc o) ∧
    (∀ m, h.nib = opc .setup → h.sub = 0#4 → modeCode m = hiByte h.p1 →
      ∃ i, decode h = .ok i ∧ (encode i).nib = opc .setup ∧ hiByte (encode i).p1 = modeCode m)

/-- V-EN1, V-EN2 and V-EN4 (95_test_vectors.md): words written out from the spec decode to what they stand for. -/
def Obligations.WordsOfTheSpec : Prop :=
  decodeTableWord 40 0x10000B0000 = some (asmSetControl 0x0B#8) ∧
  decodeTableWord 40 0x2023450010 = some (asmSetAddress 0x12345#20) ∧
  decodeTableWord 40 0x5000000110 = some (asmWriteFixed 0x10000#20) ∧
  decodeTableWord 40 0x50ABCD0050 = some (asmWrite 0x5ABCD#20) ∧
  decodeTableWord 40 0x6000400003 = some (asmReadArm .at0 0x30040#20) ∧
  decodeTableWord 40 0x7000000501 = some (asmSetup .at0 .verifyProt 0x10000#20) ∧
  decodeTableWord 40 0x6200000000 = none ∧
  decodeTableWord 40 0x1100030000 = none ∧
  decodeTableWord 40 0x7000000800 = none ∧
  decodeTableWord 40 0xF3FFFFFFFF = none

/-- R87: the bits R85 does not name, the unused bank nibble of READ_ARM and of every SETUP mode among them, change
nothing but the acknowledged header: two requests equal but for them leave the same device and show the same bus. Only
the mailbox that BOOTLOADER leaves behind holds its whole header (R142). A query's answer does not depend on them. -/
def Obligations.IgnoredBitsHaveNoEffect : Prop :=
  ∀ (s : State) (i j : Instr), clearIgnored s.params i = clearIgnored s.params j →
    (s.Takes i →
      ∃ t u, exec i s = .next t ∧ exec j s = .next u ∧ t.busEvents = u.busEvents ∧
        t.toDevice = { u.toDevice with cmd := t.cmd } ∧ (t.dstate ≠ .terminated → t.cmd = u.cmd)) ∧
    (i.isQuery = true → s.Answering →
      ∃ x n, exec i s = .next { s with trace := .respond (encode i) x :: s.trace, rxDraws := n } ∧
        exec j s = .next { s with trace := .respond (encode j) x :: s.trace, rxDraws := n })

/-! ### The bus driver: line level and cycle level (R7, R108, R109) -/

/-- R105 run line write by line write is R108's one step, events and all, from every device. -/
def Obligations.ControlShiftByLines : Prop := ∀ d : Device, d.shiftControlByLines = d.shiftControl

/-- R106 run line write by line write is R109's one step, the misuse row included. -/
def Obligations.FullAddressShiftByLines : Prop := ∀ d : Device, d.shiftFullAddressByLines = d.shiftFullAddress

/-- R107 run line write by line write is R109's one step, the misuse row included. -/
def Obligations.LowAddressShiftByLines : Prop := ∀ d : Device, d.shiftLowAddressByLines = d.shiftLowAddress

/-- R101: a rising edge of CCLK moves C.S up by one bit and takes CDAT into bit 0; no other line write alters C.S. -/
def Obligations.ControlEdge : Prop :=
  ∀ d : Device,
    (d.lines.cclk = false →
      (d.setLine .cclk true).1.c.Q = d.c.Q ∧
      (d.setLine .cclk true).1.c.S.getLsbD 0 = d.lines.cdat ∧
      ∀ n, n < 7 → (d.setLine .cclk true).1.c.S.getLsbD (n + 1) = d.c.S.getLsbD n) ∧
    (∀ (l : Line) (b : Bool), ¬(l = .cclk ∧ b = true ∧ d.lines.cclk = false) → (d.setLine l b).1.c.S = d.c.S)

/-- R102: a rising edge of ACLK moves A1.S up by one bit and takes ADAT into bit 0; A2.S takes A1's outgoing bit where
the latched ALS output is deasserted, and keeps its value where it is asserted. -/
def Obligations.AddressEdge : Prop :=
  ∀ d : Device, d.lines.aclk = false →
    (d.setLine .aclk true).1.a1.S.getLsbD 0 = d.lines.adat ∧
    (∀ n, n < 7 → (d.setLine .aclk true).1.a1.S.getLsbD (n + 1) = d.a1.S.getLsbD n) ∧
    (isAsserted .als d.c.Q = true → (d.setLine .aclk true).1.a2.S = d.a2.S) ∧
    (isAsserted .als d.c.Q = false →
      (d.setLine .aclk true).1.a2.S.getLsbD 0 = d.a1.S.getLsbD 7 ∧
      ∀ n, n < 7 → (d.setLine .aclk true).1.a2.S.getLsbD (n + 1) = d.a2.S.getLsbD n)

/-- R103: a rising edge of LATCH loads the three output stages together; a falling edge does nothing; no other line
write changes an output stage. -/
def Obligations.LatchEdge : Prop :=
  ∀ d : Device,
    (d.lines.latch = false →
      (d.setLine .latch true).1.c = { S := d.c.S, Q := d.c.S } ∧
      (d.setLine .latch true).1.a1 = { S := d.a1.S, Q := d.a1.S } ∧
      (d.setLine .latch true).1.a2 = { S := d.a2.S, Q := d.a2.S }) ∧
    ((d.setLine .latch false).1 = { d with lines := { d.lines with latch := false } }) ∧
    (∀ (l : Line) (b : Bool), ¬(l = .latch ∧ b = true ∧ d.lines.latch = false) →
      (d.setLine l b).1.c.Q = d.c.Q ∧ (d.setLine l b).1.a1.Q = d.a1.Q ∧ (d.setLine l b).1.a2.Q = d.a2.Q)

/-- R117: a latch makes a write event exactly where the write-enable output goes from asserted to deasserted, at the
pins' address before the edge, with what the port drives; with the port an input the data is a draw. That
the event stands after the `Set` of the edge is the model's choice, log 26. -/
def Obligations.LatchWriteEvent : Prop :=
  ∀ d : Device, d.lines.latch = false →
    (isAsserted .we d.c.Q = true ∧ isAsserted .we d.c.S = false →
      ∃ v, (d.setLine .latch true).2 = [.set .latch true, .busWrite (addr20 (bankPins d.c.Q) (d.a2.Q ++ d.a1.Q)) v] ∧
        (∀ b, d.portDir = .output → d.portOut = .byte b → v = b) ∧
        (d.portDir = .input → v = Config.drawByte d.draws)) ∧
    (¬(isAsserted .we d.c.Q = true ∧ isAsserted .we d.c.S = false) →
      (d.setLine .latch true).2 = [.set .latch true])

/-! ### Register requests -/

/-- R137: SET_CONTROL stores all eight bits and shifts them out; the chain, the lines and a write event, if the new
value raises write-enable, are what the shift makes; nothing else changes, and no other event but 26 line writes
shows. -/
def Obligations.SetControlResult : Prop :=
  ∀ (s : State) (c x0 : Byte) (x1 : Half), s.Ready →
    ∃ t, exec (.setControl c x0 x1) s = .next t ∧
      t.toDevice = Device.complete
        { s.toDevice with
          ctrl := c
          c := { S := ctrlByte c s.bank, Q := ctrlByte c s.bank }
          a1 := { S := s.a1.S, Q := s.a1.S }
          a2 := { S := s.a2.S, Q := s.a2.S }
          lines := { s.lines with cclk := true, cdat := (ctrlByte c s.bank).getLsbD 0, latch := true }
          fstate := s.fstateAfter (s.riseWrites c)
          fmem := s.fmemAfter (s.riseWrites c)
          draws := s.riseDraws c } ∧
      s.Shows t { events := riseEvents (s.riseWrites c), lineWrites := 26 }

/-- R138: SET_ADDRESS loads the bank and the address, deasserts ALS, and shows them on the pins; nothing else
changes, and no event but 76 line writes shows. -/
def Obligations.SetAddressResult : Prop :=
  ∀ (s : State) (a : Half) (b : Nibble) (xh : Byte) (xl : Nibble), s.Ready → s.weShown →
    ∃ t, exec (.setAddress a b xh xl) s = .next t ∧
      t.toDevice = Device.complete (Device.shown
        { s.toDevice with
          bank := b
          addrHi := hiByte a
          addrLo := loByte a
          ctrl := writeFlag .als false s.ctrl }) ∧
      t.pinAddr = b ++ a ∧
      s.Shows t { lineWrites := 76 }

/-- R139: SET_DATA writes `data`, turns the port to output and drives it; no pin, no other register and no byte of the
flash changes. -/
def Obligations.SetDataResult : Prop :=
  ∀ (s : State) (d x0 : Byte) (x1 : Half), s.Ready →
    ∃ t, exec (.setData d x0 x1) s = .next t ∧
      t.toDevice = Device.complete { s.toDevice with data := .byte d, portDir := .output, portOut := .byte d } ∧
      t.busEvents = s.busEvents ++ [.dir .output, .drive d]

/-- R140: GET_DATA is answered at once, in IDLE, COMMAND_RECEIVED or EXECUTING, with data and the status code; an
unwritten data byte is a draw; nothing but the trace and the draws used changes. -/
def Obligations.GetDataAnswer : Prop :=
  ∀ (s : State) (x0 x1 : Half), s.Answering →
    ∃ v, (∀ b, s.data = .byte b → v = b) ∧ (s.data = .unwritten → v = Config.rxDrawByte s.rxDraws) ∧
      exec (.getData x0 x1) s = .next
        { s with
          trace := .respond (encode (.getData x0 x1)) (.dataStatus v (statusCode s.params s.status)) :: s.trace
          rxDraws := s.rxDraws + 1 }

/-- R141: READ_FETCH is answered at once with the 64 bytes of the buffer, buf[0] first, an unwritten one a draw of its
own; the buffer and every other register keep their values. -/
def Obligations.ReadFetchAnswer : Prop :=
  ∀ (s : State) (x0 x1 : Half), s.Answering →
    ∃ bytes : Vector Byte 64,
      (∀ (n : Fin 64) (b : Byte), s.buf.get n = .byte b → bytes.get n = b) ∧
      (∀ n : Fin 64, s.buf.get n = .unwritten → bytes.get n = Config.rxDrawByte (s.rxDraws + n.val)) ∧
      exec (.readFetch x0 x1) s = .next
        { s with
          trace := .respond (encode (.readFetch x0 x1)) (.buffer bytes.toList) :: s.trace
          rxDraws := s.rxDraws + 64 }

/-- R142: BOOTLOADER ends in TERMINATED with every register as it was and the mailbox not cleared; from there no
request and no step has a move. -/
def Obligations.BootloaderTerminates : Prop :=
  ∀ (s : State) (x0 x1 : Half), s.Ready →
    ∃ t, exec (.bootloader x0 x1) s = .next t ∧
      t.toDevice =
        { s.toDevice with
          dstate := .terminated
          cmd := some { op := 0x80#8, p0 := x0, p1 := x1, d := loByte x0 }
          pos := [] } ∧
      s.Shows t {} ∧
      step t = .fault .terminated ∧ ∀ j, exec j t = .fault .terminated

/-! ### WRITE -/

/-- R160 to R164, the ready-polled variant, whatever the readiness line answers: with `k` polls that succeed, the next
one running out of samples unless `k` is 193, the events are, in order, each poll's samples and then the write cycles
that follow it, each cycle with its direction and driven byte; the status says which it was, and the flash, the buffer,
the pins and the registers are as the writes leave them: where any write was made, the address registers and the output
latch hold the last one's address and byte (R226). -/
def Obligations.WriteReadyPolledResult : Prop :=
  ∀ (s : State) (i : Instr) (a : Half) (b : Nibble) (delays : List Nat) (segs : List (List Byte))
    (rest : List Arrival) (bytes : Vector Byte 64),
    AsksReadyPolled s.params i a b → s.ReadyWrite delays segs rest → segs.flatten = bytes.toList → s.weShown →
    ∃ t k, ∃ misses : List Nat, exec i s = .next t ∧
      k ≤ 193 ∧ misses.length = k ∧ (∀ n ∈ misses, n < s.params.readySpinBound) ∧
      s.Shows t
        { events := polledCycles misses (chunkParts b a bytes) ++
            (if k = 193 then [] else List.replicate s.params.readySpinBound (.sampleReady false))
          lineWrites := 128 * ((chunkWrites b a bytes).take (4 * (k / 3) + k % 3)).length } ∧
      t.status = (if k = 193 then .initialised else .programFailed) ∧
      t.dstate = .idle ∧ t.cmd = none ∧ t.dataPending = 0 ∧ t.pos = [] ∧
      t.bank = b ∧ t.buf = bytes.map .byte ∧ t.data = s.data ∧ t.params = s.params ∧ t.flash = s.flash ∧
      t.localV = s.localV ∧ t.localR = s.localR ∧
      t.fstate = s.fstateAfter ((chunkWrites b a bytes).take (4 * (k / 3) + k % 3)) ∧
      t.fmem = s.fmemAfter ((chunkWrites b a bytes).take (4 * (k / 3) + k % 3)) ∧
      (k = 0 → t.addrHi = s.addrHi ∧ t.addrLo = s.addrLo ∧ t.ctrl = s.ctrl ∧ t.portDir = s.portDir ∧
        t.portOut = s.portOut ∧ t.c = s.c ∧ t.a1 = s.a1 ∧ t.a2 = s.a2 ∧ t.lines = s.lines) ∧
      (k ≠ 0 → t.ctrl = writeCtrl s.ctrl ∧ t.portDir = .output ∧ t.toDevice = t.toDevice.shown ∧
        ∃ w, ((chunkWrites b a bytes).take (4 * (k / 3) + k % 3)).getLast? = some w ∧
          t.addrHi = hiByte (mainOf w.1) ∧ t.addrLo = loByte (mainOf w.1) ∧ t.portOut = .byte w.2) ∧
      (k = 193 → t.addrHi = hiByte a ∧ t.addrLo = loByte a + 63#8 ∧ t.portOut = .byte (bytes.get 63))

/-- R161 and R164: a readiness line that always answers true makes the ready-polled WRITE succeed, with 193 samples and
256 write cycles in the order R160 gives, one sample before each unlock write and one at the end, and 32768 line writes;
the final registers are R164's. -/
def Obligations.WriteReadyPolledSucceeds : Prop :=
  ∀ (s : State) (i : Instr) (a : Half) (b : Nibble) (delays : List Nat) (segs : List (List Byte))
    (rest : List Arrival) (bytes : Vector Byte 64),
    AsksReadyPolled s.params i a b → s.ReadyWrite delays segs rest → segs.flatten = bytes.toList → s.weShown →
    s.ready = .fake [] true → 0 < s.params.readySpinBound →
    ∃ t, exec i s = .next t ∧
      t.toDevice = Device.complete (Device.shown
        { s.toDevice with
          bank := b
          addrHi := hiByte a
          addrLo := loByte a + 63#8
          ctrl := writeCtrl s.ctrl
          portDir := .output
          portOut := .byte (bytes.get 63)
          buf := bytes.map .byte
          dataPending := 0
          status := .initialised
          fstate := s.fstateAfter (chunkWrites b a bytes)
          fmem := s.fmemAfter (chunkWrites b a bytes) }) ∧
      s.Shows t
        { events := polledCycles (List.replicate 193 0) (chunkParts b a bytes), lineWrites := 32768 }

/-- R162 and R164: the fixed-delay variant samples no readiness, cannot fail, and ends with status INITIALISED; its
events are, for each byte in order, four write cycles, the target write the last of them, and then one fixed wait. -/
def Obligations.WriteFixedDelayResult : Prop :=
  ∀ (s : State) (i : Instr) (a : Half) (b : Nibble) (delays : List Nat) (segs : List (List Byte))
    (rest : List Arrival) (bytes : Vector Byte 64),
    AsksFixedDelay s.params i a b → s.ReadyWrite delays segs rest → segs.flatten = bytes.toList → s.weShown →
    ∃ t, exec i s = .next t ∧
      t.toDevice = Device.complete (Device.shown
        { s.toDevice with
          bank := b
          addrHi := hiByte a
          addrLo := loByte a + 63#8
          ctrl := writeCtrl s.ctrl
          portDir := .output
          portOut := .byte (bytes.get 63)
          buf := bytes.map .byte
          dataPending := 0
          status := .initialised
          fstate := s.fstateAfter (chunkWrites b a bytes)
          fmem := s.fmemAfter (chunkWrites b a bytes) }) ∧
      s.Shows t
        { events := (List.finRange 64).flatMap fun k =>
            writeCycles (programWrites b (chunkAddr a k.val) (bytes.get k)) ++ [.wait .nop s.params.fixedDelayCycles]
          lineWrites := 32768 }

/-- R76 and §8's bulk write: under the fixture in READ, a WRITE that succeeds leaves at the 64 addresses of its chunk
the AND of what stood there and the byte sent, so the byte itself where the flash was erased, and every other byte of
the flash as it was. -/
def Obligations.WriteRoundTrip : Prop :=
  ∀ (s : State) (i : Instr) (a : Half) (b : Nibble) (delays : List Nat) (segs : List (List Byte))
    (rest : List Arrival) (bytes : Vector Byte 64),
    (AsksFixedDelay s.params i a b ∨
      (AsksReadyPolled s.params i a b ∧ s.ready = .fake [] true ∧ 0 < s.params.readySpinBound)) →
    s.ReadyWrite delays segs rest → segs.flatten = bytes.toList → s.weShown → s.fstate = .read →
    memWf s.fmem = true →
    ∃ t, exec i s = .next t ∧ t.status = .initialised ∧ t.fstate = .read ∧ memWf t.fmem = true ∧
      (∀ n : Fin 64, memRead t.fmem (addr20 b (chunkAddr a n.val)).toNat =
        memRead s.fmem (addr20 b (chunkAddr a n.val)).toNat &&& bytes.get n) ∧
      (∀ n : Fin 64, memRead s.fmem (addr20 b (chunkAddr a n.val)).toNat = 0xFF#8 →
        memRead t.fmem (addr20 b (chunkAddr a n.val)).toNat = bytes.get n) ∧
      (∀ x : Nat, (∀ n : Fin 64, x ≠ (addr20 b (chunkAddr a n.val)).toNat) → memRead t.fmem x = memRead s.fmem x)

/-- R163 and R273: the chunk's addresses keep the bank and the high byte, are 64 different ones, and are consecutive
exactly while the low byte does not pass 0xFF, where they wrap inside the page. -/
def Obligations.ChunkAddresses : Prop :=
  ∀ (b : Nibble) (a : Half),
    (∀ n : Fin 64, bankOf (addr20 b (chunkAddr a n.val)) = b ∧ hiByte (chunkAddr a n.val) = hiByte a ∧
      (loByte (chunkAddr a n.val)).toNat = ((loByte a).toNat + n.val) % 256) ∧
    (∀ m n : Fin 64, chunkAddr a m.val = chunkAddr a n.val → m = n) ∧
    (∀ n : Fin 64, (loByte a).toNat + n.val < 256 → (addr20 b (chunkAddr a n.val)).toNat = (addr20 b a).toNat + n.val)

/-! ### READ sub-0 -/

/-- R165: READ_ARM fills the buffer with 64 samples, one at each of the chunk's addresses in order, and leaves the
registers R165 gives. Its events are the port turned to input, once, then, where write-enable stood asserted on the
pins, the write event of its fall (R280), then the 64 timed samples. `data` and the flash's other bytes keep their
values. That a read event stands after its sample is the model's choice, log 26. -/
def Obligations.ReadArmResult : Prop :=
  ∀ (s : State) (a : Half) (n : Nibble) (xh : Byte) (xm : Nibble), s.Ready → s.weShown →
    ∃ t, ∃ bytes : Vector Byte 64, exec (.readArm a n xh xm) s = .next t ∧
      t.toDevice = Device.complete (Device.shown
        { s.toDevice with
          bank := rsBank s.params n xm
          addrHi := hiByte a
          addrLo := loByte a + 63#8
          ctrl := writeFlag .als true (readCtrl s.ctrl)
          portDir := .input
          buf := bytes.map .byte
          localV := bytes.get 0
          flash := t.flash
          fstate := s.fstateAfter s.strayWrites
          fmem := s.fmemAfter s.strayWrites
          draws := t.draws }) ∧
      s.Shows t
        { events := .dir .input :: (riseEvents s.strayWrites ++ (List.finRange 64).flatMap fun k =>
            timedSample s.params (addr20 (rsBank s.params n xm) (chunkAddr a k.val)) (bytes.get k))
          lineWrites := 1740 }

/-- R73 and R165: with the fixture answering, the buffer holds what the fixture's array holds at the chunk's addresses,
or its identification bytes where it was left in ID mode (R277). -/
def Obligations.ReadArmFromFixture : Prop :=
  ∀ (s : State) (a : Half) (n : Nibble) (xh : Byte) (xm : Nibble), s.Ready → s.weShown → s.flash = .fixture →
    ∃ t, exec (.readArm a n xh xm) s = .next t ∧
      ∀ k : Fin 64, t.buf.get k = .byte
        (if s.fstateAfter s.strayWrites = .idMode then fixtureId (addr20 (rsBank s.params n xm) (chunkAddr a k.val))
        else memRead (s.fmemAfter s.strayWrites) (addr20 (rsBank s.params n xm) (chunkAddr a k.val)).toNat)

/-! ### SETUP -/

/-- R192: probe-ready sends the preamble's write cycle, then samples readiness once, and puts 1 or 0 into `data`. -/
def Obligations.ProbeReadyResult : Prop :=
  ∀ (s : State) (a : Half) (n xm : Nibble), s.Ready → s.weShown →
    ∃ t r, exec (.setupProbeReady a n xm) s = .next t ∧
      t.toDevice = Device.complete (Device.shown
        { s.toDevice with
          bank := rsBank s.params n xm
          addrHi := 0x00#8
          addrLo := 0x0F#8
          ctrl := writeCtrl s.ctrl
          data := .byte (if r then 0x01#8 else 0x00#8)
          portDir := .output
          portOut := .byte 0xF0#8
          localR := r
          ready := t.ready
          fstate := s.fstateAfter (preambleWrites (rsBank s.params n xm))
          fmem := s.fmemAfter (preambleWrites (rsBank s.params n xm))
          draws := t.draws }) ∧
      (∀ v, s.ready = .fake [] v → r = v) ∧
      s.Shows t
        { events := writeCycles (preambleWrites (rsBank s.params n xm)) ++ [.sampleReady r], lineWrites := 128 }

/-- R193: begin-read sends the preamble's write cycle, turns the port to input, and leaves output-enable asserted at
`bank : a`, `data` as it was. -/
def Obligations.BeginReadResult : Prop :=
  ∀ (s : State) (a : Half) (n xm : Nibble), s.Ready → s.weShown →
    ∃ t, exec (.setupBeginRead a n xm) s = .next t ∧
      t.toDevice = Device.complete (Device.shown
        { s.toDevice with
          bank := rsBank s.params n xm
          addrHi := hiByte a
          addrLo := loByte a
          ctrl := readCtrl s.ctrl
          portDir := .input
          portOut := .byte 0xF0#8
          fstate := s.fstateAfter (preambleWrites (rsBank s.params n xm))
          fmem := s.fmemAfter (preambleWrites (rsBank s.params n xm)) }) ∧
      s.Shows t { events := writeCycles (preambleWrites (rsBank s.params n xm)) ++ [.dir .input], lineWrites := 204 }

/-- R194: begin-write sends the preamble's write cycle, turns the port to output once more (R111), and leaves
write-enable asserted at `bank : a`, the port driving 0xF0; its latch makes no write event. -/
def Obligations.BeginWriteResult : Prop :=
  ∀ (s : State) (a : Half) (n xm : Nibble), s.Ready → s.weShown →
    ∃ t, exec (.setupBeginWrite a n xm) s = .next t ∧
      t.toDevice = Device.complete (Device.shown
        { s.toDevice with
          bank := rsBank s.params n xm
          addrHi := hiByte a
          addrLo := loByte a
          ctrl := writeFlag .we true (writeCtrl s.ctrl)
          portDir := .output
          portOut := .byte 0xF0#8
          fstate := s.fstateAfter (preambleWrites (rsBank s.params n xm))
          fmem := s.fmemAfter (preambleWrites (rsBank s.params n xm)) }) ∧
      s.Shows t { events := writeCycles (preambleWrites (rsBank s.params n xm)) ++ [.dir .output], lineWrites := 230 }

/-- R168, R195 and R196: the identification modes send the preamble's and the ID entry's write cycles, then read offset
0 or 2 of the bank once, and put the byte read into `data`. That the read event stands after its sample is the model's
choice, log 26. -/
def Obligations.IdentifyResult : Prop :=
  ∀ (s : State) (i : Instr) (b : Nibble) (off : Half), AsksId s.params i b off → s.Ready → s.weShown →
    ∃ t v, exec i s = .next t ∧
      t.toDevice = Device.complete (Device.shown
        { s.toDevice with
          bank := b
          addrHi := hiByte off
          addrLo := loByte off
          ctrl := readCtrl s.ctrl
          data := .byte v
          portDir := .input
          portOut := .byte 0x90#8
          localV := v
          flash := t.flash
          fstate := s.fstateAfter (preambleWrites b ++ idWrites b)
          fmem := s.fmemAfter (preambleWrites b ++ idWrites b)
          draws := t.draws }) ∧
      s.Shows t
        { events := writeCycles (preambleWrites b ++ idWrites b) ++ readCycle s.params (addr20 b off) v
          lineWrites := 588 }

/-- R197: verify-protection enters ID mode in the bank given, then reads the 20-bit sum of the sector address and 4,
whose top nibble becomes the bank, and puts the byte read into `data`. That the read event stands after its sample is
the model's choice, log 26. -/
def Obligations.VerifyProtectionResult : Prop :=
  ∀ (s : State) (a : Half) (n xm : Nibble) (b : Nibble) (q : Addr20), s.Ready → s.weShown →
    b = rsBank s.params n xm → q.toNat = ((addr20 b a).toNat + 4) % 0x100000 →
    ∃ t v, exec (.setupVerifyProt a n xm) s = .next t ∧
      t.toDevice = Device.complete (Device.shown
        { s.toDevice with
          bank := bankOf q
          addrHi := hiByte (mainOf q)
          addrLo := loByte (mainOf q)
          ctrl := readCtrl s.ctrl
          data := .byte v
          portDir := .input
          portOut := .byte 0x90#8
          localV := v
          flash := t.flash
          fstate := s.fstateAfter (preambleWrites b ++ idWrites b)
          fmem := s.fmemAfter (preambleWrites b ++ idWrites b)
          draws := t.draws }) ∧
      s.Shows t
        { events := writeCycles (preambleWrites b ++ idWrites b) ++ readCycle s.params q v
          lineWrites := 588 }

/-- R72, R73, R191: with the fixture answering, the identification modes put its two constants into `data`, whatever
state an earlier command left the fixture in, and leave it in ID mode (R277). -/
def Obligations.IdentifyFixture : Prop :=
  ∀ (s : State) (i : Instr) (b : Nibble) (off : Half), AsksId s.params i b off → s.Ready → s.weShown →
    s.flash = .fixture →
    ∃ t, exec i s = .next t ∧ t.fstate = .idMode ∧
      t.data = .byte (if off = 0x0000#16 then fixtureMfrId else fixtureDevId) ∧
      (s.fstate ≠ .p3 → t.fmem = s.fmem)

/-- R166, R167, R198 and R199, whatever the flash answers: the preamble's and the erase command's write cycles, then
polls of `b : a`, each a wait and then a read cycle, until the first 0xFF or the last retry; the status is INITIALISED
exactly where 0xFF was read, else ERASE_FAILED. That a read event stands after its sample is the model's choice,
log 26. -/
def Obligations.EraseResult : Prop :=
  ∀ (s : State) (i : Instr) (a : Half) (b : Nibble) (f : Half) (fd : Byte), AsksErase s.params i a b f fd →
    s.Ready → s.weShown →
    ∃ t, ∃ vs : List Byte, exec i s = .next t ∧
      vs.length ≤ s.params.erasePollRetries ∧
      (∀ v ∈ vs.dropLast, v ≠ 0xFF#8) ∧
      (vs.getLast? = some 0xFF#8 → t.status = .initialised) ∧
      (vs.getLast? ≠ some 0xFF#8 → t.status = .eraseFailed ∧ vs.length = s.params.erasePollRetries) ∧
      t.toDevice = Device.complete (Device.shown
        { s.toDevice with
          bank := b
          addrHi := hiByte (if vs = [] then f else a)
          addrLo := loByte (if vs = [] then f else a)
          ctrl := if vs = [] then writeCtrl s.ctrl else readCtrl s.ctrl
          portDir := if vs = [] then .output else .input
          portOut := .byte fd
          status := t.status
          localV := vs.getLast?.getD s.localV
          flash := t.flash
          fstate := s.fstateAfter (preambleWrites b ++ eraseWrites s.params b f fd)
          fmem := s.fmemAfter (preambleWrites b ++ eraseWrites s.params b f fd)
          draws := t.draws }) ∧
      s.Shows t
        { events := writeCycles (preambleWrites b ++ eraseWrites s.params b f fd) ++
            vs.flatMap fun v => .wait .erasePoll s.params.erasePollDelay :: readCycle s.params (addr20 b a) v
          lineWrites := 128 * (1 + (eraseWrites s.params b f fd).length) + 76 * vs.length }

/-- R72 and §8's erase convergence: with the fixture answering, an erase-chip leaves every byte 0xFF, an erase-sector
the bytes of the sector of its address 0xFF and every other byte as it was; both report INITIALISED. -/
def Obligations.EraseFixture : Prop :=
  ∀ (s : State) (a : Half) (n xm : Nibble), s.Ready → s.weShown → s.flash = .fixture →
    s.params.erase80Addr = 0x0AAA#16 → 0 < s.params.erasePollRetries →
    (∃ t, exec (.setupEraseChip a n xm) s = .next t ∧ t.status = .initialised ∧ ∀ x, memRead t.fmem x = 0xFF#8) ∧
    (∃ t, exec (.setupEraseSector a n xm) s = .next t ∧ t.status = .initialised ∧
      ∀ x, memRead t.fmem x =
        if x / 0x10000 = (rsBank s.params n xm).toNat then 0xFF#8 else memRead s.fmem x)

/-! ### The dispatcher -/

/-- R131 and R89: a command sent alone, a WRITE with its data phase, is answered with its ack and nothing else; the
refusal mark stays, and nothing is left on the link. -/
def Obligations.CommandAcknowledged : Prop :=
  ∀ (s : State) (i : Instr), i.isQuery = false →
    (i.isWrite = false → s.Ready → s.link = [] → ∃ t, exec i s = .next t ∧ s.AckedAlone t i) ∧
    (∀ delays segs, i.isWrite = true → s.ReadyWrite delays segs [] → ∃ t, exec i s = .next t ∧ s.AckedAlone t i)

/-- R131: a command in IDLE goes into the mailbox whole; a WRITE waits in COMMAND_RECEIVED while its 64 data bytes are
owed, and nothing runs. -/
def Obligations.WriteWaitsForItsData : Prop :=
  ∀ (s : State) (i : Instr), i.isWrite = true → s.dstate = .idle → s.dataPending = 0 → s.link = [] →
    ∃ t, exec i s = .next t ∧
      t.toDevice =
        { s.toDevice with
          cmd := some
            { op := (encode i).op8, p0 := (encode i).p0, p1 := (encode i).p1, d := loByte (encode i).p0 }
          dstate := .commandReceived
          dataPending := 64 } ∧
      t.busEvents = s.busEvents ∧ step t = .next t

/-- R132 and R143: a command header while another command runs is acknowledged and dropped: no register, no pending
data and no link input changes. -/
def Obligations.CommandDroppedWhileExecuting : Prop :=
  ∀ (s : State) (i : Instr), i.isQuery = false → s.dstate = .executing → s.dataPending = 0 →
    exec i s = .next { s with trace := .respond (encode i) .ack :: s.trace }

/-- R132: a command header in COMMAND_RECEIVED is dropped or overwrites the mailbox, and nothing else. -/
def Obligations.OverlapRace : Prop :=
  ∀ (s : State) (i : Instr), i.isQuery = false → s.dstate = .commandReceived → s.dataPending = 0 →
    ∃ t, exec i s = .next t ∧ t.trace = .respond (encode i) .ack :: s.trace ∧ t.link = s.link ∧
      t.refused = s.refused ∧
      (t.toDevice = s.toDevice ∨
        t.toDevice =
          { s.toDevice with
            cmd := some
              { op := (encode i).op8, p0 := (encode i).p0, p1 := (encode i).p1, d := loByte (encode i).p0 }
            dataPending := if i.isWrite then 64 else 0 })

/-- R144 and R222: in IDLE, COMMAND_RECEIVED or EXECUTING a header with an unsupported opcode is answered with
NOT_SUPPORTED and changes no device state, and no GET_DATA after it can tell; R246: a refused one sets the mark and
nothing else. Before the first IDLE and in TERMINATED there is no RX step (R130, R142), and none on a header while data
is owed (HD1). As the next input of a machine in IDLE, a step does exactly that. -/
def Obligations.HeadersWithoutMeaning : Prop :=
  ∀ (s : State) (h : Header), s.Answering →
    (decode h = .unsupported →
      (s.rxHeader h).toDevice = s.toDevice ∧
      s.rxHeader h = { s with trace := .respond h .notSupported :: s.trace } ∧
      (s.rxHeader h).dataAnswer = s.dataAnswer) ∧
    (∀ r, decode h = .refused r → s.rxHeader h = { s with refused := true }) ∧
    (∀ (dl : Nat) (rest : List Arrival), s.dstate = .idle → s.link = { delay := dl, input := .header h } :: rest →
      (decode h = .unsupported →
        step s = .next { s with link := rest, trace := .respond h .notSupported :: s.trace }) ∧
      (∀ r, decode h = .refused r → step s = .next { s with link := rest, refused := true }))

/-- R130, R142 and R240: a header before the first IDLE, in TERMINATED, or in the middle of a data phase has no move;
the model stops by name, for every request. -/
def Obligations.HeaderWithoutMove : Prop :=
  ∀ (s : State) (i : Instr),
    (s.dstate = .initialising → exec i s = .fault .headerBeforeIdle) ∧
    (s.dstate = .terminated → exec i s = .fault .terminated) ∧
    (s.dstate ≠ .initialising → s.dstate ≠ .terminated → s.dataPending ≠ 0 →
      exec i s = .fault .headerInDataPhase)

/-- R133: the data phase fills the buffer in order whatever its segmentation, the bytes beyond the 64 owed are dropped,
and nothing else changes. -/
def Obligations.DataPhaseFillsBuffer : Prop :=
  ∀ (s : State) (segs : List (List Byte)) (bytes : Vector Byte 64) (extra : List Byte),
    s.dataPending = 64 → segs.flatten = bytes.toList ++ extra →
    segs.foldl State.rxData s = { s with buf := bytes.map .byte, dataPending := 0 }

/-- R133: a data segment that arrives when none is owed is dropped whole, in IDLE, in COMMAND_RECEIVED before the start
and while a command runs: it leaves the link, and nothing else changes. A step in IDLE, or in COMMAND_RECEIVED where the
segment is due, is just that. -/
def Obligations.StrayDataDropped : Prop :=
  ∀ (s : State) (seg : List Byte) (dl : Nat) (rest : List Arrival), s.dataPending = 0 →
    s.link = { delay := dl, input := .data seg } :: rest →
    s.rxStep = { s with link := rest } ∧
    (s.dstate = .idle → step s = .next { s with link := rest }) ∧
    (s.dstate = .commandReceived → dl = 0 → step s = .next { s with link := rest }) ∧
    (s.dstate = .executing → dl = 0 → s.tick = { s with link := rest })

/-- R143 and §8's single-outstanding command: what a running command makes of the device and of the bus does not depend
on what the host sends while it runs, nor on when. -/
def Obligations.RunningCommandUndisturbed : Prop :=
  ∀ (s1 s2 : State), s1.toDevice = s2.toDevice → s1.dstate = .executing → s1.dataPending = 0 →
    ∃ t1 t2 es, step s1 = .next t1 ∧ step s2 = .next t2 ∧ t1.toDevice = t2.toDevice ∧
      t1.busEvents = s1.busEvents ++ es ∧ t2.busEvents = s2.busEvents ++ es

/-- R135, R136 and R145: a running command comes to its end, wherever in its pseudocode it stands: IDLE with the mailbox
cleared, or TERMINATED. -/
def Obligations.CommandComesToRest : Prop :=
  ∀ s : State, s.dstate = .executing → s.dataPending = 0 →
    ∃ t, step s = .next t ∧ t.dataPending = 0 ∧
      ((t.dstate = .idle ∧ t.cmd = none ∧ t.pos = []) ∨ t.dstate = .terminated)

/-- R226: a failing command's last step writes the status, clears the mailbox and returns to IDLE; no other register,
pin or byte changes, and no event shows; the next command is accepted from there. -/
def Obligations.FailureReturnsToIdle : Prop :=
  ∀ (d : Device) (st : Status) (rest : List Stmt), d.dstate = .executing →
    (d.pos = .fail st :: rest ∨ (d.pos = .poll 0 :: rest ∧ st = .programFailed)) →
    d.dspStep = ({ d with status := st, cmd := none, dstate := .idle, pos := [] }, []) ∧
    ∀ (s : State) (i : Instr), s.toDevice = d.dspStep.1 → i.isQuery = false → s.rxInstr i = s.accept i

/-- R134, R140 and R274. The start step writes the in-progress status, of WRITE and of the erase modes alone, enters
EXECUTING and changes nothing else. From it on, at every atomic step of either agent while the command runs, the status
is the in-progress one and every GET_DATA is answered with its code. From a command's acceptance on, at every atomic
step up to its start, whatever the host sends, the status is the one of before and every GET_DATA is answered with its
code. The last two clauses say so of whole requests with one GET_DATA on the link. -/
def Obligations.StartStepStatus : Prop :=
  (∀ (d : Device) (i : Instr), d.mail = some i → d.dstate = .commandReceived → d.dataPending = 0 →
    d.dspStep =
      ({ d with
          dstate := .executing
          status := d.dspStep.1.status
          pos := program d.params i }, []) ∧
    (i.isWrite = true → d.dspStep.1.status = .programInProgress) ∧
    (IsErase i → d.dspStep.1.status = .eraseInProgress) ∧
    (i.isWrite = false → ¬IsErase i → d.dspStep.1.status = d.status)) ∧
  (∀ (s u : State) (i : Instr) (st : Status) (n : Nat), s.mail = some i → s.dstate = .commandReceived →
    s.dataPending = 0 → ReportsProgress i st →
    (∀ m, m ≤ n → (State.atomicStep^[m] s.dspMove).dstate = .executing) → u = State.atomicStep^[n] s.dspMove →
    u.status = st ∧ u.Answering ∧ u.AnswersStatus (statusCode s.params st)) ∧
  (∀ (s u : State) (i : Instr) (n : Nat), i.isQuery = false → s.dstate = .idle → s.dataPending = 0 →
    (∀ m, m ≤ n → (State.atomicStep^[m] (s.accept i)).dstate = .commandReceived) →
    u = State.atomicStep^[n] (s.accept i) →
    u.status = s.status ∧ u.AnswersStatus (statusCode s.params s.status)) ∧
  (∀ (s : State) (i : Instr) (x0 x1 : Half) (delays : List Nat) (segs : List (List Byte)), i.isWrite = true →
    s.ReadyWrite delays segs [{ delay := 1, input := .header (encode (.getData x0 x1)) }] →
    ∃ t v, exec i s = .next t ∧ t.answers = s.answers ++
      [.respond (encode i) .ack,
        .respond (encode (.getData x0 x1)) (.dataStatus v (statusCode s.params .programInProgress))]) ∧
  (∀ (s : State) (i : Instr) (x0 x1 : Half) (dl : Nat) (seg : List Byte), i.isWrite = true → s.dstate = .idle →
    s.dataPending = 0 → seg.length = 64 →
    s.link = [{ delay := dl, input := .data seg }, { delay := 0, input := .header (encode (.getData x0 x1)) }] →
    ∃ t v, exec i s = .next t ∧ t.answers = s.answers ++
      [.respond (encode i) .ack,
        .respond (encode (.getData x0 x1)) (.dataStatus v (statusCode s.params s.status))]) ∧
  (∀ (s : State) (i : Instr) (x0 x1 : Half), IsErase i → s.dstate = .idle → s.dataPending = 0 →
    (s.link = [{ delay := 1, input := .header (encode (.getData x0 x1)) }] →
      ∃ t v, exec i s = .next t ∧ t.answers = s.answers ++
        [.respond (encode i) .ack,
          .respond (encode (.getData x0 x1)) (.dataStatus v (statusCode s.params .eraseInProgress))]) ∧
    (s.link = [{ delay := 0, input := .header (encode (.getData x0 x1)) }] →
      ∃ t v, exec i s = .next t ∧ t.answers = s.answers ++
        [.respond (encode i) .ack,
          .respond (encode (.getData x0 x1)) (.dataStatus v (statusCode s.params s.status))]))

/-- R9 and R35: no two statuses have the same code, and INITIALISED's is 0, whatever the parameters. -/
def Obligations.StatusCodesDiffer : Prop :=
  ∀ p : Params, statusCode p .initialised = 0x00#8 ∧ ∀ s1 s2, statusCode p s1 = statusCode p s2 → s1 = s2

/-- R247, HOST_PACED: under it, at every atomic step of the run, a command's header is accepted and never dropped or
raced, a READ_FETCH comes when no command is held or running, and a completion poll is answered with a status its
command's start step has written or that stands after its end. -/
def Obligations.PacedHostIsServed : Prop :=
  ∀ (s : State) (polls : Nat → Prop) (n : Nat), s.Paced polls →
    ∀ (u : State) (h : Header) (i : Instr), u = State.atomicStep^[n] s → u.headerNow = some h → decode h = .ok i →
      (i.isQuery = false → u.dstate = .idle ∧ u.atomicStep = State.accept { u with link := u.link.tail } i) ∧
      (∀ x0 x1, i = .readFetch x0 x1 →
        u.dstate = .idle ∧ u.atomicStep = State.rxReadFetch { u with link := u.link.tail } h) ∧
      (∀ x0 x1, i = .getData x0 x1 → polls u.link.length →
        (u.dstate = .idle ∨ u.dstate = .executing) ∧
        u.atomicStep = State.rxGetData { u with link := u.link.tail } h)

/-! ### Whole-machine rules -/

/-- R35 and R223: only WRITE and the two erase modes write the status; through every other request a failure code
stays. -/
def Obligations.StatusWriters : Prop :=
  ∀ (s t : State) (i : Instr), s.Ready → i.isWrite = false → (∀ a n xm, i ≠ .setupEraseChip a n xm) →
    (∀ a n xm, i ≠ .setupEraseSector a n xm) → exec i s = .next t → t.status = s.status

/-- R26: only SET_DATA, probe-ready and the three identification modes write `data`. -/
def Obligations.DataWriters : Prop :=
  ∀ (s t : State) (i : Instr), s.Takes i → (∀ d x0 x1, i ≠ .setData d x0 x1) →
    (∀ a n xm, i ≠ .setupProbeReady a n xm) → (∀ a n xm, i ≠ .setupIdManuf a n xm) →
    (∀ a n xm, i ≠ .setupIdDevice a n xm) → (∀ a n xm, i ≠ .setupVerifyProt a n xm) →
    exec i s = .next t → t.data = s.data

/-- R23: only SET_CONTROL writes the LED flag, and the unnamed bits of the control register. -/
def Obligations.LedWriters : Prop :=
  ∀ (s t : State) (i : Instr), s.Takes i → (∀ c x0 x1, i ≠ .setControl c x0 x1) →
    exec i s = .next t → ∀ n, 3 ≤ n → n < 8 → t.ctrl.getLsbD n = s.ctrl.getLsbD n

/-- R42: no step writes a parameter. -/
def Obligations.ParametersNeverChange : Prop :=
  ∀ s t : State, step s = .next t → t.params = s.params

/-- R272 and R119: no request but SET_CONTROL and SET_DATA leaves the port driving while output-enable is asserted. -/
def Obligations.NoContentionFromCycles : Prop :=
  ∀ (s t : State) (i : Instr), s.Takes i → s.toDevice.Coherent → s.toDevice.contention = false →
    (∀ c x0 x1, i ≠ .setControl c x0 x1) → (∀ d x0 x1, i ≠ .setData d x0 x1) → exec i s = .next t →
    t.toDevice.contention = false

/-! ### Reset, steps, invariant -/

/-- R39 and R261, the column "value at power-on": the registers the spec gives a value, the slots unwritten, no
dispatcher state yet. The values are the spec's own choice (D40). -/
def Obligations.ResetState : Prop :=
  State.reset.bank = 0#4 ∧ State.reset.addrHi = 0#8 ∧ State.reset.addrLo = 0#8 ∧
  (∀ f, isAsserted f State.reset.ctrl = false) ∧ (∀ n, 4 ≤ n → State.reset.ctrl.getLsbD n = false) ∧
  State.reset.data = .unwritten ∧ State.reset.portDir = .input ∧ State.reset.portOut = .unwritten ∧
  (∀ n : Fin 64, State.reset.buf.get n = .unwritten) ∧ State.reset.cmd = none ∧ State.reset.dataPending = 0 ∧
  State.reset.dstate = .initialising ∧ State.reset.status = .initialised ∧ State.reset.refused = false ∧
  State.reset.trace = []

/-- R262 and R39, the second column: from any power-on levels, stages and latches, the first step reaches IDLE with the
state the column gives, and shows the direction and 76 line writes; it is four atomic steps, one for each statement of
R262, and DSP is in IDLE only after the last, `dstate <- IDLE`, which changes no other register and shows nothing. Where
the first latch makes a write event, its place after the `Set` is the model's choice, log 26. -/
def Obligations.InitialisationReachesIdle : Prop :=
  ∀ (s : State) (c a1 a2 : ShiftReg) (l : Lines),
    s = { State.reset with c := c, a1 := a1, a2 := a2, lines := l } →
    ∃ t, step s = .next t ∧ t.CleanStart ∧
      (∃ es, t.busEvents = .dir .input :: es ∧ lineWritesOf es = 76) ∧
      t = State.atomicStep^[4] s ∧ (∀ m, m < 4 → (State.atomicStep^[m] s).dstate = .initialising) ∧
      t = { State.atomicStep^[3] s with dstate := .idle, pos := [] }

/-- R130 and R134: in IDLE the next step runs the request at the head of the link, which leaves the link; a request is
run by `exec`, and with nothing on the link a step changes nothing. -/
def Obligations.StepRunsRequest : Prop :=
  ∀ s : State, s.dstate = .idle →
    (∀ (h : Header) (i : Instr) (dl : Nat) (rest : List Arrival), decode h = .ok i →
      s.link = { delay := dl, input := .header h } :: rest → step s = exec i { s with link := rest }) ∧
    (s.link = [] → step s = .next s)

/-- R136 and R228: a step that answers a next state is a number of atomic steps of the two agents, in the order the
link's schedule gives. -/
def Obligations.StepIsAtomicSteps : Prop :=
  ∀ s t : State, step s = .next t → ∃ n, t = State.atomicStep^[n] s

/-- A word of the opcode table placed by `withFetchWord` is what the very next step runs, from every state; the data
phase of a WRITE follows it on the link. -/
def Obligations.FetchedWordRuns : Prop :=
  ∀ (s : State) (w : Nat) (i : Instr), decodeTableWord 40 w = some i →
    ∃ u, step (s.withFetchWord 40 w) = exec i u ∧ u.dstate = .idle ∧ u.dataPending = 0 ∧
      u.link = if i.isWrite then [{ delay := 0, input := .data (List.replicate 64 0#8) }] else []

/-- The invariant holds at reset. -/
def Obligations.InvariantAtReset : Prop := State.reset.Inv

/-- R40 and the dispatcher's rules as one invariant that every step keeps: the fixture's array stays canonical, no
command is left half done, the mailbox is empty in IDLE and holds a command in COMMAND_RECEIVED, and in both the pins
show the registers. -/
def Obligations.StepKeepsInvariant : Prop :=
  ∀ s t : State, s.Inv → step s = .next t → t.Inv

/-- R40: where the invariant holds in IDLE, the pins' write-enable is the control register's, which the statements
about requests assume. -/
def Obligations.InvariantShowsWriteEnable : Prop :=
  ∀ s : State, s.Inv → s.dstate = .idle → s.toDevice.weShown
end

