-- ==== Sys2Proof/Laws/Flags.lean ====
section
/-! SUPPORT. The flags of a control byte: what `assert` and `deassert` make of each flag, and that CTRL_BYTE carries
each flag at its own position (R25). -/

namespace Sys2Proof.Machine

open Sys2Proof

/-- The bits of a byte with one bit written. -/
theorem getLsbD_writeBit (pos : Nat) (v : Bool) (b : Byte) (i : Nat) (hi : i < 8) (hp : pos < 8) :
    (writeBit pos v b).getLsbD i = if i = pos then v else b.getLsbD i := by
  have h1 : (1#8 <<< pos).getLsbD i = decide (i = pos) := by
    interval_cases pos <;> interval_cases i <;> rfl
  cases v <;> simp only [writeBit, if_true, Bool.false_eq_true, if_false, BitVec.getLsbD_or, BitVec.getLsbD_and,
    BitVec.getLsbD_not, h1, hi, decide_true, Bool.true_and]
  all_goals by_cases h : i = pos <;> simp [h]

theorem flagPos_lt (f : Flag) : flagPos f < 8 := by cases f <;> decide

theorem flagPos_inj {f g : Flag} (h : flagPos f = flagPos g) : f = g := by
  cases f <;> cases g <;> first | rfl | exact absurd h (by decide)

/-- Writing a flag sets that flag and no other. -/
@[simp] theorem isAsserted_writeFlag (f g : Flag) (on : Bool) (b : Byte) :
    isAsserted f (writeFlag g on b) = if f = g then on else isAsserted f b := by
  simp only [isAsserted, writeFlag, getLsbD_writeBit _ _ _ _ (flagPos_lt f) (flagPos_lt g)]
  by_cases h : f = g
  · subst h; cases on <;> cases flagLevel f <;> simp
  · have : flagPos f ≠ flagPos g := fun e => h (flagPos_inj e)
    simp [h, this]

/-- CTRL_BYTE carries the four flags at their own positions (R25). -/
@[simp] theorem isAsserted_ctrlByte (f : Flag) (c : Byte) (b : Nibble) : isAsserted f (ctrlByte c b) = isAsserted f c := by
  have key : ∀ n < 4, (ctrlByte c b).getLsbD n = c.getLsbD n := by
    intro n hn
    have h2 : (0x0F#8).getLsbD n = true := by interval_cases n <;> rfl
    have h1 : (b.setWidth 8 <<< 4).getLsbD n = false := by simp [BitVec.getLsbD_shiftLeft, hn]
    simp only [ctrlByte, BitVec.getLsbD_or, BitVec.getLsbD_and, h1, h2, Bool.and_true, Bool.false_or]
  unfold isAsserted
  rw [key _ (by cases f <;> decide)]

/-- CTRL_BYTE puts the bank on the bank pins (R25, R32). -/
@[simp] theorem bankPins_ctrlByte (c : Byte) (b : Nibble) : bankPins (ctrlByte c b) = b := by
  have h : c &&& 0x0F#8 < 16#8 := by
    rw [BitVec.lt_def, BitVec.toNat_and]
    exact Nat.lt_of_le_of_lt Nat.and_le_right (by decide)
  apply BitVec.eq_of_toNat_eq
  have hb := b.isLt
  have hm : (b.setWidth 8 <<< 4).toNat = b.toNat * 16 := by
    simp [BitVec.toNat_shiftLeft, BitVec.toNat_setWidth, Nat.shiftLeft_eq]; omega
  have ho : (b.setWidth 8 <<< 4 ||| c &&& 0x0F#8).toNat = b.toNat * 16 + (c &&& 0x0F#8).toNat := by
    rw [BitVec.toNat_or, hm]
    have := Nat.two_pow_add_eq_or_of_lt (i := 4) (b := (c &&& 0x0F#8).toNat) (by simpa [BitVec.lt_def] using h) b.toNat
    rw [Nat.mul_comm] at this
    exact this.symm
  simp only [bankPins, ctrlByte, BitVec.extractLsb'_toNat, ho, Nat.shiftRight_eq_div_pow]
  have : (c &&& 0x0F#8).toNat < 16 := by simpa [BitVec.lt_def] using h
  omega

@[simp] theorem writeFlag_same (f : Flag) (x y : Bool) (b : Byte) :
    writeFlag f x (writeFlag f y b) = writeFlag f x b := by
  apply BitVec.eq_of_getLsbD_eq
  intro i hi
  simp only [writeFlag, getLsbD_writeBit _ _ _ _ hi (flagPos_lt f)]
  split <;> rfl

/-- Writes of different flags commute. -/
theorem writeFlag_comm (f g : Flag) (x y : Bool) (b : Byte) (h : f ≠ g) :
    writeFlag f x (writeFlag g y b) = writeFlag g y (writeFlag f x b) := by
  have hp : flagPos f ≠ flagPos g := fun e => h (flagPos_inj e)
  apply BitVec.eq_of_getLsbD_eq
  intro i hi
  simp only [writeFlag, getLsbD_writeBit _ _ _ _ hi (flagPos_lt f), getLsbD_writeBit _ _ _ _ hi (flagPos_lt g)]
  by_cases h1 : i = flagPos f <;> by_cases h2 : i = flagPos g <;> simp [h1, h2, hp, Ne.symm hp]

/-- Writing a flag to the value it has changes nothing. -/
theorem writeFlag_self (f : Flag) (b : Byte) : writeFlag f (isAsserted f b) b = b := by
  apply BitVec.eq_of_getLsbD_eq
  intro i hi
  rw [writeFlag, getLsbD_writeBit _ _ _ _ hi (flagPos_lt f), isAsserted]
  by_cases h : i = flagPos f
  · subst h
    simp only [if_true]
    generalize b.getLsbD (flagPos f) = x
    cases x <;> cases flagLevel f <;> rfl
  · simp [h]

end Sys2Proof.Machine
end

