-- ==== Sys2Proof/Laws/State.lean ====
section
/-! SUPPORT. The small lemmas of the state's named updates: one per field per update, so that no later proof unfolds a
record update. -/

namespace Sys2Proof.Machine

open Sys2Proof

/-! ### Updates of the device -/

@[simp] theorem Device.complete_bank (d : Device) : (d.complete).bank = d.bank := rfl
@[simp] theorem Device.complete_addrHi (d : Device) : (d.complete).addrHi = d.addrHi := rfl
@[simp] theorem Device.complete_addrLo (d : Device) : (d.complete).addrLo = d.addrLo := rfl
@[simp] theorem Device.complete_ctrl (d : Device) : (d.complete).ctrl = d.ctrl := rfl
@[simp] theorem Device.complete_data (d : Device) : (d.complete).data = d.data := rfl
@[simp] theorem Device.complete_portDir (d : Device) : (d.complete).portDir = d.portDir := rfl
@[simp] theorem Device.complete_portOut (d : Device) : (d.complete).portOut = d.portOut := rfl
@[simp] theorem Device.complete_buf (d : Device) : (d.complete).buf = d.buf := rfl
@[simp] theorem Device.complete_dataPending (d : Device) : (d.complete).dataPending = d.dataPending := rfl
@[simp] theorem Device.complete_status (d : Device) : (d.complete).status = d.status := rfl
@[simp] theorem Device.complete_c (d : Device) : (d.complete).c = d.c := rfl
@[simp] theorem Device.complete_a1 (d : Device) : (d.complete).a1 = d.a1 := rfl
@[simp] theorem Device.complete_a2 (d : Device) : (d.complete).a2 = d.a2 := rfl
@[simp] theorem Device.complete_lines (d : Device) : (d.complete).lines = d.lines := rfl
@[simp] theorem Device.complete_localV (d : Device) : (d.complete).localV = d.localV := rfl
@[simp] theorem Device.complete_localR (d : Device) : (d.complete).localR = d.localR := rfl
@[simp] theorem Device.complete_params (d : Device) : (d.complete).params = d.params := rfl
@[simp] theorem Device.complete_flash (d : Device) : (d.complete).flash = d.flash := rfl
@[simp] theorem Device.complete_ready (d : Device) : (d.complete).ready = d.ready := rfl
@[simp] theorem Device.complete_fmem (d : Device) : (d.complete).fmem = d.fmem := rfl
@[simp] theorem Device.complete_fstate (d : Device) : (d.complete).fstate = d.fstate := rfl
@[simp] theorem Device.complete_draws (d : Device) : (d.complete).draws = d.draws := rfl

@[simp] theorem Device.complete_cmd (d : Device) : (d.complete).cmd = none := rfl
@[simp] theorem Device.complete_dstate (d : Device) : (d.complete).dstate = .idle := rfl
@[simp] theorem Device.complete_pos (d : Device) : (d.complete).pos = [] := rfl

@[simp] theorem Device.failWith_bank (d : Device) (st : Status) : (d.failWith st).bank = d.bank := rfl
@[simp] theorem Device.failWith_addrHi (d : Device) (st : Status) : (d.failWith st).addrHi = d.addrHi := rfl
@[simp] theorem Device.failWith_addrLo (d : Device) (st : Status) : (d.failWith st).addrLo = d.addrLo := rfl
@[simp] theorem Device.failWith_ctrl (d : Device) (st : Status) : (d.failWith st).ctrl = d.ctrl := rfl
@[simp] theorem Device.failWith_data (d : Device) (st : Status) : (d.failWith st).data = d.data := rfl
@[simp] theorem Device.failWith_portDir (d : Device) (st : Status) : (d.failWith st).portDir = d.portDir := rfl
@[simp] theorem Device.failWith_portOut (d : Device) (st : Status) : (d.failWith st).portOut = d.portOut := rfl
@[simp] theorem Device.failWith_buf (d : Device) (st : Status) : (d.failWith st).buf = d.buf := rfl
@[simp] theorem Device.failWith_cmd (d : Device) (st : Status) : (d.failWith st).cmd = d.cmd := rfl
@[simp] theorem Device.failWith_dataPending (d : Device) (st : Status) : (d.failWith st).dataPending = d.dataPending := rfl
@[simp] theorem Device.failWith_dstate (d : Device) (st : Status) : (d.failWith st).dstate = d.dstate := rfl
@[simp] theorem Device.failWith_c (d : Device) (st : Status) : (d.failWith st).c = d.c := rfl
@[simp] theorem Device.failWith_a1 (d : Device) (st : Status) : (d.failWith st).a1 = d.a1 := rfl
@[simp] theorem Device.failWith_a2 (d : Device) (st : Status) : (d.failWith st).a2 = d.a2 := rfl
@[simp] theorem Device.failWith_lines (d : Device) (st : Status) : (d.failWith st).lines = d.lines := rfl
@[simp] theorem Device.failWith_localV (d : Device) (st : Status) : (d.failWith st).localV = d.localV := rfl
@[simp] theorem Device.failWith_localR (d : Device) (st : Status) : (d.failWith st).localR = d.localR := rfl
@[simp] theorem Device.failWith_params (d : Device) (st : Status) : (d.failWith st).params = d.params := rfl
@[simp] theorem Device.failWith_flash (d : Device) (st : Status) : (d.failWith st).flash = d.flash := rfl
@[simp] theorem Device.failWith_ready (d : Device) (st : Status) : (d.failWith st).ready = d.ready := rfl
@[simp] theorem Device.failWith_fmem (d : Device) (st : Status) : (d.failWith st).fmem = d.fmem := rfl
@[simp] theorem Device.failWith_fstate (d : Device) (st : Status) : (d.failWith st).fstate = d.fstate := rfl
@[simp] theorem Device.failWith_draws (d : Device) (st : Status) : (d.failWith st).draws = d.draws := rfl

@[simp] theorem Device.failWith_status (d : Device) (st : Status) : (d.failWith st).status = st := rfl
@[simp] theorem Device.failWith_pos (d : Device) (st : Status) : (d.failWith st).pos = [] := rfl

@[simp] theorem Device.loadOutputs_bank (d : Device) : (d.loadOutputs).bank = d.bank := rfl
@[simp] theorem Device.loadOutputs_addrHi (d : Device) : (d.loadOutputs).addrHi = d.addrHi := rfl
@[simp] theorem Device.loadOutputs_addrLo (d : Device) : (d.loadOutputs).addrLo = d.addrLo := rfl
@[simp] theorem Device.loadOutputs_ctrl (d : Device) : (d.loadOutputs).ctrl = d.ctrl := rfl
@[simp] theorem Device.loadOutputs_data (d : Device) : (d.loadOutputs).data = d.data := rfl
@[simp] theorem Device.loadOutputs_portDir (d : Device) : (d.loadOutputs).portDir = d.portDir := rfl
@[simp] theorem Device.loadOutputs_portOut (d : Device) : (d.loadOutputs).portOut = d.portOut := rfl
@[simp] theorem Device.loadOutputs_buf (d : Device) : (d.loadOutputs).buf = d.buf := rfl
@[simp] theorem Device.loadOutputs_cmd (d : Device) : (d.loadOutputs).cmd = d.cmd := rfl
@[simp] theorem Device.loadOutputs_dataPending (d : Device) : (d.loadOutputs).dataPending = d.dataPending := rfl
@[simp] theorem Device.loadOutputs_dstate (d : Device) : (d.loadOutputs).dstate = d.dstate := rfl
@[simp] theorem Device.loadOutputs_status (d : Device) : (d.loadOutputs).status = d.status := rfl
@[simp] theorem Device.loadOutputs_lines (d : Device) : (d.loadOutputs).lines = d.lines := rfl
@[simp] theorem Device.loadOutputs_pos (d : Device) : (d.loadOutputs).pos = d.pos := rfl
@[simp] theorem Device.loadOutputs_localV (d : Device) : (d.loadOutputs).localV = d.localV := rfl
@[simp] theorem Device.loadOutputs_localR (d : Device) : (d.loadOutputs).localR = d.localR := rfl
@[simp] theorem Device.loadOutputs_params (d : Device) : (d.loadOutputs).params = d.params := rfl
@[simp] theorem Device.loadOutputs_flash (d : Device) : (d.loadOutputs).flash = d.flash := rfl
@[simp] theorem Device.loadOutputs_ready (d : Device) : (d.loadOutputs).ready = d.ready := rfl
@[simp] theorem Device.loadOutputs_fmem (d : Device) : (d.loadOutputs).fmem = d.fmem := rfl
@[simp] theorem Device.loadOutputs_fstate (d : Device) : (d.loadOutputs).fstate = d.fstate := rfl
@[simp] theorem Device.loadOutputs_draws (d : Device) : (d.loadOutputs).draws = d.draws := rfl

@[simp] theorem Device.loadOutputs_c (d : Device) : (d.loadOutputs).c = d.c.latched := rfl
@[simp] theorem Device.loadOutputs_a1 (d : Device) : (d.loadOutputs).a1 = d.a1.latched := rfl
@[simp] theorem Device.loadOutputs_a2 (d : Device) : (d.loadOutputs).a2 = d.a2.latched := rfl

@[simp] theorem ShiftReg.latched_S (r : ShiftReg) : r.latched.S = r.S := rfl
@[simp] theorem ShiftReg.latched_Q (r : ShiftReg) : r.latched.Q = r.S := rfl

@[simp] theorem Device.withPos_bank (d : Device) (p : List Stmt) : (d.withPos p).bank = d.bank := rfl
@[simp] theorem Device.withPos_addrHi (d : Device) (p : List Stmt) : (d.withPos p).addrHi = d.addrHi := rfl
@[simp] theorem Device.withPos_addrLo (d : Device) (p : List Stmt) : (d.withPos p).addrLo = d.addrLo := rfl
@[simp] theorem Device.withPos_ctrl (d : Device) (p : List Stmt) : (d.withPos p).ctrl = d.ctrl := rfl
@[simp] theorem Device.withPos_data (d : Device) (p : List Stmt) : (d.withPos p).data = d.data := rfl
@[simp] theorem Device.withPos_portDir (d : Device) (p : List Stmt) : (d.withPos p).portDir = d.portDir := rfl
@[simp] theorem Device.withPos_portOut (d : Device) (p : List Stmt) : (d.withPos p).portOut = d.portOut := rfl
@[simp] theorem Device.withPos_buf (d : Device) (p : List Stmt) : (d.withPos p).buf = d.buf := rfl
@[simp] theorem Device.withPos_cmd (d : Device) (p : List Stmt) : (d.withPos p).cmd = d.cmd := rfl
@[simp] theorem Device.withPos_dataPending (d : Device) (p : List Stmt) : (d.withPos p).dataPending = d.dataPending := rfl
@[simp] theorem Device.withPos_dstate (d : Device) (p : List Stmt) : (d.withPos p).dstate = d.dstate := rfl
@[simp] theorem Device.withPos_status (d : Device) (p : List Stmt) : (d.withPos p).status = d.status := rfl
@[simp] theorem Device.withPos_c (d : Device) (p : List Stmt) : (d.withPos p).c = d.c := rfl
@[simp] theorem Device.withPos_a1 (d : Device) (p : List Stmt) : (d.withPos p).a1 = d.a1 := rfl
@[simp] theorem Device.withPos_a2 (d : Device) (p : List Stmt) : (d.withPos p).a2 = d.a2 := rfl
@[simp] theorem Device.withPos_lines (d : Device) (p : List Stmt) : (d.withPos p).lines = d.lines := rfl
@[simp] theorem Device.withPos_localV (d : Device) (p : List Stmt) : (d.withPos p).localV = d.localV := rfl
@[simp] theorem Device.withPos_localR (d : Device) (p : List Stmt) : (d.withPos p).localR = d.localR := rfl
@[simp] theorem Device.withPos_params (d : Device) (p : List Stmt) : (d.withPos p).params = d.params := rfl
@[simp] theorem Device.withPos_flash (d : Device) (p : List Stmt) : (d.withPos p).flash = d.flash := rfl
@[simp] theorem Device.withPos_ready (d : Device) (p : List Stmt) : (d.withPos p).ready = d.ready := rfl
@[simp] theorem Device.withPos_fmem (d : Device) (p : List Stmt) : (d.withPos p).fmem = d.fmem := rfl
@[simp] theorem Device.withPos_fstate (d : Device) (p : List Stmt) : (d.withPos p).fstate = d.fstate := rfl
@[simp] theorem Device.withPos_draws (d : Device) (p : List Stmt) : (d.withPos p).draws = d.draws := rfl

@[simp] theorem Device.withPos_pos (d : Device) (p : List Stmt) : (d.withPos p).pos = p := rfl

@[simp] theorem Device.writeBuf_bank (d : Device) (i : Fin 64) (v : Byte) : (d.writeBuf i v).bank = d.bank := rfl
@[simp] theorem Device.writeBuf_addrHi (d : Device) (i : Fin 64) (v : Byte) : (d.writeBuf i v).addrHi = d.addrHi := rfl
@[simp] theorem Device.writeBuf_addrLo (d : Device) (i : Fin 64) (v : Byte) : (d.writeBuf i v).addrLo = d.addrLo := rfl
@[simp] theorem Device.writeBuf_ctrl (d : Device) (i : Fin 64) (v : Byte) : (d.writeBuf i v).ctrl = d.ctrl := rfl
@[simp] theorem Device.writeBuf_data (d : Device) (i : Fin 64) (v : Byte) : (d.writeBuf i v).data = d.data := rfl
@[simp] theorem Device.writeBuf_portDir (d : Device) (i : Fin 64) (v : Byte) : (d.writeBuf i v).portDir = d.portDir := rfl
@[simp] theorem Device.writeBuf_portOut (d : Device) (i : Fin 64) (v : Byte) : (d.writeBuf i v).portOut = d.portOut := rfl
@[simp] theorem Device.writeBuf_cmd (d : Device) (i : Fin 64) (v : Byte) : (d.writeBuf i v).cmd = d.cmd := rfl
@[simp] theorem Device.writeBuf_dataPending (d : Device) (i : Fin 64) (v : Byte) : (d.writeBuf i v).dataPending = d.dataPending := rfl
@[simp] theorem Device.writeBuf_dstate (d : Device) (i : Fin 64) (v : Byte) : (d.writeBuf i v).dstate = d.dstate := rfl
@[simp] theorem Device.writeBuf_status (d : Device) (i : Fin 64) (v : Byte) : (d.writeBuf i v).status = d.status := rfl
@[simp] theorem Device.writeBuf_c (d : Device) (i : Fin 64) (v : Byte) : (d.writeBuf i v).c = d.c := rfl
@[simp] theorem Device.writeBuf_a1 (d : Device) (i : Fin 64) (v : Byte) : (d.writeBuf i v).a1 = d.a1 := rfl
@[simp] theorem Device.writeBuf_a2 (d : Device) (i : Fin 64) (v : Byte) : (d.writeBuf i v).a2 = d.a2 := rfl
@[simp] theorem Device.writeBuf_lines (d : Device) (i : Fin 64) (v : Byte) : (d.writeBuf i v).lines = d.lines := rfl
@[simp] theorem Device.writeBuf_pos (d : Device) (i : Fin 64) (v : Byte) : (d.writeBuf i v).pos = d.pos := rfl
@[simp] theorem Device.writeBuf_localV (d : Device) (i : Fin 64) (v : Byte) : (d.writeBuf i v).localV = d.localV := rfl
@[simp] theorem Device.writeBuf_localR (d : Device) (i : Fin 64) (v : Byte) : (d.writeBuf i v).localR = d.localR := rfl
@[simp] theorem Device.writeBuf_params (d : Device) (i : Fin 64) (v : Byte) : (d.writeBuf i v).params = d.params := rfl
@[simp] theorem Device.writeBuf_flash (d : Device) (i : Fin 64) (v : Byte) : (d.writeBuf i v).flash = d.flash := rfl
@[simp] theorem Device.writeBuf_ready (d : Device) (i : Fin 64) (v : Byte) : (d.writeBuf i v).ready = d.ready := rfl
@[simp] theorem Device.writeBuf_fmem (d : Device) (i : Fin 64) (v : Byte) : (d.writeBuf i v).fmem = d.fmem := rfl
@[simp] theorem Device.writeBuf_fstate (d : Device) (i : Fin 64) (v : Byte) : (d.writeBuf i v).fstate = d.fstate := rfl
@[simp] theorem Device.writeBuf_draws (d : Device) (i : Fin 64) (v : Byte) : (d.writeBuf i v).draws = d.draws := rfl

@[simp] theorem Device.writeBuf_buf (d : Device) (i : Fin 64) (v : Byte) : (d.writeBuf i v).buf = d.buf.set i.val (.byte v) i.isLt := rfl

@[simp] theorem Device.fixtureWrite_bank (d : Device) (a : Addr20) (v : Byte) : (d.fixtureWrite a v).bank = d.bank := rfl
@[simp] theorem Device.fixtureWrite_addrHi (d : Device) (a : Addr20) (v : Byte) : (d.fixtureWrite a v).addrHi = d.addrHi := rfl
@[simp] theorem Device.fixtureWrite_addrLo (d : Device) (a : Addr20) (v : Byte) : (d.fixtureWrite a v).addrLo = d.addrLo := rfl
@[simp] theorem Device.fixtureWrite_ctrl (d : Device) (a : Addr20) (v : Byte) : (d.fixtureWrite a v).ctrl = d.ctrl := rfl
@[simp] theorem Device.fixtureWrite_data (d : Device) (a : Addr20) (v : Byte) : (d.fixtureWrite a v).data = d.data := rfl
@[simp] theorem Device.fixtureWrite_portDir (d : Device) (a : Addr20) (v : Byte) : (d.fixtureWrite a v).portDir = d.portDir := rfl
@[simp] theorem Device.fixtureWrite_portOut (d : Device) (a : Addr20) (v : Byte) : (d.fixtureWrite a v).portOut = d.portOut := rfl
@[simp] theorem Device.fixtureWrite_buf (d : Device) (a : Addr20) (v : Byte) : (d.fixtureWrite a v).buf = d.buf := rfl
@[simp] theorem Device.fixtureWrite_cmd (d : Device) (a : Addr20) (v : Byte) : (d.fixtureWrite a v).cmd = d.cmd := rfl
@[simp] theorem Device.fixtureWrite_dataPending (d : Device) (a : Addr20) (v : Byte) : (d.fixtureWrite a v).dataPending = d.dataPending := rfl
@[simp] theorem Device.fixtureWrite_dstate (d : Device) (a : Addr20) (v : Byte) : (d.fixtureWrite a v).dstate = d.dstate := rfl
@[simp] theorem Device.fixtureWrite_status (d : Device) (a : Addr20) (v : Byte) : (d.fixtureWrite a v).status = d.status := rfl
@[simp] theorem Device.fixtureWrite_c (d : Device) (a : Addr20) (v : Byte) : (d.fixtureWrite a v).c = d.c := rfl
@[simp] theorem Device.fixtureWrite_a1 (d : Device) (a : Addr20) (v : Byte) : (d.fixtureWrite a v).a1 = d.a1 := rfl
@[simp] theorem Device.fixtureWrite_a2 (d : Device) (a : Addr20) (v : Byte) : (d.fixtureWrite a v).a2 = d.a2 := rfl
@[simp] theorem Device.fixtureWrite_lines (d : Device) (a : Addr20) (v : Byte) : (d.fixtureWrite a v).lines = d.lines := rfl
@[simp] theorem Device.fixtureWrite_pos (d : Device) (a : Addr20) (v : Byte) : (d.fixtureWrite a v).pos = d.pos := rfl
@[simp] theorem Device.fixtureWrite_localV (d : Device) (a : Addr20) (v : Byte) : (d.fixtureWrite a v).localV = d.localV := rfl
@[simp] theorem Device.fixtureWrite_localR (d : Device) (a : Addr20) (v : Byte) : (d.fixtureWrite a v).localR = d.localR := rfl
@[simp] theorem Device.fixtureWrite_params (d : Device) (a : Addr20) (v : Byte) : (d.fixtureWrite a v).params = d.params := rfl
@[simp] theorem Device.fixtureWrite_flash (d : Device) (a : Addr20) (v : Byte) : (d.fixtureWrite a v).flash = d.flash := rfl
@[simp] theorem Device.fixtureWrite_ready (d : Device) (a : Addr20) (v : Byte) : (d.fixtureWrite a v).ready = d.ready := rfl
@[simp] theorem Device.fixtureWrite_draws (d : Device) (a : Addr20) (v : Byte) : (d.fixtureWrite a v).draws = d.draws := rfl

@[simp] theorem Device.fixtureWrite_fstate (d : Device) (a : Addr20) (v : Byte) : (d.fixtureWrite a v).fstate = fixtureNext d.fstate a v := rfl
@[simp] theorem Device.fixtureWrite_fmem (d : Device) (a : Addr20) (v : Byte) : (d.fixtureWrite a v).fmem = fixtureEffect d.fstate d.fmem a v := rfl

@[simp] theorem Device.startWith_bank (d : Device) (i : Instr) : (d.startWith i).bank = d.bank := rfl
@[simp] theorem Device.startWith_addrHi (d : Device) (i : Instr) : (d.startWith i).addrHi = d.addrHi := rfl
@[simp] theorem Device.startWith_addrLo (d : Device) (i : Instr) : (d.startWith i).addrLo = d.addrLo := rfl
@[simp] theorem Device.startWith_ctrl (d : Device) (i : Instr) : (d.startWith i).ctrl = d.ctrl := rfl
@[simp] theorem Device.startWith_data (d : Device) (i : Instr) : (d.startWith i).data = d.data := rfl
@[simp] theorem Device.startWith_portDir (d : Device) (i : Instr) : (d.startWith i).portDir = d.portDir := rfl
@[simp] theorem Device.startWith_portOut (d : Device) (i : Instr) : (d.startWith i).portOut = d.portOut := rfl
@[simp] theorem Device.startWith_buf (d : Device) (i : Instr) : (d.startWith i).buf = d.buf := rfl
@[simp] theorem Device.startWith_cmd (d : Device) (i : Instr) : (d.startWith i).cmd = d.cmd := rfl
@[simp] theorem Device.startWith_dataPending (d : Device) (i : Instr) : (d.startWith i).dataPending = d.dataPending := rfl
@[simp] theorem Device.startWith_c (d : Device) (i : Instr) : (d.startWith i).c = d.c := rfl
@[simp] theorem Device.startWith_a1 (d : Device) (i : Instr) : (d.startWith i).a1 = d.a1 := rfl
@[simp] theorem Device.startWith_a2 (d : Device) (i : Instr) : (d.startWith i).a2 = d.a2 := rfl
@[simp] theorem Device.startWith_lines (d : Device) (i : Instr) : (d.startWith i).lines = d.lines := rfl
@[simp] theorem Device.startWith_localV (d : Device) (i : Instr) : (d.startWith i).localV = d.localV := rfl
@[simp] theorem Device.startWith_localR (d : Device) (i : Instr) : (d.startWith i).localR = d.localR := rfl
@[simp] theorem Device.startWith_params (d : Device) (i : Instr) : (d.startWith i).params = d.params := rfl
@[simp] theorem Device.startWith_flash (d : Device) (i : Instr) : (d.startWith i).flash = d.flash := rfl
@[simp] theorem Device.startWith_ready (d : Device) (i : Instr) : (d.startWith i).ready = d.ready := rfl
@[simp] theorem Device.startWith_fmem (d : Device) (i : Instr) : (d.startWith i).fmem = d.fmem := rfl
@[simp] theorem Device.startWith_fstate (d : Device) (i : Instr) : (d.startWith i).fstate = d.fstate := rfl
@[simp] theorem Device.startWith_draws (d : Device) (i : Instr) : (d.startWith i).draws = d.draws := rfl

@[simp] theorem Device.startWith_dstate (d : Device) (i : Instr) : (d.startWith i).dstate = .executing := rfl
@[simp] theorem Device.startWith_status (d : Device) (i : Instr) : (d.startWith i).status = startStatus d.status i := rfl
@[simp] theorem Device.startWith_pos (d : Device) (i : Instr) : (d.startWith i).pos = program d.params i := rfl

@[simp] theorem Device.draw_bank (d : Device) : (d.draw.2).bank = d.bank := rfl
@[simp] theorem Device.draw_addrHi (d : Device) : (d.draw.2).addrHi = d.addrHi := rfl
@[simp] theorem Device.draw_addrLo (d : Device) : (d.draw.2).addrLo = d.addrLo := rfl
@[simp] theorem Device.draw_ctrl (d : Device) : (d.draw.2).ctrl = d.ctrl := rfl
@[simp] theorem Device.draw_data (d : Device) : (d.draw.2).data = d.data := rfl
@[simp] theorem Device.draw_portDir (d : Device) : (d.draw.2).portDir = d.portDir := rfl
@[simp] theorem Device.draw_portOut (d : Device) : (d.draw.2).portOut = d.portOut := rfl
@[simp] theorem Device.draw_buf (d : Device) : (d.draw.2).buf = d.buf := rfl
@[simp] theorem Device.draw_cmd (d : Device) : (d.draw.2).cmd = d.cmd := rfl
@[simp] theorem Device.draw_dataPending (d : Device) : (d.draw.2).dataPending = d.dataPending := rfl
@[simp] theorem Device.draw_dstate (d : Device) : (d.draw.2).dstate = d.dstate := rfl
@[simp] theorem Device.draw_status (d : Device) : (d.draw.2).status = d.status := rfl
@[simp] theorem Device.draw_c (d : Device) : (d.draw.2).c = d.c := rfl
@[simp] theorem Device.draw_a1 (d : Device) : (d.draw.2).a1 = d.a1 := rfl
@[simp] theorem Device.draw_a2 (d : Device) : (d.draw.2).a2 = d.a2 := rfl
@[simp] theorem Device.draw_lines (d : Device) : (d.draw.2).lines = d.lines := rfl
@[simp] theorem Device.draw_pos (d : Device) : (d.draw.2).pos = d.pos := rfl
@[simp] theorem Device.draw_localV (d : Device) : (d.draw.2).localV = d.localV := rfl
@[simp] theorem Device.draw_localR (d : Device) : (d.draw.2).localR = d.localR := rfl
@[simp] theorem Device.draw_params (d : Device) : (d.draw.2).params = d.params := rfl
@[simp] theorem Device.draw_flash (d : Device) : (d.draw.2).flash = d.flash := rfl
@[simp] theorem Device.draw_ready (d : Device) : (d.draw.2).ready = d.ready := rfl
@[simp] theorem Device.draw_fmem (d : Device) : (d.draw.2).fmem = d.fmem := rfl
@[simp] theorem Device.draw_fstate (d : Device) : (d.draw.2).fstate = d.fstate := rfl

@[simp] theorem Device.draw_draws (d : Device) : (d.draw.2).draws = d.draws + 1 := rfl
@[simp] theorem Device.draw_fst (d : Device) : d.draw.1 = Config.drawByte d.draws := rfl

@[simp] theorem Device.readSlot_bank (d : Device) (x : Slot) : ((d.readSlot x).2).bank = d.bank := by cases x <;> rfl
@[simp] theorem Device.readSlot_addrHi (d : Device) (x : Slot) : ((d.readSlot x).2).addrHi = d.addrHi := by cases x <;> rfl
@[simp] theorem Device.readSlot_addrLo (d : Device) (x : Slot) : ((d.readSlot x).2).addrLo = d.addrLo := by cases x <;> rfl
@[simp] theorem Device.readSlot_ctrl (d : Device) (x : Slot) : ((d.readSlot x).2).ctrl = d.ctrl := by cases x <;> rfl
@[simp] theorem Device.readSlot_data (d : Device) (x : Slot) : ((d.readSlot x).2).data = d.data := by cases x <;> rfl
@[simp] theorem Device.readSlot_portDir (d : Device) (x : Slot) : ((d.readSlot x).2).portDir = d.portDir := by cases x <;> rfl
@[simp] theorem Device.readSlot_portOut (d : Device) (x : Slot) : ((d.readSlot x).2).portOut = d.portOut := by cases x <;> rfl
@[simp] theorem Device.readSlot_buf (d : Device) (x : Slot) : ((d.readSlot x).2).buf = d.buf := by cases x <;> rfl
@[simp] theorem Device.readSlot_cmd (d : Device) (x : Slot) : ((d.readSlot x).2).cmd = d.cmd := by cases x <;> rfl
@[simp] theorem Device.readSlot_dataPending (d : Device) (x : Slot) : ((d.readSlot x).2).dataPending = d.dataPending := by cases x <;> rfl
@[simp] theorem Device.readSlot_dstate (d : Device) (x : Slot) : ((d.readSlot x).2).dstate = d.dstate := by cases x <;> rfl
@[simp] theorem Device.readSlot_status (d : Device) (x : Slot) : ((d.readSlot x).2).status = d.status := by cases x <;> rfl
@[simp] theorem Device.readSlot_c (d : Device) (x : Slot) : ((d.readSlot x).2).c = d.c := by cases x <;> rfl
@[simp] theorem Device.readSlot_a1 (d : Device) (x : Slot) : ((d.readSlot x).2).a1 = d.a1 := by cases x <;> rfl
@[simp] theorem Device.readSlot_a2 (d : Device) (x : Slot) : ((d.readSlot x).2).a2 = d.a2 := by cases x <;> rfl
@[simp] theorem Device.readSlot_lines (d : Device) (x : Slot) : ((d.readSlot x).2).lines = d.lines := by cases x <;> rfl
@[simp] theorem Device.readSlot_pos (d : Device) (x : Slot) : ((d.readSlot x).2).pos = d.pos := by cases x <;> rfl
@[simp] theorem Device.readSlot_localV (d : Device) (x : Slot) : ((d.readSlot x).2).localV = d.localV := by cases x <;> rfl
@[simp] theorem Device.readSlot_localR (d : Device) (x : Slot) : ((d.readSlot x).2).localR = d.localR := by cases x <;> rfl
@[simp] theorem Device.readSlot_params (d : Device) (x : Slot) : ((d.readSlot x).2).params = d.params := by cases x <;> rfl
@[simp] theorem Device.readSlot_flash (d : Device) (x : Slot) : ((d.readSlot x).2).flash = d.flash := by cases x <;> rfl
@[simp] theorem Device.readSlot_ready (d : Device) (x : Slot) : ((d.readSlot x).2).ready = d.ready := by cases x <;> rfl
@[simp] theorem Device.readSlot_fmem (d : Device) (x : Slot) : ((d.readSlot x).2).fmem = d.fmem := by cases x <;> rfl
@[simp] theorem Device.readSlot_fstate (d : Device) (x : Slot) : ((d.readSlot x).2).fstate = d.fstate := by cases x <;> rfl

@[simp] theorem Device.readSlot_byte (d : Device) (b : Byte) : d.readSlot (.byte b) = (b, d) := rfl

@[simp] theorem Device.writeData_bank (d : Device) : (d.writeData.2).bank = d.bank := by unfold Device.writeData; split <;> simp
@[simp] theorem Device.writeData_addrHi (d : Device) : (d.writeData.2).addrHi = d.addrHi := by unfold Device.writeData; split <;> simp
@[simp] theorem Device.writeData_addrLo (d : Device) : (d.writeData.2).addrLo = d.addrLo := by unfold Device.writeData; split <;> simp
@[simp] theorem Device.writeData_ctrl (d : Device) : (d.writeData.2).ctrl = d.ctrl := by unfold Device.writeData; split <;> simp
@[simp] theorem Device.writeData_data (d : Device) : (d.writeData.2).data = d.data := by unfold Device.writeData; split <;> simp
@[simp] theorem Device.writeData_portDir (d : Device) : (d.writeData.2).portDir = d.portDir := by unfold Device.writeData; split <;> simp
@[simp] theorem Device.writeData_portOut (d : Device) : (d.writeData.2).portOut = d.portOut := by unfold Device.writeData; split <;> simp
@[simp] theorem Device.writeData_buf (d : Device) : (d.writeData.2).buf = d.buf := by unfold Device.writeData; split <;> simp
@[simp] theorem Device.writeData_cmd (d : Device) : (d.writeData.2).cmd = d.cmd := by unfold Device.writeData; split <;> simp
@[simp] theorem Device.writeData_dataPending (d : Device) : (d.writeData.2).dataPending = d.dataPending := by unfold Device.writeData; split <;> simp
@[simp] theorem Device.writeData_dstate (d : Device) : (d.writeData.2).dstate = d.dstate := by unfold Device.writeData; split <;> simp
@[simp] theorem Device.writeData_status (d : Device) : (d.writeData.2).status = d.status := by unfold Device.writeData; split <;> simp
@[simp] theorem Device.writeData_c (d : Device) : (d.writeData.2).c = d.c := by unfold Device.writeData; split <;> simp
@[simp] theorem Device.writeData_a1 (d : Device) : (d.writeData.2).a1 = d.a1 := by unfold Device.writeData; split <;> simp
@[simp] theorem Device.writeData_a2 (d : Device) : (d.writeData.2).a2 = d.a2 := by unfold Device.writeData; split <;> simp
@[simp] theorem Device.writeData_lines (d : Device) : (d.writeData.2).lines = d.lines := by unfold Device.writeData; split <;> simp
@[simp] theorem Device.writeData_pos (d : Device) : (d.writeData.2).pos = d.pos := by unfold Device.writeData; split <;> simp
@[simp] theorem Device.writeData_localV (d : Device) : (d.writeData.2).localV = d.localV := by unfold Device.writeData; split <;> simp
@[simp] theorem Device.writeData_localR (d : Device) : (d.writeData.2).localR = d.localR := by unfold Device.writeData; split <;> simp
@[simp] theorem Device.writeData_params (d : Device) : (d.writeData.2).params = d.params := by unfold Device.writeData; split <;> simp
@[simp] theorem Device.writeData_flash (d : Device) : (d.writeData.2).flash = d.flash := by unfold Device.writeData; split <;> simp
@[simp] theorem Device.writeData_ready (d : Device) : (d.writeData.2).ready = d.ready := by unfold Device.writeData; split <;> simp
@[simp] theorem Device.writeData_fmem (d : Device) : (d.writeData.2).fmem = d.fmem := by unfold Device.writeData; split <;> simp
@[simp] theorem Device.writeData_fstate (d : Device) : (d.writeData.2).fstate = d.fstate := by unfold Device.writeData; split <;> simp

theorem Device.writeData_driving (d : Device) (b : Byte) (hp : d.portDir = .output) (ho : d.portOut = .byte b) :
    d.writeData = (b, d) := by simp [Device.writeData, hp, ho]

@[simp] theorem Device.latch_bank (d : Device) : (d.latch.1).bank = d.bank := by unfold Device.latch; split <;> simp
@[simp] theorem Device.latch_addrHi (d : Device) : (d.latch.1).addrHi = d.addrHi := by unfold Device.latch; split <;> simp
@[simp] theorem Device.latch_addrLo (d : Device) : (d.latch.1).addrLo = d.addrLo := by unfold Device.latch; split <;> simp
@[simp] theorem Device.latch_ctrl (d : Device) : (d.latch.1).ctrl = d.ctrl := by unfold Device.latch; split <;> simp
@[simp] theorem Device.latch_data (d : Device) : (d.latch.1).data = d.data := by unfold Device.latch; split <;> simp
@[simp] theorem Device.latch_portDir (d : Device) : (d.latch.1).portDir = d.portDir := by unfold Device.latch; split <;> simp
@[simp] theorem Device.latch_portOut (d : Device) : (d.latch.1).portOut = d.portOut := by unfold Device.latch; split <;> simp
@[simp] theorem Device.latch_buf (d : Device) : (d.latch.1).buf = d.buf := by unfold Device.latch; split <;> simp
@[simp] theorem Device.latch_cmd (d : Device) : (d.latch.1).cmd = d.cmd := by unfold Device.latch; split <;> simp
@[simp] theorem Device.latch_dataPending (d : Device) : (d.latch.1).dataPending = d.dataPending := by unfold Device.latch; split <;> simp
@[simp] theorem Device.latch_dstate (d : Device) : (d.latch.1).dstate = d.dstate := by unfold Device.latch; split <;> simp
@[simp] theorem Device.latch_status (d : Device) : (d.latch.1).status = d.status := by unfold Device.latch; split <;> simp
@[simp] theorem Device.latch_lines (d : Device) : (d.latch.1).lines = d.lines := by unfold Device.latch; split <;> simp
@[simp] theorem Device.latch_pos (d : Device) : (d.latch.1).pos = d.pos := by unfold Device.latch; split <;> simp
@[simp] theorem Device.latch_localV (d : Device) : (d.latch.1).localV = d.localV := by unfold Device.latch; split <;> simp
@[simp] theorem Device.latch_localR (d : Device) : (d.latch.1).localR = d.localR := by unfold Device.latch; split <;> simp
@[simp] theorem Device.latch_params (d : Device) : (d.latch.1).params = d.params := by unfold Device.latch; split <;> simp
@[simp] theorem Device.latch_flash (d : Device) : (d.latch.1).flash = d.flash := by unfold Device.latch; split <;> simp
@[simp] theorem Device.latch_ready (d : Device) : (d.latch.1).ready = d.ready := by unfold Device.latch; split <;> simp

@[simp] theorem Device.latch_c (d : Device) : (d.latch.1).c = d.c.latched := by unfold Device.latch; split <;> simp
@[simp] theorem Device.latch_a1 (d : Device) : (d.latch.1).a1 = d.a1.latched := by unfold Device.latch; split <;> simp
@[simp] theorem Device.latch_a2 (d : Device) : (d.latch.1).a2 = d.a2.latched := by unfold Device.latch; split <;> simp

@[simp] theorem Device.controlShifted_bank (d : Device) : (d.controlShifted).bank = d.bank := rfl
@[simp] theorem Device.controlShifted_addrHi (d : Device) : (d.controlShifted).addrHi = d.addrHi := rfl
@[simp] theorem Device.controlShifted_addrLo (d : Device) : (d.controlShifted).addrLo = d.addrLo := rfl
@[simp] theorem Device.controlShifted_ctrl (d : Device) : (d.controlShifted).ctrl = d.ctrl := rfl
@[simp] theorem Device.controlShifted_data (d : Device) : (d.controlShifted).data = d.data := rfl
@[simp] theorem Device.controlShifted_portDir (d : Device) : (d.controlShifted).portDir = d.portDir := rfl
@[simp] theorem Device.controlShifted_portOut (d : Device) : (d.controlShifted).portOut = d.portOut := rfl
@[simp] theorem Device.controlShifted_buf (d : Device) : (d.controlShifted).buf = d.buf := rfl
@[simp] theorem Device.controlShifted_cmd (d : Device) : (d.controlShifted).cmd = d.cmd := rfl
@[simp] theorem Device.controlShifted_dataPending (d : Device) : (d.controlShifted).dataPending = d.dataPending := rfl
@[simp] theorem Device.controlShifted_dstate (d : Device) : (d.controlShifted).dstate = d.dstate := rfl
@[simp] theorem Device.controlShifted_status (d : Device) : (d.controlShifted).status = d.status := rfl
@[simp] theorem Device.controlShifted_a1 (d : Device) : (d.controlShifted).a1 = d.a1 := rfl
@[simp] theorem Device.controlShifted_a2 (d : Device) : (d.controlShifted).a2 = d.a2 := rfl
@[simp] theorem Device.controlShifted_pos (d : Device) : (d.controlShifted).pos = d.pos := rfl
@[simp] theorem Device.controlShifted_localV (d : Device) : (d.controlShifted).localV = d.localV := rfl
@[simp] theorem Device.controlShifted_localR (d : Device) : (d.controlShifted).localR = d.localR := rfl
@[simp] theorem Device.controlShifted_params (d : Device) : (d.controlShifted).params = d.params := rfl
@[simp] theorem Device.controlShifted_flash (d : Device) : (d.controlShifted).flash = d.flash := rfl
@[simp] theorem Device.controlShifted_ready (d : Device) : (d.controlShifted).ready = d.ready := rfl
@[simp] theorem Device.controlShifted_fmem (d : Device) : (d.controlShifted).fmem = d.fmem := rfl
@[simp] theorem Device.controlShifted_fstate (d : Device) : (d.controlShifted).fstate = d.fstate := rfl
@[simp] theorem Device.controlShifted_draws (d : Device) : (d.controlShifted).draws = d.draws := rfl

@[simp] theorem Device.controlShifted_c (d : Device) : (d.controlShifted).c = { d.c with S := ctrlByte d.ctrl d.bank } := rfl
@[simp] theorem Device.controlShifted_lines (d : Device) : (d.controlShifted).lines = { d.lines with cclk := true, cdat := (ctrlByte d.ctrl d.bank).getLsbD 0, latch := true } := rfl

@[simp] theorem Device.fullShifted_bank (d : Device) : (d.fullShifted).bank = d.bank := rfl
@[simp] theorem Device.fullShifted_addrHi (d : Device) : (d.fullShifted).addrHi = d.addrHi := rfl
@[simp] theorem Device.fullShifted_addrLo (d : Device) : (d.fullShifted).addrLo = d.addrLo := rfl
@[simp] theorem Device.fullShifted_ctrl (d : Device) : (d.fullShifted).ctrl = d.ctrl := rfl
@[simp] theorem Device.fullShifted_data (d : Device) : (d.fullShifted).data = d.data := rfl
@[simp] theorem Device.fullShifted_portDir (d : Device) : (d.fullShifted).portDir = d.portDir := rfl
@[simp] theorem Device.fullShifted_portOut (d : Device) : (d.fullShifted).portOut = d.portOut := rfl
@[simp] theorem Device.fullShifted_buf (d : Device) : (d.fullShifted).buf = d.buf := rfl
@[simp] theorem Device.fullShifted_cmd (d : Device) : (d.fullShifted).cmd = d.cmd := rfl
@[simp] theorem Device.fullShifted_dataPending (d : Device) : (d.fullShifted).dataPending = d.dataPending := rfl
@[simp] theorem Device.fullShifted_dstate (d : Device) : (d.fullShifted).dstate = d.dstate := rfl
@[simp] theorem Device.fullShifted_status (d : Device) : (d.fullShifted).status = d.status := rfl
@[simp] theorem Device.fullShifted_c (d : Device) : (d.fullShifted).c = d.c := rfl
@[simp] theorem Device.fullShifted_pos (d : Device) : (d.fullShifted).pos = d.pos := rfl
@[simp] theorem Device.fullShifted_localV (d : Device) : (d.fullShifted).localV = d.localV := rfl
@[simp] theorem Device.fullShifted_localR (d : Device) : (d.fullShifted).localR = d.localR := rfl
@[simp] theorem Device.fullShifted_params (d : Device) : (d.fullShifted).params = d.params := rfl
@[simp] theorem Device.fullShifted_flash (d : Device) : (d.fullShifted).flash = d.flash := rfl
@[simp] theorem Device.fullShifted_ready (d : Device) : (d.fullShifted).ready = d.ready := rfl
@[simp] theorem Device.fullShifted_fmem (d : Device) : (d.fullShifted).fmem = d.fmem := rfl
@[simp] theorem Device.fullShifted_fstate (d : Device) : (d.fullShifted).fstate = d.fstate := rfl
@[simp] theorem Device.fullShifted_draws (d : Device) : (d.fullShifted).draws = d.draws := rfl

@[simp] theorem Device.fullShifted_a1 (d : Device) : (d.fullShifted).a1 = { d.a1 with S := d.addrLo } := rfl
@[simp] theorem Device.fullShifted_a2 (d : Device) : (d.fullShifted).a2 = { d.a2 with S := if d.pinOn .als then d.a2.S else d.addrHi } := rfl
@[simp] theorem Device.fullShifted_lines (d : Device) : (d.fullShifted).lines = d.lines.afterAddress (d.addrLo.getLsbD 0) := rfl

@[simp] theorem Device.lowShifted_bank (d : Device) : (d.lowShifted).bank = d.bank := rfl
@[simp] theorem Device.lowShifted_addrHi (d : Device) : (d.lowShifted).addrHi = d.addrHi := rfl
@[simp] theorem Device.lowShifted_addrLo (d : Device) : (d.lowShifted).addrLo = d.addrLo := rfl
@[simp] theorem Device.lowShifted_ctrl (d : Device) : (d.lowShifted).ctrl = d.ctrl := rfl
@[simp] theorem Device.lowShifted_data (d : Device) : (d.lowShifted).data = d.data := rfl
@[simp] theorem Device.lowShifted_portDir (d : Device) : (d.lowShifted).portDir = d.portDir := rfl
@[simp] theorem Device.lowShifted_portOut (d : Device) : (d.lowShifted).portOut = d.portOut := rfl
@[simp] theorem Device.lowShifted_buf (d : Device) : (d.lowShifted).buf = d.buf := rfl
@[simp] theorem Device.lowShifted_cmd (d : Device) : (d.lowShifted).cmd = d.cmd := rfl
@[simp] theorem Device.lowShifted_dataPending (d : Device) : (d.lowShifted).dataPending = d.dataPending := rfl
@[simp] theorem Device.lowShifted_dstate (d : Device) : (d.lowShifted).dstate = d.dstate := rfl
@[simp] theorem Device.lowShifted_status (d : Device) : (d.lowShifted).status = d.status := rfl
@[simp] theorem Device.lowShifted_c (d : Device) : (d.lowShifted).c = d.c := rfl
@[simp] theorem Device.lowShifted_pos (d : Device) : (d.lowShifted).pos = d.pos := rfl
@[simp] theorem Device.lowShifted_localV (d : Device) : (d.lowShifted).localV = d.localV := rfl
@[simp] theorem Device.lowShifted_localR (d : Device) : (d.lowShifted).localR = d.localR := rfl
@[simp] theorem Device.lowShifted_params (d : Device) : (d.lowShifted).params = d.params := rfl
@[simp] theorem Device.lowShifted_flash (d : Device) : (d.lowShifted).flash = d.flash := rfl
@[simp] theorem Device.lowShifted_ready (d : Device) : (d.lowShifted).ready = d.ready := rfl
@[simp] theorem Device.lowShifted_fmem (d : Device) : (d.lowShifted).fmem = d.fmem := rfl
@[simp] theorem Device.lowShifted_fstate (d : Device) : (d.lowShifted).fstate = d.fstate := rfl
@[simp] theorem Device.lowShifted_draws (d : Device) : (d.lowShifted).draws = d.draws := rfl

@[simp] theorem Device.lowShifted_a1 (d : Device) : (d.lowShifted).a1 = { d.a1 with S := d.addrLo } := rfl
@[simp] theorem Device.lowShifted_a2 (d : Device) : (d.lowShifted).a2 = { d.a2 with S := if d.pinOn .als then d.a2.S else d.a1.S } := rfl
@[simp] theorem Device.lowShifted_lines (d : Device) : (d.lowShifted).lines = d.lines.afterAddress (d.addrLo.getLsbD 0) := rfl

@[simp] theorem Device.shiftControl_bank (d : Device) : (d.shiftControl.1).bank = d.bank := by simp [Device.shiftControl]
@[simp] theorem Device.shiftControl_addrHi (d : Device) : (d.shiftControl.1).addrHi = d.addrHi := by simp [Device.shiftControl]
@[simp] theorem Device.shiftControl_addrLo (d : Device) : (d.shiftControl.1).addrLo = d.addrLo := by simp [Device.shiftControl]
@[simp] theorem Device.shiftControl_ctrl (d : Device) : (d.shiftControl.1).ctrl = d.ctrl := by simp [Device.shiftControl]
@[simp] theorem Device.shiftControl_data (d : Device) : (d.shiftControl.1).data = d.data := by simp [Device.shiftControl]
@[simp] theorem Device.shiftControl_portDir (d : Device) : (d.shiftControl.1).portDir = d.portDir := by simp [Device.shiftControl]
@[simp] theorem Device.shiftControl_portOut (d : Device) : (d.shiftControl.1).portOut = d.portOut := by simp [Device.shiftControl]
@[simp] theorem Device.shiftControl_buf (d : Device) : (d.shiftControl.1).buf = d.buf := by simp [Device.shiftControl]
@[simp] theorem Device.shiftControl_cmd (d : Device) : (d.shiftControl.1).cmd = d.cmd := by simp [Device.shiftControl]
@[simp] theorem Device.shiftControl_dataPending (d : Device) : (d.shiftControl.1).dataPending = d.dataPending := by simp [Device.shiftControl]
@[simp] theorem Device.shiftControl_dstate (d : Device) : (d.shiftControl.1).dstate = d.dstate := by simp [Device.shiftControl]
@[simp] theorem Device.shiftControl_status (d : Device) : (d.shiftControl.1).status = d.status := by simp [Device.shiftControl]
@[simp] theorem Device.shiftControl_pos (d : Device) : (d.shiftControl.1).pos = d.pos := by simp [Device.shiftControl]
@[simp] theorem Device.shiftControl_localV (d : Device) : (d.shiftControl.1).localV = d.localV := by simp [Device.shiftControl]
@[simp] theorem Device.shiftControl_localR (d : Device) : (d.shiftControl.1).localR = d.localR := by simp [Device.shiftControl]
@[simp] theorem Device.shiftControl_params (d : Device) : (d.shiftControl.1).params = d.params := by simp [Device.shiftControl]
@[simp] theorem Device.shiftControl_flash (d : Device) : (d.shiftControl.1).flash = d.flash := by simp [Device.shiftControl]
@[simp] theorem Device.shiftControl_ready (d : Device) : (d.shiftControl.1).ready = d.ready := by simp [Device.shiftControl]

@[simp] theorem Device.shiftControl_c (d : Device) : (d.shiftControl.1).c = { S := ctrlByte d.ctrl d.bank, Q := ctrlByte d.ctrl d.bank } := by simp [Device.shiftControl, ShiftReg.latched]
@[simp] theorem Device.shiftControl_a1 (d : Device) : (d.shiftControl.1).a1 = d.a1.latched := by simp [Device.shiftControl, ShiftReg.latched]
@[simp] theorem Device.shiftControl_a2 (d : Device) : (d.shiftControl.1).a2 = d.a2.latched := by simp [Device.shiftControl, ShiftReg.latched]

@[simp] theorem Device.shiftFullAddress_bank (d : Device) : (d.shiftFullAddress.1).bank = d.bank := by simp [Device.shiftFullAddress]
@[simp] theorem Device.shiftFullAddress_addrHi (d : Device) : (d.shiftFullAddress.1).addrHi = d.addrHi := by simp [Device.shiftFullAddress]
@[simp] theorem Device.shiftFullAddress_addrLo (d : Device) : (d.shiftFullAddress.1).addrLo = d.addrLo := by simp [Device.shiftFullAddress]
@[simp] theorem Device.shiftFullAddress_ctrl (d : Device) : (d.shiftFullAddress.1).ctrl = d.ctrl := by simp [Device.shiftFullAddress]
@[simp] theorem Device.shiftFullAddress_data (d : Device) : (d.shiftFullAddress.1).data = d.data := by simp [Device.shiftFullAddress]
@[simp] theorem Device.shiftFullAddress_portDir (d : Device) : (d.shiftFullAddress.1).portDir = d.portDir := by simp [Device.shiftFullAddress]
@[simp] theorem Device.shiftFullAddress_portOut (d : Device) : (d.shiftFullAddress.1).portOut = d.portOut := by simp [Device.shiftFullAddress]
@[simp] theorem Device.shiftFullAddress_buf (d : Device) : (d.shiftFullAddress.1).buf = d.buf := by simp [Device.shiftFullAddress]
@[simp] theorem Device.shiftFullAddress_cmd (d : Device) : (d.shiftFullAddress.1).cmd = d.cmd := by simp [Device.shiftFullAddress]
@[simp] theorem Device.shiftFullAddress_dataPending (d : Device) : (d.shiftFullAddress.1).dataPending = d.dataPending := by simp [Device.shiftFullAddress]
@[simp] theorem Device.shiftFullAddress_dstate (d : Device) : (d.shiftFullAddress.1).dstate = d.dstate := by simp [Device.shiftFullAddress]
@[simp] theorem Device.shiftFullAddress_status (d : Device) : (d.shiftFullAddress.1).status = d.status := by simp [Device.shiftFullAddress]
@[simp] theorem Device.shiftFullAddress_pos (d : Device) : (d.shiftFullAddress.1).pos = d.pos := by simp [Device.shiftFullAddress]
@[simp] theorem Device.shiftFullAddress_localV (d : Device) : (d.shiftFullAddress.1).localV = d.localV := by simp [Device.shiftFullAddress]
@[simp] theorem Device.shiftFullAddress_localR (d : Device) : (d.shiftFullAddress.1).localR = d.localR := by simp [Device.shiftFullAddress]
@[simp] theorem Device.shiftFullAddress_params (d : Device) : (d.shiftFullAddress.1).params = d.params := by simp [Device.shiftFullAddress]
@[simp] theorem Device.shiftFullAddress_flash (d : Device) : (d.shiftFullAddress.1).flash = d.flash := by simp [Device.shiftFullAddress]
@[simp] theorem Device.shiftFullAddress_ready (d : Device) : (d.shiftFullAddress.1).ready = d.ready := by simp [Device.shiftFullAddress]

@[simp] theorem Device.shiftFullAddress_c (d : Device) : (d.shiftFullAddress.1).c = d.c.latched := by simp [Device.shiftFullAddress, ShiftReg.latched]
@[simp] theorem Device.shiftFullAddress_a1 (d : Device) : (d.shiftFullAddress.1).a1 = { S := d.addrLo, Q := d.addrLo } := by simp [Device.shiftFullAddress, ShiftReg.latched]

@[simp] theorem Device.shiftLowAddress_bank (d : Device) : (d.shiftLowAddress.1).bank = d.bank := by simp [Device.shiftLowAddress]
@[simp] theorem Device.shiftLowAddress_addrHi (d : Device) : (d.shiftLowAddress.1).addrHi = d.addrHi := by simp [Device.shiftLowAddress]
@[simp] theorem Device.shiftLowAddress_addrLo (d : Device) : (d.shiftLowAddress.1).addrLo = d.addrLo := by simp [Device.shiftLowAddress]
@[simp] theorem Device.shiftLowAddress_ctrl (d : Device) : (d.shiftLowAddress.1).ctrl = d.ctrl := by simp [Device.shiftLowAddress]
@[simp] theorem Device.shiftLowAddress_data (d : Device) : (d.shiftLowAddress.1).data = d.data := by simp [Device.shiftLowAddress]
@[simp] theorem Device.shiftLowAddress_portDir (d : Device) : (d.shiftLowAddress.1).portDir = d.portDir := by simp [Device.shiftLowAddress]
@[simp] theorem Device.shiftLowAddress_portOut (d : Device) : (d.shiftLowAddress.1).portOut = d.portOut := by simp [Device.shiftLowAddress]
@[simp] theorem Device.shiftLowAddress_buf (d : Device) : (d.shiftLowAddress.1).buf = d.buf := by simp [Device.shiftLowAddress]
@[simp] theorem Device.shiftLowAddress_cmd (d : Device) : (d.shiftLowAddress.1).cmd = d.cmd := by simp [Device.shiftLowAddress]
@[simp] theorem Device.shiftLowAddress_dataPending (d : Device) : (d.shiftLowAddress.1).dataPending = d.dataPending := by simp [Device.shiftLowAddress]
@[simp] theorem Device.shiftLowAddress_dstate (d : Device) : (d.shiftLowAddress.1).dstate = d.dstate := by simp [Device.shiftLowAddress]
@[simp] theorem Device.shiftLowAddress_status (d : Device) : (d.shiftLowAddress.1).status = d.status := by simp [Device.shiftLowAddress]
@[simp] theorem Device.shiftLowAddress_pos (d : Device) : (d.shiftLowAddress.1).pos = d.pos := by simp [Device.shiftLowAddress]
@[simp] theorem Device.shiftLowAddress_localV (d : Device) : (d.shiftLowAddress.1).localV = d.localV := by simp [Device.shiftLowAddress]
@[simp] theorem Device.shiftLowAddress_localR (d : Device) : (d.shiftLowAddress.1).localR = d.localR := by simp [Device.shiftLowAddress]
@[simp] theorem Device.shiftLowAddress_params (d : Device) : (d.shiftLowAddress.1).params = d.params := by simp [Device.shiftLowAddress]
@[simp] theorem Device.shiftLowAddress_flash (d : Device) : (d.shiftLowAddress.1).flash = d.flash := by simp [Device.shiftLowAddress]
@[simp] theorem Device.shiftLowAddress_ready (d : Device) : (d.shiftLowAddress.1).ready = d.ready := by simp [Device.shiftLowAddress]

@[simp] theorem Device.shiftLowAddress_c (d : Device) : (d.shiftLowAddress.1).c = d.c.latched := by simp [Device.shiftLowAddress, ShiftReg.latched]
@[simp] theorem Device.shiftLowAddress_a1 (d : Device) : (d.shiftLowAddress.1).a1 = { S := d.addrLo, Q := d.addrLo } := by simp [Device.shiftLowAddress, ShiftReg.latched]

@[simp] theorem Device.shiftFullAddress_a2 (d : Device) (h : d.pinOn .als = false) :
    d.shiftFullAddress.1.a2 = { S := d.addrHi, Q := d.addrHi } := by
  simp [Device.shiftFullAddress, ShiftReg.latched, h]
@[simp] theorem Device.shiftFullAddress_a2_gated (d : Device) (h : d.pinOn .als = true) :
    d.shiftFullAddress.1.a2 = d.a2.latched := by
  simp [Device.shiftFullAddress, ShiftReg.latched, h]
@[simp] theorem Device.shiftLowAddress_a2 (d : Device) (h : d.pinOn .als = true) :
    d.shiftLowAddress.1.a2 = d.a2.latched := by
  simp [Device.shiftLowAddress, ShiftReg.latched, h]

@[simp] theorem Device.dataLines_bank (d : Device) : (d.dataLines.2).bank = d.bank := by unfold Device.dataLines; split <;> (try split) <;> simp
@[simp] theorem Device.dataLines_addrHi (d : Device) : (d.dataLines.2).addrHi = d.addrHi := by unfold Device.dataLines; split <;> (try split) <;> simp
@[simp] theorem Device.dataLines_addrLo (d : Device) : (d.dataLines.2).addrLo = d.addrLo := by unfold Device.dataLines; split <;> (try split) <;> simp
@[simp] theorem Device.dataLines_ctrl (d : Device) : (d.dataLines.2).ctrl = d.ctrl := by unfold Device.dataLines; split <;> (try split) <;> simp
@[simp] theorem Device.dataLines_data (d : Device) : (d.dataLines.2).data = d.data := by unfold Device.dataLines; split <;> (try split) <;> simp
@[simp] theorem Device.dataLines_portDir (d : Device) : (d.dataLines.2).portDir = d.portDir := by unfold Device.dataLines; split <;> (try split) <;> simp
@[simp] theorem Device.dataLines_portOut (d : Device) : (d.dataLines.2).portOut = d.portOut := by unfold Device.dataLines; split <;> (try split) <;> simp
@[simp] theorem Device.dataLines_buf (d : Device) : (d.dataLines.2).buf = d.buf := by unfold Device.dataLines; split <;> (try split) <;> simp
@[simp] theorem Device.dataLines_cmd (d : Device) : (d.dataLines.2).cmd = d.cmd := by unfold Device.dataLines; split <;> (try split) <;> simp
@[simp] theorem Device.dataLines_dataPending (d : Device) : (d.dataLines.2).dataPending = d.dataPending := by unfold Device.dataLines; split <;> (try split) <;> simp
@[simp] theorem Device.dataLines_dstate (d : Device) : (d.dataLines.2).dstate = d.dstate := by unfold Device.dataLines; split <;> (try split) <;> simp
@[simp] theorem Device.dataLines_status (d : Device) : (d.dataLines.2).status = d.status := by unfold Device.dataLines; split <;> (try split) <;> simp
@[simp] theorem Device.dataLines_c (d : Device) : (d.dataLines.2).c = d.c := by unfold Device.dataLines; split <;> (try split) <;> simp
@[simp] theorem Device.dataLines_a1 (d : Device) : (d.dataLines.2).a1 = d.a1 := by unfold Device.dataLines; split <;> (try split) <;> simp
@[simp] theorem Device.dataLines_a2 (d : Device) : (d.dataLines.2).a2 = d.a2 := by unfold Device.dataLines; split <;> (try split) <;> simp
@[simp] theorem Device.dataLines_lines (d : Device) : (d.dataLines.2).lines = d.lines := by unfold Device.dataLines; split <;> (try split) <;> simp
@[simp] theorem Device.dataLines_pos (d : Device) : (d.dataLines.2).pos = d.pos := by unfold Device.dataLines; split <;> (try split) <;> simp
@[simp] theorem Device.dataLines_localV (d : Device) : (d.dataLines.2).localV = d.localV := by unfold Device.dataLines; split <;> (try split) <;> simp
@[simp] theorem Device.dataLines_localR (d : Device) : (d.dataLines.2).localR = d.localR := by unfold Device.dataLines; split <;> (try split) <;> simp
@[simp] theorem Device.dataLines_params (d : Device) : (d.dataLines.2).params = d.params := by unfold Device.dataLines; split <;> (try split) <;> simp
@[simp] theorem Device.dataLines_ready (d : Device) : (d.dataLines.2).ready = d.ready := by unfold Device.dataLines; split <;> (try split) <;> simp
@[simp] theorem Device.dataLines_fmem (d : Device) : (d.dataLines.2).fmem = d.fmem := by unfold Device.dataLines; split <;> (try split) <;> simp
@[simp] theorem Device.dataLines_fstate (d : Device) : (d.dataLines.2).fstate = d.fstate := by unfold Device.dataLines; split <;> (try split) <;> simp

@[simp] theorem Device.readyLine_bank (d : Device) : (d.readyLine.2).bank = d.bank := by unfold Device.readyLine; split <;> simp
@[simp] theorem Device.readyLine_addrHi (d : Device) : (d.readyLine.2).addrHi = d.addrHi := by unfold Device.readyLine; split <;> simp
@[simp] theorem Device.readyLine_addrLo (d : Device) : (d.readyLine.2).addrLo = d.addrLo := by unfold Device.readyLine; split <;> simp
@[simp] theorem Device.readyLine_ctrl (d : Device) : (d.readyLine.2).ctrl = d.ctrl := by unfold Device.readyLine; split <;> simp
@[simp] theorem Device.readyLine_data (d : Device) : (d.readyLine.2).data = d.data := by unfold Device.readyLine; split <;> simp
@[simp] theorem Device.readyLine_portDir (d : Device) : (d.readyLine.2).portDir = d.portDir := by unfold Device.readyLine; split <;> simp
@[simp] theorem Device.readyLine_portOut (d : Device) : (d.readyLine.2).portOut = d.portOut := by unfold Device.readyLine; split <;> simp
@[simp] theorem Device.readyLine_buf (d : Device) : (d.readyLine.2).buf = d.buf := by unfold Device.readyLine; split <;> simp
@[simp] theorem Device.readyLine_cmd (d : Device) : (d.readyLine.2).cmd = d.cmd := by unfold Device.readyLine; split <;> simp
@[simp] theorem Device.readyLine_dataPending (d : Device) : (d.readyLine.2).dataPending = d.dataPending := by unfold Device.readyLine; split <;> simp
@[simp] theorem Device.readyLine_dstate (d : Device) : (d.readyLine.2).dstate = d.dstate := by unfold Device.readyLine; split <;> simp
@[simp] theorem Device.readyLine_status (d : Device) : (d.readyLine.2).status = d.status := by unfold Device.readyLine; split <;> simp
@[simp] theorem Device.readyLine_c (d : Device) : (d.readyLine.2).c = d.c := by unfold Device.readyLine; split <;> simp
@[simp] theorem Device.readyLine_a1 (d : Device) : (d.readyLine.2).a1 = d.a1 := by unfold Device.readyLine; split <;> simp
@[simp] theorem Device.readyLine_a2 (d : Device) : (d.readyLine.2).a2 = d.a2 := by unfold Device.readyLine; split <;> simp
@[simp] theorem Device.readyLine_lines (d : Device) : (d.readyLine.2).lines = d.lines := by unfold Device.readyLine; split <;> simp
@[simp] theorem Device.readyLine_pos (d : Device) : (d.readyLine.2).pos = d.pos := by unfold Device.readyLine; split <;> simp
@[simp] theorem Device.readyLine_localV (d : Device) : (d.readyLine.2).localV = d.localV := by unfold Device.readyLine; split <;> simp
@[simp] theorem Device.readyLine_localR (d : Device) : (d.readyLine.2).localR = d.localR := by unfold Device.readyLine; split <;> simp
@[simp] theorem Device.readyLine_params (d : Device) : (d.readyLine.2).params = d.params := by unfold Device.readyLine; split <;> simp
@[simp] theorem Device.readyLine_flash (d : Device) : (d.readyLine.2).flash = d.flash := by unfold Device.readyLine; split <;> simp
@[simp] theorem Device.readyLine_fmem (d : Device) : (d.readyLine.2).fmem = d.fmem := by unfold Device.readyLine; split <;> simp
@[simp] theorem Device.readyLine_fstate (d : Device) : (d.readyLine.2).fstate = d.fstate := by unfold Device.readyLine; split <;> simp


/-! ### Updates of the machine -/

@[simp] theorem State.respond_toDevice (s : State) (h : Header) (x : Response) : (s.respond h x).toDevice = s.toDevice := rfl
@[simp] theorem State.respond_refused (s : State) (h : Header) (x : Response) : (s.respond h x).refused = s.refused := rfl
@[simp] theorem State.respond_link (s : State) (h : Header) (x : Response) : (s.respond h x).link = s.link := rfl
@[simp] theorem State.respond_trace (s : State) (h : Header) (x : Response) : (s.respond h x).trace = .respond h x :: s.trace := rfl
@[simp] theorem State.respond_rxDraws (s : State) (h : Header) (x : Response) : (s.respond h x).rxDraws = s.rxDraws := rfl

@[simp] theorem State.refuse_toDevice (s : State) : (s.refuse).toDevice = s.toDevice := rfl
@[simp] theorem State.refuse_refused (s : State) : (s.refuse).refused = true := rfl
@[simp] theorem State.refuse_link (s : State) : (s.refuse).link = s.link := rfl
@[simp] theorem State.refuse_trace (s : State) : (s.refuse).trace = s.trace := rfl
@[simp] theorem State.refuse_rxDraws (s : State) : (s.refuse).rxDraws = s.rxDraws := rfl

@[simp] theorem State.rxGetData_toDevice (s : State) (h : Header) : (s.rxGetData h).toDevice = s.toDevice := rfl
@[simp] theorem State.rxGetData_refused (s : State) (h : Header) : (s.rxGetData h).refused = s.refused := rfl
@[simp] theorem State.rxGetData_link (s : State) (h : Header) : (s.rxGetData h).link = s.link := rfl
@[simp] theorem State.rxGetData_trace (s : State) (h : Header) : (s.rxGetData h).trace = .respond h s.dataAnswer :: s.trace := rfl
@[simp] theorem State.rxGetData_rxDraws (s : State) (h : Header) : (s.rxGetData h).rxDraws = s.rxDraws + 1 := rfl

@[simp] theorem State.rxReadFetch_toDevice (s : State) (h : Header) : (s.rxReadFetch h).toDevice = s.toDevice := rfl
@[simp] theorem State.rxReadFetch_refused (s : State) (h : Header) : (s.rxReadFetch h).refused = s.refused := rfl
@[simp] theorem State.rxReadFetch_link (s : State) (h : Header) : (s.rxReadFetch h).link = s.link := rfl
@[simp] theorem State.rxReadFetch_trace (s : State) (h : Header) : (s.rxReadFetch h).trace = .respond h s.bufferAnswer :: s.trace := rfl
@[simp] theorem State.rxReadFetch_rxDraws (s : State) (h : Header) : (s.rxReadFetch h).rxDraws = s.rxDraws + 64 := rfl

@[simp] theorem State.dropCommand_toDevice (s : State) (i : Instr) : (s.dropCommand i).toDevice = s.toDevice := rfl
@[simp] theorem State.dropCommand_refused (s : State) (i : Instr) : (s.dropCommand i).refused = s.refused := rfl
@[simp] theorem State.dropCommand_link (s : State) (i : Instr) : (s.dropCommand i).link = s.link := rfl
@[simp] theorem State.dropCommand_trace (s : State) (i : Instr) : (s.dropCommand i).trace = .respond (encode i) .ack :: s.trace := rfl
@[simp] theorem State.dropCommand_rxDraws (s : State) (i : Instr) : (s.dropCommand i).rxDraws = s.rxDraws := rfl

@[simp] theorem State.intoMailbox_toDevice (s : State) (i : Instr) : (s.intoMailbox i).toDevice = { s.toDevice with
      cmd := some (Command.ofHeader (encode i))
      dstate := .commandReceived
      dataPending := if i.isWrite then 64 else s.dataPending } := rfl
@[simp] theorem State.intoMailbox_refused (s : State) (i : Instr) : (s.intoMailbox i).refused = s.refused := rfl
@[simp] theorem State.intoMailbox_link (s : State) (i : Instr) : (s.intoMailbox i).link = s.link := rfl
@[simp] theorem State.intoMailbox_trace (s : State) (i : Instr) : (s.intoMailbox i).trace = s.trace := rfl
@[simp] theorem State.intoMailbox_rxDraws (s : State) (i : Instr) : (s.intoMailbox i).rxDraws = s.rxDraws := rfl

@[simp] theorem State.accept_toDevice (s : State) (i : Instr) : (s.accept i).toDevice = { s.toDevice with
      cmd := some (Command.ofHeader (encode i))
      dstate := .commandReceived
      dataPending := if i.isWrite then 64 else s.dataPending } := rfl
@[simp] theorem State.accept_refused (s : State) (i : Instr) : (s.accept i).refused = s.refused := rfl
@[simp] theorem State.accept_link (s : State) (i : Instr) : (s.accept i).link = s.link := rfl
@[simp] theorem State.accept_trace (s : State) (i : Instr) : (s.accept i).trace = .respond (encode i) .ack :: s.trace := rfl
@[simp] theorem State.accept_rxDraws (s : State) (i : Instr) : (s.accept i).rxDraws = s.rxDraws := rfl

@[simp] theorem State.rxData_toDevice (s : State) (seg : List Byte) : (s.rxData seg).toDevice = s.toDevice.dataSegment seg := rfl
@[simp] theorem State.rxData_refused (s : State) (seg : List Byte) : (s.rxData seg).refused = s.refused := rfl
@[simp] theorem State.rxData_link (s : State) (seg : List Byte) : (s.rxData seg).link = s.link := rfl
@[simp] theorem State.rxData_trace (s : State) (seg : List Byte) : (s.rxData seg).trace = s.trace := rfl
@[simp] theorem State.rxData_rxDraws (s : State) (seg : List Byte) : (s.rxData seg).rxDraws = s.rxDraws := rfl

@[simp] theorem State.withDevice_toDevice (s : State) (r : Device × List Event) : (s.withDevice r).toDevice = r.1 := rfl
@[simp] theorem State.withDevice_refused (s : State) (r : Device × List Event) : (s.withDevice r).refused = s.refused := rfl
@[simp] theorem State.withDevice_link (s : State) (r : Device × List Event) : (s.withDevice r).link = s.link := rfl
@[simp] theorem State.withDevice_trace (s : State) (r : Device × List Event) : (s.withDevice r).trace = r.2.reverse ++ s.trace := rfl
@[simp] theorem State.withDevice_rxDraws (s : State) (r : Device × List Event) : (s.withDevice r).rxDraws = s.rxDraws := rfl

@[simp] theorem State.dspMove_toDevice (s : State) : (s.dspMove).toDevice = s.toDevice.dspStep.1 := rfl
@[simp] theorem State.dspMove_refused (s : State) : (s.dspMove).refused = s.refused := rfl
@[simp] theorem State.dspMove_link (s : State) : (s.dspMove).link = countDown s.link := rfl
@[simp] theorem State.dspMove_trace (s : State) : (s.dspMove).trace = s.toDevice.dspStep.2.reverse ++ s.trace := rfl
@[simp] theorem State.dspMove_rxDraws (s : State) : (s.dspMove).rxDraws = s.rxDraws := rfl

end Sys2Proof.Machine
end

