-- ==== Sys2Proof/Laws/Run.lean ====
section
/-! SUPPORT. Running a command: `Device.finalRun` is what DSP makes of a running device on its own, to the end;
`runCommand` is that, whatever RX does in between (R136, R143). A claim about a command's result cites
`exec_command` and then only computes on the device. -/

namespace Sys2Proof.Machine

open Sys2Proof

/-! ### DSP on its own -/

/-- DSP's steps while it is inside its pseudocode, at most `n`, with their events. -/
def Device.runN : Nat → Device → Device × List Event
  | 0, d => (d, [])
  | n + 1, d =>
    if d.running then ((Device.runN n d.statement.1).1, d.statement.2 ++ (Device.runN n d.statement.1).2) else (d, [])

/-- DSP's steps to the end of the running command. -/
def Device.finalRun (d : Device) : Device × List Event := d.runN (stepBound d.pos + 1)

theorem Device.running_iff (d : Device) : d.running = true ↔ d.dstate = .initialising ∨ d.dstate = .executing := by
  simp [Device.running]

theorem Stmt.cost_pos (st : Stmt) : 0 < st.cost := by cases st <;> simp [Stmt.cost]

/-- A statement leaves the mailbox and the amount of data owed as they are. -/
theorem Stmt.exec_mailbox (st : Stmt) (d : Device) :
    (st.exec d).1.cmd = d.cmd ∧ (st.exec d).1.dataPending = d.dataPending ∧ (st.exec d).1.params = d.params := by
  cases st with
  | poll k =>
    cases k with
    | zero => simp [Stmt.exec]
    | succ k => simp only [Stmt.exec, Device.pollSample]; split <;> simp
  | loadLowAssert => simp only [Stmt.exec]; split <;> simp
  | loadLowShift => simp only [Stmt.exec]; split <;> simp
  | eraseCheck => simp only [Stmt.exec]; split <;> simp
  | _ => simp [Stmt.exec]

/-- A statement ends in the dispatcher state it began in, or in IDLE (R262), or in TERMINATED (R142). -/
theorem Stmt.exec_dstate (st : Stmt) (d : Device) :
    (st.exec d).1.dstate = d.dstate ∨ (st.exec d).1.dstate = .idle ∨ (st.exec d).1.dstate = .terminated := by
  cases st with
  | poll k =>
    cases k with
    | zero => simp [Stmt.exec]
    | succ k => simp only [Stmt.exec, Device.pollSample]; split <;> simp
  | loadLowAssert => simp only [Stmt.exec]; split <;> simp
  | loadLowShift => simp only [Stmt.exec]; split <;> simp
  | eraseCheck => simp only [Stmt.exec]; split <;> simp
  | _ => simp [Stmt.exec]

/-- A statement leaves at most the cost of what stood after it, and one step less than its own cost. -/
theorem Stmt.exec_cost (st : Stmt) (d : Device) : stepBound (st.exec d).1.pos < st.cost + stepBound d.pos := by
  have hp := st.cost_pos
  cases st with
  | poll k =>
    cases k with
    | zero => simp [Stmt.exec, stepBound, Stmt.cost]
    | succ k => simp only [Stmt.exec, Device.pollSample]; split <;> simp [stepBound, Stmt.cost]
  | loadLowAssert => simp only [Stmt.exec]; split <;> simp [Stmt.cost]
  | loadLowShift => simp only [Stmt.exec]; split <;> simp [Stmt.cost]
  | eraseCheck => simp only [Stmt.exec]; split <;> simp [Stmt.cost, stepBound]
  | fail st => simp [Stmt.exec, stepBound, Stmt.cost]
  | enterIdle => simp [Stmt.exec, stepBound, Stmt.cost]
  | _ => simp [Stmt.exec, Stmt.cost]

theorem Device.finish_cases (d : Device) :
    (d.pos = [] ∧ d.dstate ≠ .terminated ∧ d.finish = d.complete) ∨
      ((d.pos ≠ [] ∨ d.dstate = .terminated) ∧ d.finish = d) := by
  unfold Device.finish
  split
  · left; simp_all
  · right; rename_i h; refine ⟨?_, rfl⟩
    by_cases hp : d.pos = []
    · right; by_contra hd; exact h ⟨hp, hd⟩
    · left; exact hp

theorem Device.finish_cost (d : Device) : stepBound d.finish.pos ≤ stepBound d.pos := by
  rcases d.finish_cases with ⟨_, _, h⟩ | ⟨_, h⟩ <;> simp [h, stepBound]

/-- One DSP step inside the pseudocode ends the run or lowers the cost of what is left (R145). -/
theorem Device.statement_cost (d : Device) :
    d.statement.1.running = false ∨ stepBound d.statement.1.pos < stepBound d.pos := by
  unfold Device.statement
  split
  · left; simp [Device.running]
  · rename_i st rest h
    right
    have h1 := (st.exec (d.withPos rest)).1.finish_cost
    have h2 := st.exec_cost (d.withPos rest)
    simp only [h, stepBound]
    exact lt_of_le_of_lt h1 h2

theorem Device.statement_dataPending (d : Device) : d.statement.1.dataPending = d.dataPending := by
  unfold Device.statement
  split
  · simp
  · rename_i st rest h
    have h1 := (st.exec_mailbox (d.withPos rest)).2.1
    rcases (st.exec (d.withPos rest)).1.finish_cases with ⟨_, _, e⟩ | ⟨_, e⟩ <;> simp [e, h1]

/-- DSP executing stays in EXECUTING, or returns to IDLE, or terminates: the initialisation is not entered again. -/
theorem Device.statement_dstate (d : Device) (h : d.dstate = .executing) :
    d.statement.1.dstate = .executing ∨ d.statement.1.dstate = .idle ∨ d.statement.1.dstate = .terminated := by
  unfold Device.statement
  split
  · simp
  · rename_i st rest _
    have h1 := st.exec_dstate (d.withPos rest)
    rcases (st.exec (d.withPos rest)).1.finish_cases with ⟨_, _, e⟩ | ⟨_, e⟩
    · simp [e]
    · rcases h1 with h1 | h1 | h1 <;> simp [e, h1, h]

/-- A run that has ended stays as it is. -/
theorem Device.runN_stopped (n : Nat) (d : Device) (h : d.running = false) : d.runN n = (d, []) := by
  cases n <;> simp [Device.runN, h]

/-- Steps beyond the cost change nothing more. -/
theorem Device.runN_add (b n : Nat) : ∀ (d : Device), stepBound d.pos < n → d.runN (n + b) = d.runN n := by
  induction n with
  | zero => intro d h; omega
  | succ n ih =>
    intro d h
    rw [Nat.add_right_comm]
    simp only [Device.runN]
    split
    · rcases d.statement_cost with hs | hs
      · simp [Device.runN_stopped _ _ hs]
      · rw [ih d.statement.1 (by omega)]
    · rfl

theorem Device.runN_stops (n : Nat) : ∀ (d : Device), stepBound d.pos < n → (d.runN n).1.running = false := by
  induction n with
  | zero => intro d h; omega
  | succ n ih =>
    intro d h
    simp only [Device.runN]
    split
    · rcases d.statement_cost with hs | hs
      · simp [Device.runN_stopped _ _ hs, hs]
      · exact ih _ (by omega)
    · rename_i hr; simpa using hr

theorem Device.runN_enough (n : Nat) (d : Device) (h : stepBound d.pos < n) : d.runN n = d.finalRun := by
  have := d.runN_add (n - (stepBound d.pos + 1)) (stepBound d.pos + 1) (by omega)
  rwa [Nat.add_sub_cancel' h] at this

/-- The end of a run is a state in which DSP is not inside its pseudocode (R145). -/
theorem Device.finalRun_stopped (d : Device) : d.finalRun.1.running = false :=
  d.runN_stops _ (by omega)

/-- A run is its first statement, then the rest of the run. -/
theorem Device.finalRun_step (d : Device) (h : d.running = true) :
    d.finalRun = (d.statement.1.finalRun.1, d.statement.2 ++ d.statement.1.finalRun.2) := by
  conv_lhs => unfold Device.finalRun
  simp only [Device.runN, h, if_true]
  rcases d.statement_cost with hs | hs
  · have e : d.statement.1.finalRun = (d.statement.1, []) := Device.runN_stopped _ _ hs
    rw [e, Device.runN_stopped _ _ hs]
  · rw [d.statement.1.runN_enough _ hs]

theorem Device.finalRun_done (d : Device) (h : d.running = false) : d.finalRun = (d, []) :=
  Device.runN_stopped _ d h

/-! ### RX in between (R136, R143) -/

@[simp] theorem Device.dataSegment_none (d : Device) (seg : List Byte) (h : d.dataPending = 0) :
    d.dataSegment seg = d := by
  induction seg with
  | nil => rfl
  | cons b t ih =>
    have : d.dataByte b = d := by simp [Device.dataByte, h]
    simpa [Device.dataSegment, this] using ih

/-- RX on a command while one is running: the ack, and nothing else (R132). -/
theorem State.rxCommand_executing (s : State) (i : Instr) (h : s.dstate = .executing) :
    s.rxCommand i = s.dropCommand i := by simp [State.rxCommand, h]

/-- RX writes nothing of the device while a command is running (R143). -/
theorem State.rxInstr_executing (s : State) (i : Instr) (h : s.dstate = .executing) :
    (s.rxInstr i).toDevice = s.toDevice ∧ (s.rxInstr i).link = s.link := by
  cases i <;> simp [State.rxInstr, State.rxCommand_executing s _ h]

theorem State.busEvents_respond (s : State) (h : Header) (x : Response) : (s.respond h x).busEvents = s.busEvents := by
  simp [State.busEvents, State.events, Event.isRespond, List.filter_append]

/-- What RX adds to the trace is an answer. -/
theorem State.busEvents_of_trace {s t : State} (h : Header) (x : Response) (e : t.trace = .respond h x :: s.trace) :
    t.busEvents = s.busEvents := by
  simp [State.busEvents, State.events, e, Event.isRespond, List.filter_append]

theorem State.busEvents_congr {s t : State} (e : t.trace = s.trace) : t.busEvents = s.busEvents := by
  simp [State.busEvents, State.events, e]

theorem State.rxInstr_executing_busEvents (s : State) (i : Instr) (h : s.dstate = .executing) :
    (s.rxInstr i).busEvents = s.busEvents := by
  cases i <;> simp only [State.rxInstr, State.rxCommand_executing s _ h]
  all_goals first
    | exact State.busEvents_of_trace _ _ (State.dropCommand_trace ..)
    | exact State.busEvents_of_trace _ _ (State.rxGetData_trace ..)
    | exact State.busEvents_of_trace _ _ (State.rxReadFetch_trace ..)

/-- One RX step while a command is running: the device and DSP's part of the trace stay, one input is used up. -/
theorem State.rxStep_executing (s : State) (a : Arrival) (rest : List Arrival) (hl : s.link = a :: rest)
    (h : s.dstate = .executing) (hd : s.dataPending = 0) :
    s.rxStep.toDevice = s.toDevice ∧ s.rxStep.link = rest ∧ s.rxStep.busEvents = s.busEvents := by
  have hs : s.rxStep = State.rxInput { s with link := rest } a.input := by simp [State.rxStep, hl]
  rw [hs]
  cases a.input with
  | data seg =>
    refine ⟨?_, rfl, State.busEvents_congr rfl⟩
    simp [State.rxInput, hd]
  | header hh =>
    simp only [State.rxInput, State.rxHeader]
    cases decode hh with
    | unsupported =>
      exact ⟨rfl, rfl, State.busEvents_of_trace (s := s) _ _ rfl⟩
    | refused r => exact ⟨rfl, rfl, State.busEvents_congr rfl⟩
    | ok i =>
      have h1 := State.rxInstr_executing { s with link := rest } i h
      refine ⟨h1.1, h1.2, ?_⟩
      exact (State.rxInstr_executing_busEvents { s with link := rest } i h).trans (State.busEvents_congr rfl)

theorem countDown_length (l : List Arrival) : (countDown l).length = l.length := by
  cases l <;> simp [countDown]

theorem Device.statement_no_answers (d : Device) : ∀ e ∈ d.statement.2, e.isRespond = false := by
  have latchE : ∀ x : Device, ∀ e ∈ x.latch.2, e.isRespond = false := by
    intro x e he; unfold Device.latch at he; split at he <;> simp_all [Event.isRespond]
  have shiftE : ∀ c dt bits, ∀ e ∈ shiftEvents c dt bits, e.isRespond = false := by
    intro c dt bits e he
    simp only [shiftEvents, List.mem_append, List.mem_cons, List.mem_flatMap] at he
    rcases he with (he | ⟨b, _, he⟩) | he
    · simp_all [Event.isRespond]
    · simp at he; rcases he with he | he | he <;> simp [he, Event.isRespond]
    · simp_all [Event.isRespond]
  have ctl : ∀ x : Device, ∀ e ∈ x.shiftControl.2, e.isRespond = false := by
    intro x e he
    simp only [Device.shiftControl, List.mem_append] at he
    exact he.elim (shiftE _ _ _ e) (latchE _ e)
  have full : ∀ x : Device, ∀ e ∈ x.shiftFullAddress.2, e.isRespond = false := by
    intro x e he
    simp only [Device.shiftFullAddress, List.mem_append] at he
    exact he.elim (shiftE _ _ _ e) (latchE _ e)
  have low : ∀ x : Device, ∀ e ∈ x.shiftLowAddress.2, e.isRespond = false := by
    intro x e he
    simp only [Device.shiftLowAddress, List.mem_append] at he
    exact he.elim (shiftE _ _ _ e) (latchE _ e)
  have ex : ∀ (st : Stmt) (x : Device), ∀ e ∈ (st.exec x).2, e.isRespond = false := by
    intro st x e he
    cases st with
    | poll k =>
      cases k with
      | zero => simp [Stmt.exec] at he
      | succ k => simp only [Stmt.exec, Device.pollSample] at he; split at he <;> simp_all [Event.isRespond]
    | loadLowAssert => simp only [Stmt.exec] at he; split at he <;> simp at he
    | loadLowShift =>
      simp only [Stmt.exec] at he; split at he
      · simp at he
      · exact ctl _ e he
    | eraseCheck => simp only [Stmt.exec] at he; split at he <;> simp at he
    | shiftControl => exact ctl _ e he
    | shiftFullAddress => exact full _ e he
    | shiftLowAddress => exact low _ e he
    | sampleData =>
      simp [Stmt.exec, Device.sampleEvents] at he; rcases he with he | he <;> simp [he, Event.isRespond]
    | sampleBuf i =>
      simp [Stmt.exec, Device.sampleEvents] at he; rcases he with he | he <;> simp [he, Event.isRespond]
    | _ => simp [Stmt.exec] at he <;> simp [he, Event.isRespond]
  intro e he
  unfold Device.statement at he
  split at he
  · simp at he
  · exact ex _ _ e he

theorem State.dspMove_busEvents (s : State) (h : s.running = true) :
    s.dspMove.busEvents = s.busEvents ++ s.toDevice.statement.2 := by
  have e : s.toDevice.dspStep = s.toDevice.statement := by simp [Device.dspStep, h]
  have f : s.toDevice.statement.2.filter (fun e => !e.isRespond) = s.toDevice.statement.2 := by
    rw [List.filter_eq_self]
    intro x hx; simp [s.toDevice.statement_no_answers x hx]
  simp [State.busEvents, State.events, e, List.filter_append, f]

/-- RX never moves before the first IDLE. -/
theorem State.rxMoves_initialising (s : State) (h : s.dstate = .initialising) : s.rxMoves = false := by
  unfold State.rxMoves; split <;> simp [h]

/-- A running command with RX in between is DSP on its own, as far as the device and the bus go. -/
theorem State.runTicks_device (n : Nat) : ∀ (s : State), s.dataPending = 0 → stepBound s.pos + s.link.length < n →
    (State.runTicks n s).toDevice = s.toDevice.finalRun.1 ∧
      (State.runTicks n s).busEvents = s.busEvents ++ s.toDevice.finalRun.2 := by
  induction n with
  | zero => intro s _ h; omega
  | succ n ih =>
    intro s hd hc
    by_cases hr : s.running = true
    · simp only [State.runTicks, hr, if_true, State.tick]
      split
      · rename_i hm
        have hx : s.dstate = .executing := by
          rcases (Device.running_iff _).1 hr with h | h
          · rw [State.rxMoves_initialising s h] at hm; exact absurd hm (by decide)
          · exact h
        cases hl : s.link with
        | nil => simp [State.rxMoves, hl] at hm
        | cons a rest =>
          obtain ⟨e1, e2, e3⟩ := s.rxStep_executing a rest hl hx hd
          have := ih s.rxStep (by rw [e1]; exact hd) (by rw [e1, e2]; simp [hl] at hc; omega)
          rw [e1, e3] at this
          exact this
      · have e : s.toDevice.dspStep = s.toDevice.statement := by simp [Device.dspStep, hr]
        have hd' : s.dspMove.dataPending = 0 := by simp [e, Device.statement_dataPending, hd]
        have step := s.toDevice.finalRun_step hr
        rcases s.toDevice.statement_cost with hs | hs
        · have stop : s.dspMove.running = false := by simpa [e] using hs
          have : State.runTicks n s.dspMove = s.dspMove := by
            cases n with
            | zero => rfl
            | succ n => rw [State.runTicks, stop]; rfl
          rw [this, step, Device.finalRun_done _ hs, State.dspMove_busEvents s hr]
          simp [e]
        · have := ih s.dspMove hd' (by simp [e, countDown_length]; omega)
          simp only [State.dspMove_toDevice, e] at this
          rw [this.1, this.2, step, State.dspMove_busEvents s hr]
          simp
    · have hr' : s.running = false := by simpa using hr
      simp [State.runTicks, hr', Device.finalRun_done _ hr']

/-- What a running command makes of the device and of the bus does not depend on what the host sends meanwhile. -/
theorem State.runCommand_device (s : State) (hd : s.dataPending = 0) :
    s.runCommand.toDevice = s.toDevice.finalRun.1 ∧
      s.runCommand.busEvents = s.busEvents ++ s.toDevice.finalRun.2 :=
  State.runTicks_device _ s hd (by simp only [State.fuel]; omega)

/-! ### From acceptance to the end -/

/-- A command accepted with no input before its start: DSP runs its statements from the accepted device. -/
def State.launched (s : State) (i : Instr) : Device :=
  Device.startWith
    { s.toDevice with cmd := some (Command.ofHeader (encode i)), dstate := .commandReceived, dataPending := 0 } i

theorem Command.header_ofHeader (h : Header) : (Command.ofHeader h).header = h := rfl

/-- A command other than WRITE whose header decodes to it, sent to a ready controller: the device ends as DSP leaves
it, and the bus shows DSP's events, whatever the host sends later. -/
theorem State.command_ready (s : State) (i : Instr) (hs : s.Ready) (hdec : decode (encode i) = .ok i)
    (hw : i.isWrite = false) :
    (s.command i).toDevice = (s.launched i).finalRun.1 ∧
      (s.command i).busEvents = s.busEvents ++ (s.launched i).finalRun.2 := by
  have hq : ∀ a rest, s.link = a :: rest → (a.delay == 0) = false := by
    intro a rest hl
    have := hs.quiet
    simp [hl, noneDue] at this
    simpa using this
  have hmv : (s.accept i).rxMoves = false := by
    unfold State.rxMoves
    cases hl : s.link with
    | nil => simp [hl]
    | cons a rest => simp [hl, hw, hs.noData, hq a rest hl]
  have ht : State.takeInputs (s.accept i).link.length (s.accept i) = s.accept i := by
    cases h : (s.accept i).link.length <;> simp [State.takeInputs, hmv]
  have hst : (s.accept i).startable = true := by simp [Device.startable, hw, hs.noData]
  have hrun : (s.accept i).running = false := by simp [Device.running]
  have hmail : (s.accept i).toDevice.mail = some i := by
    simp [Device.mail, Command.header_ofHeader, hdec]
  have hstep : (s.accept i).toDevice.dspStep = (s.launched i, []) := by
    simp only [Device.dspStep, hrun, hst, Device.start, hmail]
    simp [State.launched, hw, hs.noData]
  have hc : s.command i = (s.accept i).dspMove.runCommand := by
    simp only [State.command, hs.idle, State.settle, ht, hst, if_true]
  rw [hc]
  have hdev : (s.accept i).dspMove.toDevice = s.launched i := by rw [State.dspMove_toDevice, hstep]
  have hbus : (s.accept i).dspMove.busEvents = s.busEvents := by
    refine State.busEvents_of_trace (encode i) .ack ?_
    rw [State.dspMove_trace, hstep]
    rfl
  have := State.runCommand_device (s.accept i).dspMove (by rw [hdev]; rfl)
  rw [hdev, hbus] at this
  exact this

theorem State.onHeader_ready (s t : State) (h1 : s.dstate ≠ .initialising) (h2 : s.dstate ≠ .terminated)
    (h3 : s.dataPending = 0) : s.onHeader t = .next t := by
  unfold State.onHeader
  split <;> simp_all

theorem State.Ready.onHeader {s : State} (hs : s.Ready) (t : State) : s.onHeader t = .next t :=
  s.onHeader_ready t (by simp [hs.idle]) (by simp [hs.idle]) hs.noData

/-! ### Steps as atomic steps (R136, R228) -/

theorem State.atomicStep_idle {s : State} (h : s.dstate = .idle) : s.atomicStep = s.rxStep := by
  simp [State.atomicStep, h]

theorem State.atomicStep_busy {s : State} (h : s.dstate ≠ .idle) : s.atomicStep = s.tick := by
  simp [State.atomicStep, h]

/-- With nothing left on the link, no atomic step puts anything there. -/
theorem State.atomicStep_link_nil {s : State} (h : s.link = []) : s.atomicStep.link = [] := by
  by_cases hi : s.dstate = .idle
  · rw [State.atomicStep_idle hi, State.rxStep, h]; exact h
  · have hm : s.rxMoves = false := by simp [State.rxMoves, h]
    rw [State.atomicStep_busy hi, State.tick, if_neg (by simp [hm])]
    simp [State.dspMove, h, countDown]

theorem State.iterate_link_nil (n : Nat) : ∀ {s : State}, s.link = [] → (State.atomicStep^[n] s).link = [] := by
  induction n with
  | zero => intro s h; exact h
  | succ n ih => intro s h; exact ih (State.atomicStep_link_nil h)

/-- RX on a request leaves the link alone. -/
theorem State.rxInstr_link (s : State) (i : Instr) : (s.rxInstr i).link = s.link := by
  have hc : (s.rxCommand i).link = s.link := by
    unfold State.rxCommand
    cases s.dstate <;> simp only [State.raceCommand] <;> try split
    all_goals rfl
  cases i <;> first
    | exact hc
    | rfl

/-- RX on a header leaves the link alone. -/
theorem State.rxHeader_link (s : State) (h : Header) : (s.rxHeader h).link = s.link := by
  unfold State.rxHeader
  cases decode h with
  | unsupported => rfl
  | refused r => rfl
  | ok i => exact s.rxInstr_link i

/-- Ticks of a running command are atomic steps. -/
theorem State.runTicks_atomic (k : Nat) : ∀ s : State, ∃ n, State.runTicks k s = State.atomicStep^[n] s := by
  induction k with
  | zero => intro s; exact ⟨0, rfl⟩
  | succ k ih =>
    intro s
    by_cases hr : s.running = true
    · obtain ⟨n, hn⟩ := ih s.tick
      have hi : s.dstate ≠ .idle := by
        rcases (Device.running_iff _).1 hr with h | h <;> simp [h]
      exact ⟨n + 1, by
        simp only [State.runTicks, hr, if_true, hn, Function.iterate_succ_apply, State.atomicStep_busy hi]⟩
    · exact ⟨0, by simp [State.runTicks, hr]⟩

/-- The inputs taken before a start are atomic steps. -/
theorem State.takeInputs_atomic (k : Nat) : ∀ s : State, ∃ n, State.takeInputs k s = State.atomicStep^[n] s := by
  induction k with
  | zero => intro s; exact ⟨0, rfl⟩
  | succ k ih =>
    intro s
    by_cases hm : (s.rxMoves && s.dstate == .commandReceived) = true
    · obtain ⟨n, hn⟩ := ih s.rxStep
      obtain ⟨h1, h2⟩ : s.rxMoves = true ∧ s.dstate = .commandReceived := by simpa using hm
      refine ⟨n + 1, ?_⟩
      simp only [State.takeInputs, hm, if_true, hn, Function.iterate_succ_apply]
      rw [State.atomicStep_busy (by simp [h2]), State.tick, if_pos h1]
    · exact ⟨0, by simp only [State.takeInputs, hm]; rfl⟩

end Sys2Proof.Machine
end

