-- ==== Sys2Proof/Laws/Statements.lean ====
section
/-! SUPPORT. Running a list of statements: a straight-line stretch of a program is `execAll`, and the run goes on with
what stands after it; a poll, an erase check, a failure, the end of the initialisation and BOOTLOADER are the five places where it need
not. -/

namespace Sys2Proof.Machine

open Sys2Proof

/-- The statements after which the next one always runs: all but a poll, an erase check, a failure and the two that
write the dispatcher state. -/
def Stmt.straight : Stmt → Bool
  | .poll _ => false
  | .eraseCheck => false
  | .fail _ => false
  | .enterIdle => false
  | .terminate => false
  | _ => true

/-- Statements one after another, with their events. -/
def execAll : List Stmt → Device → Device × List Event
  | [], d => (d, [])
  | st :: rest, d => ((execAll rest (st.exec d).1).1, (st.exec d).2 ++ (execAll rest (st.exec d).1).2)

@[simp] theorem execAll_nil (d : Device) : execAll [] d = (d, []) := rfl

theorem execAll_cons (st : Stmt) (rest : List Stmt) (d : Device) :
    execAll (st :: rest) d = ((execAll rest (st.exec d).1).1, (st.exec d).2 ++ (execAll rest (st.exec d).1).2) := rfl

theorem execAll_append (l1 l2 : List Stmt) (d : Device) :
    execAll (l1 ++ l2) d = ((execAll l2 (execAll l1 d).1).1, (execAll l1 d).2 ++ (execAll l2 (execAll l1 d).1).2) := by
  induction l1 generalizing d with
  | nil => simp
  | cons st t ih => simp [execAll_cons, ih]

/-! ### The position does not matter to what a statement does -/

@[simp] theorem Device.withPos_withPos (d : Device) (p q : List Stmt) : (d.withPos p).withPos q = d.withPos q := rfl

theorem Device.withPos_self (d : Device) : d.withPos d.pos = d := rfl

theorem Device.draw_withPos (d : Device) (p : List Stmt) : (d.withPos p).draw = (d.draw.1, d.draw.2.withPos p) := rfl

theorem Device.readSlot_withPos (d : Device) (p : List Stmt) (x : Slot) :
    (d.withPos p).readSlot x = ((d.readSlot x).1, (d.readSlot x).2.withPos p) := by cases x <;> rfl

theorem Device.writeData_withPos (d : Device) (p : List Stmt) :
    (d.withPos p).writeData = (d.writeData.1, d.writeData.2.withPos p) := by
  unfold Device.writeData
  simp only [Device.withPos_portDir, Device.withPos_portOut]
  split
  · exact d.readSlot_withPos p _
  · rfl

theorem Device.latch_withPos (d : Device) (p : List Stmt) : (d.withPos p).latch = (d.latch.1.withPos p, d.latch.2) := by
  have h : (d.withPos p).weRises = d.weRises := rfl
  have ha : (d.withPos p).pinAddr = d.pinAddr := rfl
  unfold Device.latch
  rw [h, ha, Device.writeData_withPos]
  split <;> rfl

theorem Device.shiftControl_withPos (d : Device) (p : List Stmt) :
    (d.withPos p).shiftControl = (d.shiftControl.1.withPos p, d.shiftControl.2) := by
  have h : (d.withPos p).controlShifted = d.controlShifted.withPos p := rfl
  simp only [Device.shiftControl, h, Device.latch_withPos, Device.withPos_ctrl, Device.withPos_bank]

theorem Device.shiftFullAddress_withPos (d : Device) (p : List Stmt) :
    (d.withPos p).shiftFullAddress = (d.shiftFullAddress.1.withPos p, d.shiftFullAddress.2) := by
  have h : (d.withPos p).fullShifted = d.fullShifted.withPos p := rfl
  simp only [Device.shiftFullAddress, h, Device.latch_withPos, Device.withPos_addrHi, Device.withPos_addrLo]

theorem Device.shiftLowAddress_withPos (d : Device) (p : List Stmt) :
    (d.withPos p).shiftLowAddress = (d.shiftLowAddress.1.withPos p, d.shiftLowAddress.2) := by
  have h : (d.withPos p).lowShifted = d.lowShifted.withPos p := rfl
  simp only [Device.shiftLowAddress, h, Device.latch_withPos, Device.withPos_addrLo]

theorem Device.dataLines_withPos (d : Device) (p : List Stmt) :
    (d.withPos p).dataLines = (d.dataLines.1, d.dataLines.2.withPos p) := by
  have h : (d.withPos p).flashDrives = d.flashDrives := rfl
  unfold Device.dataLines
  rw [h]
  simp only [Device.withPos_flash]
  split
  · split <;> rfl
  · rfl

theorem Device.readyLine_withPos (d : Device) (p : List Stmt) :
    (d.withPos p).readyLine = (d.readyLine.1, d.readyLine.2.withPos p) := by
  unfold Device.readyLine
  simp only [Device.withPos_ready]
  split <;> rfl

/-- A straight statement does the same at every position, and leaves the position alone. -/
theorem Stmt.exec_withPos (st : Stmt) (d : Device) (p : List Stmt) (h : st.straight = true) :
    st.exec (d.withPos p) = ((st.exec d).1.withPos p, (st.exec d).2) := by
  have pin : ∀ f, (d.withPos p).pinOn f = d.pinOn f := fun _ => rfl
  have pa : (d.withPos p).pinAddr = d.pinAddr := rfl
  cases st with
  | shiftControl => exact d.shiftControl_withPos p
  | shiftFullAddress => exact d.shiftFullAddress_withPos p
  | shiftLowAddress => exact d.shiftLowAddress_withPos p
  | loadLowAssert => simp only [Stmt.exec, pin]; split <;> rfl
  | loadLowShift => simp only [Stmt.exec, pin]; split; rfl; exact d.shiftControl_withPos p
  | driveBuf i => simp only [Stmt.exec, Device.withPos_buf, Device.readSlot_withPos]; rfl
  | sampleData => simp only [Stmt.exec, Device.sampleEvents, Device.dataLines_withPos, pa]; rfl
  | sampleBuf i => simp only [Stmt.exec, Device.sampleEvents, Device.dataLines_withPos, pa]; rfl
  | sampleReady => simp only [Stmt.exec, Device.readyLine_withPos]; rfl
  | poll k => simp [Stmt.straight] at h
  | eraseCheck => simp [Stmt.straight] at h
  | fail s => simp [Stmt.straight] at h
  | enterIdle => simp [Stmt.straight] at h
  | terminate => simp [Stmt.straight] at h
  | _ => rfl

theorem Stmt.exec_straight_dstate (st : Stmt) (d : Device) (h : st.straight = true) : (st.exec d).1.dstate = d.dstate := by
  cases st with
  | loadLowAssert => simp only [Stmt.exec]; split <;> rfl
  | loadLowShift => simp only [Stmt.exec]; split <;> simp
  | poll k => simp [Stmt.straight] at h
  | eraseCheck => simp [Stmt.straight] at h
  | fail s => simp [Stmt.straight] at h
  | enterIdle => simp [Stmt.straight] at h
  | terminate => simp [Stmt.straight] at h
  | _ => simp [Stmt.exec]

theorem execAll_dstate (l : List Stmt) (d : Device) (h : l.all Stmt.straight = true) : (execAll l d).1.dstate = d.dstate := by
  induction l generalizing d with
  | nil => rfl
  | cons st t ih =>
    simp only [List.all_cons, Bool.and_eq_true] at h
    rw [execAll_cons, ih _ h.2, Stmt.exec_straight_dstate st d h.1]

/-! ### How a run goes on -/

theorem Device.running_executing {d : Device} (h : d.dstate = .executing) : d.running = true := by
  simp [Device.running, h]

/-- With nothing left to run the command completes (R135). -/
theorem finalRun_nil (d : Device) (h : d.dstate = .executing) : (d.withPos []).finalRun = (d.complete, []) := by
  rw [Device.finalRun_step _ (Device.running_executing (d := d.withPos []) h)]
  have e : (d.withPos []).statement = (d.complete, []) := rfl
  rw [e, Device.finalRun_done _ (by simp [Device.running])]
  simp

theorem finish_withPos (d : Device) (p : List Stmt) (h : d.dstate = .executing) :
    (d.withPos p).finish.finalRun = (d.withPos p).finalRun := by
  rcases (d.withPos p).finish_cases with ⟨hp, _, e⟩ | ⟨_, e⟩
  · have hp' : p = [] := hp
    subst hp'
    rw [e, finalRun_nil d h]
    exact Device.finalRun_done _ (by simp [Device.running])
  · rw [e]

/-- A straight statement runs, and the run goes on with what stands after it. -/
theorem finalRun_straight (st : Stmt) (rest : List Stmt) (d : Device) (h : d.dstate = .executing)
    (hs : st.straight = true) :
    (d.withPos (st :: rest)).finalRun =
      (((st.exec d).1.withPos rest).finalRun.1, (st.exec d).2 ++ ((st.exec d).1.withPos rest).finalRun.2) := by
  rw [Device.finalRun_step _ (Device.running_executing (d := d.withPos (st :: rest)) h)]
  have e : (d.withPos (st :: rest)).statement = (((st.exec d).1.withPos rest).finish, (st.exec d).2) := by
    simp only [Device.statement, Device.withPos_pos, Device.withPos_withPos, Stmt.exec_withPos st d rest hs]
  rw [e, finish_withPos _ _ (by rw [Stmt.exec_straight_dstate st d hs, h])]

/-- A straight stretch of a program runs, and the run goes on with what stands after it. -/
theorem finalRun_execAll (l rest : List Stmt) (d : Device) (h : d.dstate = .executing) (hs : l.all Stmt.straight = true) :
    (d.withPos (l ++ rest)).finalRun =
      (((execAll l d).1.withPos rest).finalRun.1, (execAll l d).2 ++ ((execAll l d).1.withPos rest).finalRun.2) := by
  induction l generalizing d with
  | nil => simp
  | cons st t ih =>
    simp only [List.all_cons, Bool.and_eq_true] at hs
    rw [List.cons_append, finalRun_straight st _ d h hs.1, execAll_cons,
      ih _ (by rw [Stmt.exec_straight_dstate st d hs.1, h]) hs.2]
    simp

/-- A straight program runs to its end. -/
theorem finalRun_all (l : List Stmt) (d : Device) (h : d.dstate = .executing) (hs : l.all Stmt.straight = true) :
    (d.withPos l).finalRun = ((execAll l d).1.complete, (execAll l d).2) := by
  have := finalRun_execAll l [] d h hs
  rw [List.append_nil, finalRun_nil _ (by rw [execAll_dstate l d hs, h])] at this
  simpa using this

/-- A poll out of samples fails the WRITE (R113, R164). -/
theorem finalRun_poll_zero (rest : List Stmt) (d : Device) (h : d.dstate = .executing) :
    (d.withPos (.poll 0 :: rest)).finalRun = ((d.failWith .programFailed).complete, []) := by
  rw [Device.finalRun_step _ (Device.running_executing (d := d.withPos (.poll 0 :: rest)) h)]
  have e : (d.withPos (.poll 0 :: rest)).statement = ((d.failWith .programFailed).complete, []) := by
    simp only [Device.statement, Device.withPos_pos, Stmt.exec, Device.finish]
    simp [h, Device.failWith, Device.withPos, Device.complete]
  rw [e, Device.finalRun_done _ (by simp [Device.running])]
  simp

/-- A poll takes a sample: true ends it, false leaves one sample less (R113). -/
theorem finalRun_poll_succ (k : Nat) (rest : List Stmt) (d : Device) (h : d.dstate = .executing) :
    (d.withPos (.poll (k + 1) :: rest)).finalRun =
      if d.readyLine.1 then
        ((d.readyLine.2.withPos rest).finalRun.1, .sampleReady true :: (d.readyLine.2.withPos rest).finalRun.2)
      else
        ((d.readyLine.2.withPos (.poll k :: rest)).finalRun.1,
          .sampleReady false :: (d.readyLine.2.withPos (.poll k :: rest)).finalRun.2) := by
  rw [Device.finalRun_step _ (Device.running_executing (d := d.withPos (.poll (k + 1) :: rest)) h)]
  have hr : d.readyLine.2.dstate = .executing := by simp [h]
  by_cases hb : d.readyLine.1 = true
  · have e : (d.withPos (.poll (k + 1) :: rest)).statement =
        ((d.readyLine.2.withPos rest).finish, [.sampleReady true]) := by
      simp only [Device.statement, Device.withPos_pos, Device.withPos_withPos, Stmt.exec, Device.pollSample,
        Device.readyLine_withPos, hb, if_true]
    rw [e, finish_withPos _ _ hr, if_pos hb]
    rfl
  · have e : (d.withPos (.poll (k + 1) :: rest)).statement =
        (d.readyLine.2.withPos (.poll k :: rest), [.sampleReady false]) := by
      simp only [Device.statement, Device.withPos_pos, Device.withPos_withPos, Stmt.exec, Device.pollSample,
        Device.readyLine_withPos, hb]
      simp [Device.finish]
    rw [e, if_neg hb]
    rfl

/-- eraseWait's check: 0xFF ends the command with INITIALISED, another byte goes on (R167). -/
theorem finalRun_eraseCheck (rest : List Stmt) (d : Device) (h : d.dstate = .executing) :
    (d.withPos (.eraseCheck :: rest)).finalRun =
      if d.localV = 0xFF#8 then (Device.complete { d with status := .initialised }, []) else (d.withPos rest).finalRun := by
  rw [Device.finalRun_step _ (Device.running_executing (d := d.withPos (.eraseCheck :: rest)) h)]
  by_cases hb : d.localV = 0xFF#8
  · have e : (d.withPos (.eraseCheck :: rest)).statement = (Device.complete { d with status := .initialised }, []) := by
      simp only [Device.statement, Device.withPos_pos, Stmt.exec, Device.finish]
      simp [h, hb, Device.withPos, Device.complete]
    rw [e, Device.finalRun_done _ (by simp [Device.running]), if_pos hb]
    simp
  · have e : (d.withPos (.eraseCheck :: rest)).statement = ((d.withPos rest).finish, []) := by
      simp only [Device.statement, Device.withPos_pos, Device.withPos_withPos, Stmt.exec]
      simp [hb]
    rw [e, finish_withPos _ _ h, if_neg hb]
    simp

/-- `fail(S)` ends the command (R226). -/
theorem finalRun_fail (st : Status) (rest : List Stmt) (d : Device) (h : d.dstate = .executing) :
    (d.withPos (.fail st :: rest)).finalRun = ((d.failWith st).complete, []) := by
  rw [Device.finalRun_step _ (Device.running_executing (d := d.withPos (.fail st :: rest)) h)]
  have e : (d.withPos (.fail st :: rest)).statement = ((d.failWith st).complete, []) := by
    simp only [Device.statement, Device.withPos_pos, Stmt.exec, Device.finish]
    simp [h, Device.failWith, Device.withPos, Device.complete]
  rw [e, Device.finalRun_done _ (by simp [Device.running])]
  simp

/-- BOOTLOADER's statement ends the run, without completion (R142). -/
theorem finalRun_terminate (d : Device) (h : d.dstate = .executing) :
    (d.withPos [.terminate]).finalRun = ({ d.withPos [] with dstate := .terminated }, []) := by
  rw [Device.finalRun_step _ (Device.running_executing (d := d.withPos [.terminate]) h)]
  have e : (d.withPos [.terminate]).statement = ({ d.withPos [] with dstate := .terminated }, []) := by
    simp [Device.statement, Stmt.exec, Device.finish]
  rw [e, Device.finalRun_done _ (by simp [Device.running])]
  simp

/-! ### The data phase of a WRITE (R133) -/

theorem Device.dataSegment_append (d : Device) (s1 s2 : List Byte) :
    d.dataSegment (s1 ++ s2) = (d.dataSegment s1).dataSegment s2 := by
  simp [Device.dataSegment, List.foldl_append]

theorem Device.dataByte_owed (d : Device) (b : Byte) : (d.dataByte b).dataPending.val = d.dataPending.val - 1 := by
  unfold Device.dataByte; split <;> simp_all

/-- Each byte of a segment lowers what is owed by one (R133). -/
theorem Device.dataSegment_owed (d : Device) (seg : List Byte) :
    (d.dataSegment seg).dataPending.val = d.dataPending.val - seg.length := by
  induction seg generalizing d with
  | nil => rfl
  | cons b t ih =>
    have : d.dataSegment (b :: t) = (d.dataByte b).dataSegment t := rfl
    rw [this, ih, Device.dataByte_owed, List.length_cons]; omega

/-- A data byte writes the buffer and the count, nothing else. -/
theorem Device.dataByte_rest (d : Device) (b : Byte) :
    d.dataByte b = { d with buf := (d.dataByte b).buf, dataPending := (d.dataByte b).dataPending } := by
  unfold Device.dataByte; split <;> rfl

theorem Device.dataSegment_rest (d : Device) (seg : List Byte) :
    d.dataSegment seg = { d with buf := (d.dataSegment seg).buf, dataPending := (d.dataSegment seg).dataPending } := by
  induction seg generalizing d with
  | nil => rfl
  | cons b t ih =>
    have : d.dataSegment (b :: t) = (d.dataByte b).dataSegment t := rfl
    have h1 := ih (d.dataByte b)
    have h2 := d.dataByte_rest b
    rw [this]
    generalize d.dataByte b = e at h1 h2 ⊢
    generalize e.dataSegment t = g at h1 ⊢
    obtain ⟨bf, dp, h2⟩ : ∃ bf dp, e = { d with buf := bf, dataPending := dp } := ⟨_, _, h2⟩
    subst h2
    exact h1

/-- The data segments on the link are taken while the data phase is owed, whatever their delays. -/
theorem State.takeInputs_phase (rest : List Arrival) (hq : noneDue rest = true) :
    ∀ (segs : List (List Byte)) (delays : List Nat) (s : State) (n : Nat), delays.length = segs.length →
      (∀ seg ∈ segs, seg ≠ []) → s.dstate = .commandReceived → s.dataPending.val = segs.flatten.length →
      s.link = (delays.zip segs).map (fun p => { delay := p.1, input := .data p.2 }) ++ rest → segs.length ≤ n →
      State.takeInputs n s = { s with toDevice := s.toDevice.dataSegment segs.flatten, link := rest }
  | [], delays, s, n, hd, _, hs, hp, hl, _ => by
    have hp' : s.dataPending = 0 := Fin.ext (by simpa using hp)
    have hl' : s.link = rest := by simpa using hl
    have hm : s.rxMoves = false := by
      unfold State.rxMoves
      cases hr : s.link with
      | nil => rfl
      | cons a t =>
        rw [hl'] at hr
        simp only [hr, noneDue, bne_iff_ne, ne_eq] at hq
        simp [hs, hp', hq]
    have : State.takeInputs n s = s := by cases n <;> simp [State.takeInputs, hm]
    rw [this]
    conv_rhs => rw [← hl']
    simp [Device.dataSegment]
  | seg :: segs, [], s, n, hd, _, _, _, _, _ => by simp at hd
  | seg :: segs, dl :: delays, s, 0, hd, _, _, _, _, hn => by simp at hn
  | seg :: segs, dl :: delays, s, n + 1, hd, hne, hs, hp, hl, hn => by
    have hseg : seg ≠ [] := hne seg (by simp)
    have hpos : 0 < seg.length := List.length_pos_of_ne_nil hseg
    have hp0 : s.dataPending ≠ 0 := by
      intro h; rw [h] at hp; simp at hp; omega
    simp only [List.zip_cons_cons, List.map_cons, List.cons_append] at hl
    have hm : s.rxMoves = true := by simp [State.rxMoves, hl, hs, hp0]
    have hx : s.rxStep = { s with
        toDevice := s.toDevice.dataSegment seg
        link := (delays.zip segs).map (fun p => { delay := p.1, input := .data p.2 }) ++ rest } := by
      simp [State.rxStep, hl, State.rxInput, State.rxData]
    have step : State.takeInputs (n + 1) s = State.takeInputs n s.rxStep := by
      simp [State.takeInputs, hm, hs]
    have howed := Device.dataSegment_owed s.toDevice seg
    have hrest := Device.dataSegment_rest s.toDevice seg
    rw [step, hx, State.takeInputs_phase rest hq segs delays _ n (by simpa using hd)
      (fun x h => hne x (by simp [h])) (by show (s.toDevice.dataSegment seg).dstate = _; rw [hrest]; exact hs)
      (by show (s.toDevice.dataSegment seg).dataPending.val = _; rw [howed, hp]; simp)
      rfl (by simpa using hn)]
    simp [Device.dataSegment_append]

/-- A WRITE accepted with its whole data phase: DSP runs its statements from the device the phase has filled. -/
def State.launchedWrite (s : State) (i : Instr) (bytes : List Byte) : Device :=
  Device.startWith
    (Device.dataSegment
      { s.toDevice with cmd := some (Command.ofHeader (encode i)), dstate := .commandReceived, dataPending := 64 } bytes) i

/-- A WRITE sent to a ready controller with its data phase in any segmentation: the device ends as DSP leaves it, and
the bus shows DSP's events, whatever the host sends later. -/
theorem State.command_readyWrite (s : State) (i : Instr) (delays : List Nat) (segs : List (List Byte))
    (rest : List Arrival) (hs : s.ReadyWrite delays segs rest) (hdec : decode (encode i) = .ok i)
    (hw : i.isWrite = true) :
    (s.command i).toDevice = (s.launchedWrite i segs.flatten).finalRun.1 ∧
      (s.command i).busEvents = s.busEvents ++ (s.launchedWrite i segs.flatten).finalRun.2 := by
  have hlen : segs.flatten.length = 64 := by simpa [isPhase] using hs.phase
  have hn : segs.length ≤ (s.accept i).link.length := by
    rw [State.accept_link, hs.link, List.length_append, List.length_map, List.length_zip, hs.sized]; omega
  have ht := State.takeInputs_phase rest hs.quiet segs delays (s.accept i) (s.accept i).link.length hs.sized hs.some
    (by rfl) (by simp [hw, hlen]) (by rw [State.accept_link, hs.link]) hn
  generalize hu : State.takeInputs (s.accept i).link.length (s.accept i) = u at ht
  have hdev : u.toDevice = (s.accept i).toDevice.dataSegment segs.flatten := by rw [ht]
  have hrest := Device.dataSegment_rest (s.accept i).toDevice segs.flatten
  have howed : u.dataPending = 0 := by
    apply Fin.ext
    rw [hdev, Device.dataSegment_owed]
    simp [hw, hlen]
  have hds : u.dstate = .commandReceived := by rw [hdev, hrest]; rfl
  have hst : u.startable = true := by simp [Device.startable, hds, howed]
  have hrun : u.running = false := by simp [Device.running, hds]
  have hcmd : u.cmd = some (Command.ofHeader (encode i)) := by rw [hdev, hrest]; rfl
  have hmail : u.toDevice.mail = some i := by simp [Device.mail, hcmd, Command.header_ofHeader, hdec]
  have hL : u.toDevice.startWith i = s.launchedWrite i segs.flatten := by
    rw [hdev]; simp [State.launchedWrite, hw]
  have hstep : u.toDevice.dspStep = (s.launchedWrite i segs.flatten, []) := by
    simp only [Device.dspStep, hrun, hst, Device.start, hmail, hL]
    simp
  have hc : s.command i = u.dspMove.runCommand := by
    simp only [State.command, hs.idle, State.settle, hu, hst, if_true]
  rw [hc]
  have hdev' : u.dspMove.toDevice = s.launchedWrite i segs.flatten := by rw [State.dspMove_toDevice, hstep]
  have hbus : u.dspMove.busEvents = s.busEvents := by
    refine State.busEvents_of_trace (encode i) .ack ?_
    rw [State.dspMove_trace, hstep, ht]
    rfl
  have hp : (s.launchedWrite i segs.flatten).dataPending = 0 := by
    rw [← hL]; exact howed
  have := State.runCommand_device u.dspMove (by rw [hdev']; exact hp)
  rw [hdev', hbus] at this
  exact this

end Sys2Proof.Machine
end

