-- ==== Sys2Proof/Laws/Bus.lean ====
section
/-! SUPPORT. The bus cycles in closed form: what `loadFull`, `busWrite`, `busRead` and `loadLow` make of a device, and
which events of each kind they show. A claim about a command cites these and never unfolds a shift. -/

namespace Sys2Proof.Machine

open Sys2Proof

/-! ### The log of a stretch of the trace -/

/-- One log after another. -/
def BusLog.append (x y : BusLog) : BusLog :=
  { events := x.events ++ y.events
    lineWrites := x.lineWrites + y.lineWrites }

@[simp] theorem BusLog.append_events (x y : BusLog) : (x.append y).events = x.events ++ y.events := rfl
@[simp] theorem BusLog.append_lineWrites (x y : BusLog) : (x.append y).lineWrites = x.lineWrites + y.lineWrites := rfl

@[simp] theorem BusLog.of_nil : BusLog.of [] = {} := rfl

theorem BusLog.of_append (l1 l2 : List Event) : BusLog.of (l1 ++ l2) = (BusLog.of l1).append (BusLog.of l2) := by
  simp [BusLog.of, BusLog.append, lineWritesOf]

theorem BusLog.of_cons (e : Event) (l : List Event) : BusLog.of (e :: l) = (BusLog.of [e]).append (BusLog.of l) :=
  BusLog.of_append [e] l

/-- A stretch without line writes shows all of itself. -/
theorem BusLog.of_noSets {es : List Event} (h : ∀ e ∈ es, e.isSet = false) : BusLog.of es = { events := es } := by
  have h1 : es.filter (fun e => !e.isSet) = es := List.filter_eq_self.2 fun e he => by simp [h e he]
  have h2 : lineWritesOf es = 0 := List.countP_eq_zero.2 fun e he => by simp [h e he]
  simp only [BusLog.of, h1, h2]

@[simp] theorem BusLog.append_empty (x : BusLog) : x.append {} = x := by simp [BusLog.append]
@[simp] theorem BusLog.empty_append (x : BusLog) : BusLog.append {} x = x := by simp [BusLog.append]
theorem BusLog.append_assoc (x y z : BusLog) : (x.append y).append z = x.append (y.append z) := by
  simp [BusLog.append, Nat.add_assoc]

/-- One latch low, three writes for each bit, one latch high, and nothing else (R104, R285). -/
@[simp] theorem BusLog.of_shiftEvents (clk dat : Line) (bits : List Bool) :
    BusLog.of (shiftEvents clk dat bits) = { lineWrites := 2 + 3 * bits.length } := by
  have key : ∀ bits : List Bool,
      BusLog.of (bits.flatMap fun b => [Event.set clk false, .set dat b, .set clk true]) =
        { lineWrites := 3 * bits.length } := by
    intro bits
    induction bits with
    | nil => rfl
    | cons b t ih =>
      rw [List.flatMap_cons, BusLog.of_append, ih]
      have h3 : List.countP Event.isSet [Event.set clk false, .set dat b, .set clk true] = 3 := rfl
      simp [BusLog.append, BusLog.of, lineWritesOf, Event.isSet, h3]
      omega
  have split : shiftEvents clk dat bits =
      [.set .latch false] ++ (bits.flatMap fun b => [Event.set clk false, .set dat b, .set clk true]) ++
        [.set .latch true] := by simp [shiftEvents]
  rw [split, BusLog.of_append, BusLog.of_append, key]
  simp [BusLog.append, BusLog.of, lineWritesOf, Event.isSet]
  omega

@[simp] theorem msbFirst_length {w : Nat} (v : BitVec w) : (msbFirst v).length = w := by simp [msbFirst]

/-! ### The write event of a control shift (R117) -/

/-- A control shift takes write-enable from asserted to deasserted. -/
def Device.weFalls (d : Device) : Bool := isAsserted .we d.c.Q && !isAsserted .we d.ctrl

/-- The data of a write event (R117): what the port drives, or a draw. -/
def Device.eventData (d : Device) : Byte :=
  match d.portDir with
  | .input => Config.drawByte d.draws
  | .output =>
    match d.portOut with
    | .byte b => b
    | .unwritten => Config.drawByte d.draws

/-- The draws used up after a write event. -/
def Device.eventDraws (d : Device) : Nat :=
  match d.portDir with
  | .input => d.draws + 1
  | .output =>
    match d.portOut with
    | .byte _ => d.draws
    | .unwritten => d.draws + 1

theorem Device.writeData_eq (d : Device) : d.writeData = (d.eventData, { d with draws := d.eventDraws }) := by
  obtain ⟨bank, addrHi, addrLo, ctrl, data, portDir, portOut⟩ := d
  cases portDir with
  | input => rfl
  | output => cases portOut <;> rfl

/-- The fixture's state after the write event of a control shift, if it makes one. -/
def Device.nextFstate (d : Device) : FState := if d.weFalls then fixtureNext d.fstate d.pinAddr d.eventData else d.fstate

/-- The fixture's array after the write event of a control shift, if it makes one. -/
def Device.nextFmem (d : Device) : List Host.Cell :=
  if d.weFalls then fixtureEffect d.fstate d.fmem d.pinAddr d.eventData else d.fmem

/-- The draws used up after a control shift. -/
def Device.nextDraws (d : Device) : Nat := if d.weFalls then d.eventDraws else d.draws

/-- The write event of a control shift, if it makes one (R117). -/
def Device.eventOf (d : Device) : List Event := if d.weFalls then [.busWrite d.pinAddr d.eventData] else []

/-- A control shift that lowers no write-enable makes no event. -/
theorem Device.weFalls_shown {d : Device} (h : d.weShown) : d.weFalls = false := by
  unfold Device.weFalls Device.weShown at *
  rw [h]; cases isAsserted .we d.ctrl <;> rfl

/-- A control shift in closed form (R108, R117). -/
theorem Device.shiftControl_eq (d : Device) :
    d.shiftControl =
      ({ d with
          c := { S := ctrlByte d.ctrl d.bank, Q := ctrlByte d.ctrl d.bank }
          a1 := d.a1.latched
          a2 := d.a2.latched
          lines := { d.lines with cclk := true, cdat := (ctrlByte d.ctrl d.bank).getLsbD 0, latch := true }
          fstate := d.nextFstate
          fmem := d.nextFmem
          draws := d.nextDraws },
        shiftEvents .cclk .cdat (msbFirst (ctrlByte d.ctrl d.bank)) ++ d.eventOf) := by
  have hr : d.controlShifted.weRises = d.weFalls := by
    simp [Device.weRises, Device.weFalls]
  have hw := d.controlShifted.writeData_eq
  have he : d.controlShifted.eventData = d.eventData := rfl
  have hd : d.controlShifted.eventDraws = d.eventDraws := rfl
  have hp : d.controlShifted.pinAddr = d.pinAddr := rfl
  unfold Device.shiftControl Device.latch Device.nextFstate Device.nextFmem Device.nextDraws Device.eventOf
  rw [hr, hw, he, hd, hp]
  cases d.weFalls <;> rfl

/-- A full address shift where ALS is deasserted and the pins hold the write-enable the chain holds: everything shown,
no event (R109). -/
theorem Device.shiftFullAddress_eq (d : Device) (ha : isAsserted .als d.c.Q = false) (hc : d.c.Q = d.c.S) :
    d.shiftFullAddress =
      ({ d with
          a1 := { S := d.addrLo, Q := d.addrLo }
          a2 := { S := d.addrHi, Q := d.addrHi }
          lines := d.lines.afterAddress (d.addrLo.getLsbD 0) },
        shiftEvents .aclk .adat (msbFirst (addr16 d.addrHi d.addrLo))) := by
  have hpin : d.pinOn .als = false := ha
  have hr : d.fullShifted.weRises = false := by
    simp [Device.weRises, hc]
  have hl : d.c.latched = d.c := by cases hcc : d.c; simp_all [ShiftReg.latched]
  unfold Device.shiftFullAddress Device.latch
  rw [hr]
  simp only [Bool.false_eq_true, if_false, List.append_nil]
  unfold Device.fullShifted
  rw [hpin]
  simp only [Device.loadOutputs, hl]
  rfl

/-- A low address shift where ALS is asserted and the pins hold what the chain holds: A1 takes the low byte, no event
(R109). -/
theorem Device.shiftLowAddress_eq (d : Device) (ha : isAsserted .als d.c.Q = true) (hc : d.c.Q = d.c.S) :
    d.shiftLowAddress =
      ({ d with
          a1 := { S := d.addrLo, Q := d.addrLo }
          a2 := d.a2.latched
          lines := d.lines.afterAddress (d.addrLo.getLsbD 0) },
        shiftEvents .aclk .adat (msbFirst d.addrLo)) := by
  have hpin : d.pinOn .als = true := ha
  have hr : d.lowShifted.weRises = false := by
    simp [Device.weRises, hc]
  have hl : d.c.latched = d.c := by cases hcc : d.c; simp_all [ShiftReg.latched]
  unfold Device.shiftLowAddress Device.latch
  rw [hr]
  simp only [Bool.false_eq_true, if_false, List.append_nil]
  unfold Device.lowShifted
  rw [hpin]
  simp only [Device.loadOutputs, hl]
  rfl

/-- `loadFull()` in closed form (R114): everything shown, and the write event of its control shift if there is one. -/
theorem execAll_loadFull (d : Device) :
    execAll loadFull d =
      (Device.shown
        { d with
          ctrl := writeFlag .als false d.ctrl, fstate := d.nextFstate, fmem := d.nextFmem, draws := d.nextDraws },
        shiftEvents .cclk .cdat (msbFirst (ctrlByte (writeFlag .als false d.ctrl) d.bank)) ++ d.eventOf ++
          shiftEvents .aclk .adat (msbFirst (addr16 d.addrHi d.addrLo))) := by
  have hw : Device.weFalls { d with ctrl := writeFlag .als false d.ctrl } = d.weFalls := by simp [Device.weFalls]
  have hf : Device.nextFstate { d with ctrl := writeFlag .als false d.ctrl } = d.nextFstate := by
    unfold Device.nextFstate; rw [hw]; rfl
  have hm : Device.nextFmem { d with ctrl := writeFlag .als false d.ctrl } = d.nextFmem := by
    unfold Device.nextFmem; rw [hw]; rfl
  have hd : Device.nextDraws { d with ctrl := writeFlag .als false d.ctrl } = d.nextDraws := by
    unfold Device.nextDraws; rw [hw]; rfl
  have he : Device.eventOf { d with ctrl := writeFlag .als false d.ctrl } = d.eventOf := by
    unfold Device.eventOf; rw [hw]; rfl
  simp only [loadFull, execAll_cons, execAll_nil, Stmt.exec, Device.shiftControl_eq, hf, hm, hd, he]
  rw [Device.shiftFullAddress_eq _ (by simp) rfl]
  simp only [List.nil_append, List.append_nil, List.append_assoc]
  rfl

/-! ### The write cycle (R115) -/

/-- A device after a write cycle (R115), where no earlier write event intervenes. -/
def Device.written (d : Device) (a : Half) (v : Byte) : Device :=
  Device.shown
    { d with
      addrHi := hiByte a
      addrLo := loByte a
      ctrl := writeCtrl d.ctrl
      portDir := .output
      portOut := .byte v
      fstate := fixtureNext d.fstate (addr20 d.bank a) v
      fmem := fixtureEffect d.fstate d.fmem (addr20 d.bank a) v }

theorem addr16_hi_lo (a : Half) : addr16 (hiByte a) (loByte a) = a := by
  unfold addr16 hiByte loByte
  apply BitVec.eq_of_getLsbD_eq
  intro i hi
  simp only [BitVec.getLsbD_append, BitVec.getLsbD_extractLsb']
  by_cases h : i < 8
  · simp [h]
  · have h1 : 8 + (i - 8) = i := by omega
    have h2 : i - 8 < 8 := by omega
    simp [h, h1, h2]

@[simp] theorem Device.pinAddr_shown (d : Device) : d.shown.pinAddr = addr20 d.bank (addr16 d.addrHi d.addrLo) := by
  simp [Device.pinAddr, Device.shown]

theorem Device.shown_weShown (d : Device) : d.shown.weShown := by simp [Device.weShown, Device.shown]

theorem Device.written_weShown (d : Device) (a : Half) (v : Byte) : (d.written a v).weShown := Device.shown_weShown _

/-- A control shift on a device that shows its registers but for the write-enable raised or kept: no event. -/
theorem Device.shiftControl_shown (x : Device) (c : Byte) (h : isAsserted .we x.ctrl = false ∨ isAsserted .we c = true) :
    Device.shiftControl { x.shown with ctrl := c } =
      (Device.shown { x with ctrl := c }, shiftEvents .cclk .cdat (msbFirst (ctrlByte c x.bank))) := by
  have hf : Device.weFalls { x.shown with ctrl := c } = false := by
    rcases h with h | h <;> simp [Device.weFalls, Device.shown, h]
  rw [Device.shiftControl_eq]
  simp only [Device.nextFstate, Device.nextFmem, Device.nextDraws, Device.eventOf, hf, Bool.false_eq_true, if_false,
    List.append_nil]
  rfl

/-- The strobe of a write cycle on a device that shows its registers and drives `v`: write-enable asserted and latched,
then deasserted and latched, which is the write event (R115, R117). -/
theorem execAll_strobe (x : Device) (v : Byte) (hp : x.portDir = .output) (ho : x.portOut = .byte v) :
    execAll [.setFlag .we true, .shiftControl, .setFlag .we false, .shiftControl] x.shown =
      (Device.shown { x with
          ctrl := writeFlag .we false x.ctrl
          fstate := fixtureNext x.fstate (addr20 x.bank (addr16 x.addrHi x.addrLo)) v
          fmem := fixtureEffect x.fstate x.fmem (addr20 x.bank (addr16 x.addrHi x.addrLo)) v },
        shiftEvents .cclk .cdat (msbFirst (ctrlByte (writeFlag .we true x.ctrl) x.bank)) ++
          shiftEvents .cclk .cdat (msbFirst (ctrlByte (writeFlag .we false x.ctrl) x.bank)) ++
          [.busWrite (addr20 x.bank (addr16 x.addrHi x.addrLo)) v]) := by
  have e1 := x.shiftControl_shown (writeFlag .we true x.ctrl) (.inr (by simp))
  simp only [execAll_cons, execAll_nil, Stmt.exec]
  rw [show x.shown.ctrl = x.ctrl from rfl, e1]
  generalize hy : { x with ctrl := writeFlag .we true x.ctrl } = y
  have hc : writeFlag .we false y.shown.ctrl = writeFlag .we false x.ctrl := by rw [← hy]; simp [Device.shown]
  simp only [hc]
  generalize hz : { y.shown with ctrl := writeFlag .we false x.ctrl } = z
  have hf : z.weFalls = true := by rw [← hz, ← hy]; simp [Device.weFalls, Device.shown]
  have hpa : z.pinAddr = addr20 x.bank (addr16 x.addrHi x.addrLo) := by
    have : z.pinAddr = y.shown.pinAddr := by rw [← hz]; rfl
    rw [this, Device.pinAddr_shown, ← hy]
  have hdat : z.eventData = v := by rw [← hz, ← hy]; simp [Device.eventData, Device.shown, hp, ho]
  have hdr : z.eventDraws = x.draws := by rw [← hz, ← hy]; simp [Device.eventDraws, Device.shown, hp, ho]
  rw [Device.shiftControl_eq]
  simp only [Device.nextFstate, Device.nextFmem, Device.nextDraws, Device.eventOf, hf, if_true, hpa, hdat, hdr]
  subst hz hy
  simp only [List.nil_append, List.append_nil, List.append_assoc]
  rfl

/-- The events of a write cycle from a device whose write-enable is shown. -/
def Device.writeEvents (d : Device) (a : Half) (v : Byte) : List Event :=
  shiftEvents .cclk .cdat (msbFirst (ctrlByte (writeFlag .als false (writeFlag .oe false d.ctrl)) d.bank)) ++
    shiftEvents .aclk .adat (msbFirst a) ++ [.dir .output, .drive v] ++
    shiftEvents .cclk .cdat
      (msbFirst (ctrlByte (writeFlag .we true (writeFlag .als false (writeFlag .oe false d.ctrl))) d.bank)) ++
    shiftEvents .cclk .cdat (msbFirst (ctrlByte (writeCtrl d.ctrl) d.bank)) ++ [.busWrite (addr20 d.bank a) v]

/-- `busWrite(a, v)` in closed form (R115), whichever statement drives the byte. -/
theorem execAll_busWriteVia (d : Device) (a : Half) (v : Byte) (st : Stmt) (hwe : d.weShown)
    (hst : ∀ x : Device, x.buf = d.buf → st.exec x = ({ x with portOut := .byte v }, [.drive v])) :
    execAll (busWriteVia a st) d = (d.written a v, d.writeEvents a v) := by
  have h1 : execAll (loadAddr a ++ [.setFlag .oe false]) d =
      ({ d with addrHi := hiByte a, addrLo := loByte a, ctrl := writeFlag .oe false d.ctrl }, []) := rfl
  have hf : Device.weFalls
      { d with addrHi := hiByte a, addrLo := loByte a, ctrl := writeFlag .oe false d.ctrl } = false := by
    have := Device.weFalls_shown hwe
    simpa [Device.weFalls] using this
  have hsplit : busWriteVia a st = (loadAddr a ++ [.setFlag .oe false]) ++ (loadFull ++ ([.setDir .output, st] ++
      [.setFlag .we true, .shiftControl, .setFlag .we false, .shiftControl])) := by simp [busWriteVia]
  rw [hsplit, execAll_append, h1, execAll_append, execAll_loadFull]
  simp only [Device.nextFstate, Device.nextFmem, Device.nextDraws, Device.eventOf, hf, Bool.false_eq_true, if_false]
  generalize hx : { d with
    addrHi := hiByte a, addrLo := loByte a, ctrl := writeFlag .als false (writeFlag .oe false d.ctrl) } = x
  have h2 : execAll [.setDir .output, st] x.shown =
      (Device.shown { x with portDir := .output, portOut := .byte v }, [.dir .output, .drive v]) := by
    simp only [execAll_cons, execAll_nil]
    have : (Stmt.setDir PortDir.output).exec x.shown = ({ x.shown with portDir := .output }, [.dir .output]) := rfl
    rw [this, hst { x.shown with portDir := .output } (by rw [← hx]; rfl)]
    rfl
  rw [execAll_append, h2, execAll_strobe _ v rfl rfl]
  subst hx
  simp only [addr16_hi_lo, List.append_assoc, List.nil_append, List.append_nil]
  rfl

theorem execAll_busWrite (d : Device) (a : Half) (v : Byte) (hwe : d.weShown) :
    execAll (busWrite a v) d = (d.written a v, d.writeEvents a v) :=
  execAll_busWriteVia d a v _ hwe (fun _ _ => rfl)

theorem execAll_busWrite_buf (d : Device) (a : Half) (i : Fin 64) (v : Byte) (hwe : d.weShown)
    (hb : d.buf.get i = .byte v) : execAll (busWriteVia a (.driveBuf i)) d = (d.written a v, d.writeEvents a v) := by
  refine execAll_busWriteVia d a v _ hwe (fun x hx => ?_)
  simp only [Stmt.exec, hx, hb, Device.readSlot_byte]

/-- A write cycle shows its direction, its driven byte, its write event, and 128 line writes (R115, R285). -/
@[simp] theorem Device.log_writeEvents (d : Device) (a : Half) (v : Byte) :
    BusLog.of (d.writeEvents a v) = { events := writeCycle (addr20 d.bank a) v, lineWrites := 128 } := by
  simp only [Device.writeEvents, BusLog.of_append, BusLog.of_shiftEvents, msbFirst_length]; rfl

/-! ### The read cycle (R116) -/

/-- A device before the sample of a read cycle (R116): where write-enable was asserted on the pins its fall is a write
event with a drawn byte. -/
def Device.reading (d : Device) (a : Half) : Device :=
  Device.shown
    { d with
      addrHi := hiByte a
      addrLo := loByte a
      ctrl := readCtrl d.ctrl
      portDir := .input
      fstate := d.fstateAfter d.strayWrites
      fmem := d.fmemAfter d.strayWrites
      draws := d.draws + d.strayWrites.length }

/-- The events of the stray write. -/
def Device.strayEvents (d : Device) : List Event := d.strayWrites.map fun w => .busWrite w.1 w.2

/-- The statements of a read cycle up to its wait, which begin-read shares (R116, R193). -/
theorem execAll_openRead (d : Device) (a : Half) :
    execAll (loadAddr a ++ [.setDir .input, .setFlag .we false, .setFlag .oe true] ++ loadFull) d =
      (d.reading a,
        .dir .input :: (shiftEvents .cclk .cdat (msbFirst (ctrlByte (readCtrl d.ctrl) d.bank)) ++ d.strayEvents ++
          shiftEvents .aclk .adat (msbFirst a))) := by
  generalize hx : { d with
    addrHi := hiByte a, addrLo := loByte a, portDir := .input,
    ctrl := writeFlag .oe true (writeFlag .we false d.ctrl) } = x
  have h1 : execAll (loadAddr a ++ [.setDir .input, .setFlag .we false, .setFlag .oe true]) d = (x, [.dir .input]) := by
    subst hx; rfl
  have hf : x.weFalls = d.pinOn .we := by subst hx; simp [Device.weFalls, Device.pinOn]
  have hpa : x.pinAddr = d.pinAddr := by subst hx; rfl
  have hdat : x.eventData = Config.drawByte d.draws := by subst hx; rfl
  have hdr : x.eventDraws = d.draws + 1 := by subst hx; rfl
  rw [execAll_append, h1, execAll_loadFull]
  simp only [Device.nextFstate, Device.nextFmem, Device.nextDraws, Device.eventOf, hf, hpa, hdat, hdr]
  subst hx
  simp only [addr16_hi_lo, List.append_assoc, List.cons_append, List.nil_append]
  unfold Device.reading Device.strayEvents Device.fstateAfter Device.fmemAfter Device.strayWrites
  cases d.pinOn .we <;> rfl

/-- The flash drives the lines at the sample of a read cycle (R119). -/
theorem Device.reading_flashDrives (d : Device) (a : Half) : (d.reading a).flashDrives = true := by
  simp [Device.flashDrives, Device.reading, Device.shown, Device.pinOn, readCtrl]

theorem Device.reading_pinAddr (d : Device) (a : Half) : (d.reading a).pinAddr = addr20 d.bank a := by
  unfold Device.reading
  rw [Device.pinAddr_shown, addr16_hi_lo]

/-- `busRead(a)` in closed form (R116): the sample is taken at `bank : a` from a device that shows its registers. -/
theorem execAll_busRead (p : Params) (d : Device) (a : Half) :
    execAll (busRead p a) d =
      ({ (d.reading a).dataLines.2 with localV := (d.reading a).dataLines.1 },
        .dir .input :: (shiftEvents .cclk .cdat (msbFirst (ctrlByte (readCtrl d.ctrl) d.bank)) ++ d.strayEvents ++
          shiftEvents .aclk .adat (msbFirst a)) ++
        [.wait .acc p.tAcc, .sampleData (d.reading a).dataLines.1,
          .busRead (addr20 d.bank a) (d.reading a).dataLines.1]) := by
  rw [busRead, execAll_append, execAll_openRead]
  have h := d.reading_pinAddr a
  simp only [execAll_cons, execAll_nil, Stmt.exec, Device.sampleEvents, h, List.append_nil, List.cons_append,
    List.nil_append]

/-- What the reference fixture answers to a read cycle (R73). -/
theorem Device.reading_fixture (d : Device) (a : Half) (hf : d.flash = .fixture) :
    (d.reading a).dataLines = (fixtureAnswer (d.reading a).fstate (d.reading a).fmem (addr20 d.bank a), d.reading a) := by
  unfold Device.dataLines
  rw [d.reading_flashDrives a, d.reading_pinAddr a]
  have : (d.reading a).flash = .fixture := hf
  simp [this]

end Sys2Proof.Machine
end

