-- ==== Sys2Proof/Laws/Memory.lean ====
section
/-! SUPPORT. The fixture's array: read after write, what a write leaves alone, and that every operation keeps the
canonical form. -/

namespace Sys2Proof.Machine

open Sys2Proof

@[simp] theorem memRead_nil (a : Nat) : memRead [] a = erased := rfl

theorem memWfFrom_mono {lo hi : Nat} (h : lo ≤ hi) : ∀ m, memWfFrom hi m = true → memWfFrom lo m = true
  | [], _ => rfl
  | (k, b) :: t, hm => by
    simp only [memWfFrom, Bool.and_eq_true, decide_eq_true_eq] at hm ⊢
    exact ⟨⟨⟨by omega, hm.1.1.2⟩, hm.1.2⟩, hm.2⟩

/-- An address below a canonical list reads as erased. -/
theorem memRead_below : ∀ (m : List Host.Cell) (lo a : Nat), memWfFrom lo m = true → a < lo → memRead m a = erased
  | [], _, _, _, _ => rfl
  | (k, b) :: t, lo, a, hm, ha => by
    simp only [memWfFrom, Bool.and_eq_true, decide_eq_true_eq] at hm
    have hk : k ≠ a := by omega
    simp only [memRead, hk, if_false]
    exact memRead_below t (k + 1) a hm.2 (by omega)

theorem memRead_memCons_same (m : List Host.Cell) (a : Nat) (v : Byte) (h : memRead m a = erased) :
    memRead (memCons a v m) a = v := by
  unfold memCons
  split
  · rename_i hv; rw [h, hv]
  · simp [memRead]

theorem memRead_memCons_other (m : List Host.Cell) (a b : Nat) (v : Byte) (h : b ≠ a) :
    memRead (memCons a v m) b = memRead m b := by
  unfold memCons
  split
  · rfl
  · simp [memRead, Ne.symm h]

theorem memWfFrom_memCons (m : List Host.Cell) (lo a : Nat) (v : Byte) (hl : lo ≤ a) (ha : a < flashSize)
    (h : memWfFrom (a + 1) m = true) : memWfFrom lo (memCons a v m) = true := by
  unfold memCons
  split
  · exact memWfFrom_mono (by omega) m h
  · rename_i hv
    simp [memWfFrom, hl, ha, hv, h]

/-- A byte just written reads back. -/
theorem memRead_memWrite_same : ∀ (m : List Host.Cell) (lo a : Nat) (v : Byte), memWfFrom lo m = true →
    memRead (memWrite m a v) a = v
  | [], _, a, v, _ => memRead_memCons_same [] a v rfl
  | (k, b) :: t, lo, a, v, hm => by
    have hm' := hm
    simp only [memWfFrom, Bool.and_eq_true, decide_eq_true_eq] at hm
    unfold memWrite
    split
    · refine memRead_memCons_same _ a v (memRead_below _ k a ?_ (by assumption))
      simp [memWfFrom, hm]
    · split
      · refine memRead_memCons_same _ a v (memRead_below _ (k + 1) a hm.2 (by omega))
      · rename_i h1 h2
        have hk : k ≠ a := fun h => h2 h.symm
        simp only [memRead, hk, if_false]
        exact memRead_memWrite_same t (k + 1) a v hm.2

/-- A write leaves every other byte alone. -/
theorem memRead_memWrite_other : ∀ (m : List Host.Cell) (a b : Nat) (v : Byte), b ≠ a →
    memRead (memWrite m a v) b = memRead m b
  | [], a, b, v, h => memRead_memCons_other [] a b v h
  | (k, x) :: t, a, b, v, h => by
    unfold memWrite
    split
    · exact memRead_memCons_other _ a b v h
    · split
      · rename_i _ h2
        rw [memRead_memCons_other _ a b v h]
        have hk : k ≠ b := by omega
        simp [memRead, hk]
      · simp only [memRead]
        split
        · rfl
        · exact memRead_memWrite_other t a b v h

theorem memWfFrom_memWrite : ∀ (m : List Host.Cell) (lo a : Nat) (v : Byte), memWfFrom lo m = true → lo ≤ a →
    a < flashSize → memWfFrom lo (memWrite m a v) = true
  | [], lo, a, v, _, hl, ha => memWfFrom_memCons [] lo a v hl ha rfl
  | (k, b) :: t, lo, a, v, hm, hl, ha => by
    have hm' := hm
    simp only [memWfFrom, Bool.and_eq_true, decide_eq_true_eq] at hm
    unfold memWrite
    split
    · refine memWfFrom_memCons _ lo a v hl ha ?_
      simp only [memWfFrom, Bool.and_eq_true, decide_eq_true_eq]
      exact ⟨⟨⟨by omega, hm.1.1.2⟩, hm.1.2⟩, hm.2⟩
    · split
      · rename_i _ h2
        exact memWfFrom_memCons _ lo a v hl ha (h2 ▸ hm.2)
      · simp only [memWfFrom, Bool.and_eq_true, decide_eq_true_eq]
        exact ⟨hm.1, memWfFrom_memWrite t (k + 1) a v hm.2 (by omega) ha⟩

/-- A write keeps the canonical form. -/
theorem memWf_memWrite (m : List Host.Cell) (a : Nat) (v : Byte) (hm : memWf m = true) (ha : a < flashSize) :
    memWf (memWrite m a v) = true := memWfFrom_memWrite m 0 a v hm (Nat.zero_le a) ha

theorem memWfFrom_filter (p : Host.Cell → Bool) : ∀ (m : List Host.Cell) (lo : Nat), memWfFrom lo m = true →
    memWfFrom lo (m.filter p) = true
  | [], _, _ => rfl
  | (k, b) :: t, lo, hm => by
    simp only [memWfFrom, Bool.and_eq_true, decide_eq_true_eq] at hm
    have ih := memWfFrom_filter p t (k + 1) hm.2
    by_cases hp : p (k, b) = true
    · simp [List.filter_cons_of_pos hp, memWfFrom, ih, hm]
    · rw [List.filter_cons_of_neg hp]
      exact memWfFrom_mono (by omega) _ ih

/-- A sector erase keeps the canonical form. -/
theorem memWf_memEraseSector (m : List Host.Cell) (a : Nat) (hm : memWf m = true) :
    memWf (memEraseSector m a) = true := memWfFrom_filter _ m 0 hm

/-- A sector erase: every byte of the sector reads as erased, every other byte as before. -/
theorem memRead_memEraseSector : ∀ (m : List Host.Cell) (a b : Nat),
    memRead (memEraseSector m a) b =
      if b / fixtureSector = a / fixtureSector then erased else memRead m b
  | [], a, b => by simp [memEraseSector]
  | (k, x) :: t, a, b => by
    have ih := memRead_memEraseSector t a b
    unfold memEraseSector at ih ⊢
    by_cases hk : k / fixtureSector = a / fixtureSector
    · rw [List.filter_cons_of_neg (by simp [hk]), ih]
      by_cases hb : b / fixtureSector = a / fixtureSector
      · simp [hb]
      · have : k ≠ b := fun h => hb (h ▸ hk)
        simp [hb, memRead, this]
    · rw [List.filter_cons_of_pos (by simp [hk])]
      simp only [memRead]
      by_cases hkb : k = b
      · subst hkb; simp [hk]
      · simp [hkb, ih]

theorem addr20_lt_flashSize (a : Addr20) : a.toNat < flashSize := a.isLt

/-- The fixture keeps its array canonical (R72). -/
theorem memWf_fixtureEffect (f : FState) (m : List Host.Cell) (a : Addr20) (v : Byte) (hm : memWf m = true) :
    memWf (fixtureEffect f m a v) = true := by
  unfold fixtureEffect
  split
  · exact memWf_memWrite m _ _ hm (addr20_lt_flashSize a)
  · split
    · exact hm
    · split
      · split
        · rfl
        · split
          · exact memWf_memEraseSector m _ hm
          · exact hm
      · exact hm

theorem fixtureWrites_append (l1 l2 : List (Addr20 × Byte)) (fm : FState × List Host.Cell) :
    fixtureWrites (l1 ++ l2) fm = fixtureWrites l2 (fixtureWrites l1 fm) := by
  induction l1 generalizing fm with
  | nil => rfl
  | cons x t ih => obtain ⟨a, v⟩ := x; simp [fixtureWrites, ih]

theorem memWf_fixtureWrites : ∀ (l : List (Addr20 × Byte)) (fm : FState × List Host.Cell), memWf fm.2 = true →
    memWf (fixtureWrites l fm).2 = true
  | [], _, h => h
  | (a, v) :: t, fm, h => memWf_fixtureWrites t _ (memWf_fixtureEffect fm.1 fm.2 a v h)

end Sys2Proof.Machine
end

