-- ==== Sys2Proof/Laws/Programs.lean ====
section
/-! SUPPORT. What the programs of the requests make of a device: a block of statements `Runs` from one device to
another, whatever stands after it; write cycles in a row; the chunk loop; the READ_ARM loop; the erase polls. -/

namespace Sys2Proof.Machine

open Sys2Proof

/-! ### Blocks of statements -/

/-- DSP, executing `d`, runs the block `l` to its end and leaves `d'`, showing `es`, whatever stands after the block. -/
def Runs (l : List Stmt) (d d' : Device) (es : List Event) : Prop :=
  d'.dstate = .executing ∧ ∀ rest, (d.withPos (l ++ rest)).finalRun =
    ((d'.withPos rest).finalRun.1, es ++ (d'.withPos rest).finalRun.2)

theorem Runs.nil {d : Device} (h : d.dstate = .executing) : Runs [] d d [] := ⟨h, fun rest => by simp⟩

theorem Runs.append {l1 l2 : List Stmt} {d d1 d2 : Device} {e1 e2 : List Event} (h1 : Runs l1 d d1 e1)
    (h2 : Runs l2 d1 d2 e2) : Runs (l1 ++ l2) d d2 (e1 ++ e2) :=
  ⟨h2.1, fun rest => by rw [List.append_assoc, h1.2, h2.2]; simp⟩

theorem Runs.straight {l : List Stmt} {d : Device} (h : d.dstate = .executing) (hs : l.all Stmt.straight = true) :
    Runs l d (execAll l d).1 (execAll l d).2 :=
  ⟨by rw [execAll_dstate l d hs, h], fun rest => finalRun_execAll l rest d h hs⟩

/-- A straight block whose effect is known. -/
theorem Runs.of_execAll {l : List Stmt} {d d' : Device} {es : List Event} (h : d.dstate = .executing)
    (hs : l.all Stmt.straight = true) (he : execAll l d = (d', es)) : Runs l d d' es := by
  have := Runs.straight h hs
  rwa [he] at this

/-- A program that is one block: it runs and completes (R135). -/
theorem Runs.finalRun {l : List Stmt} {d d' : Device} {es : List Event} (h : Runs l d d' es) :
    (d.withPos l).finalRun = (d'.complete, es) := by
  have := h.2 []
  rw [List.append_nil, finalRun_nil _ h.1] at this
  simpa using this

/-! ### Write cycles in a row -/

theorem writeCtrl_writeCtrl (c : Byte) : writeCtrl (writeCtrl c) = writeCtrl c := by
  unfold writeCtrl
  rw [writeFlag_comm .oe .we _ _ _ (by decide), writeFlag_comm .als .we _ _ _ (by decide), writeFlag_same,
    writeFlag_comm .oe .als _ _ _ (by decide), writeFlag_same, writeFlag_same]

/-- The second of two write cycles leaves only the fixture to tell that there was a first. -/
theorem Device.written_written (d : Device) (a a' : Half) (v v' : Byte) :
    (d.written a v).written a' v' =
      Device.written
        { d with
          fstate := fixtureNext d.fstate (addr20 d.bank a) v
          fmem := fixtureEffect d.fstate d.fmem (addr20 d.bank a) v } a' v' := by
  unfold Device.written
  simp only [Device.shown, writeCtrl_writeCtrl]

theorem busWrite_straight (a : Half) (v : Byte) : (busWrite a v).all Stmt.straight = true := rfl

theorem busWriteVia_straight (a : Half) (i : Fin 64) : (busWriteVia a (.driveBuf i)).all Stmt.straight = true := rfl

theorem busRead_straight (p : Params) (a : Half) : (busRead p a).all Stmt.straight = true := rfl

theorem Runs.busWrite {d : Device} (a : Half) (v : Byte) (h : d.dstate = .executing) (hw : d.weShown) :
    Runs (Machine.busWrite a v) d (d.written a v) (d.writeEvents a v) :=
  Runs.of_execAll h (busWrite_straight a v) (execAll_busWrite d a v hw)

/-- Write cycles one after another. -/
def busWrites (ws : List (Half × Byte)) : List Stmt := ws.flatMap fun w => busWrite w.1 w.2

/-- A device after write cycles one after another. -/
def Device.writtenAll (d : Device) : List (Half × Byte) → Device
  | [] => d
  | w :: ws => Device.writtenAll (d.written w.1 w.2) ws

theorem Device.written_dstate (d : Device) (a : Half) (v : Byte) : (d.written a v).dstate = d.dstate := rfl

theorem Runs.busWrites (ws : List (Half × Byte)) : ∀ {d : Device}, d.dstate = .executing → d.weShown →
    ∃ es, Runs (Machine.busWrites ws) d (d.writtenAll ws) es ∧
      BusLog.of es =
        { events := writeCycles (ws.map fun w => (addr20 d.bank w.1, w.2)), lineWrites := 128 * ws.length } := by
  induction ws with
  | nil => intro d h _; exact ⟨[], Runs.nil h, rfl⟩
  | cons w ws ih =>
    intro d h hw
    obtain ⟨es, hr, hl⟩ := ih (d := d.written w.1 w.2) h (d.written_weShown w.1 w.2)
    refine ⟨_, (Runs.busWrite w.1 w.2 h hw).append hr, ?_⟩
    rw [BusLog.of_append, hl, Device.log_writeEvents]
    simp only [BusLog.append, List.length_cons, Nat.mul_add, BusLog.mk.injEq]
    exact ⟨rfl, by omega⟩

/-- After at least one write cycle: the registers are the last cycle's, the fixture has seen them all. -/
theorem Device.writtenAll_concat (d : Device) (ws : List (Half × Byte)) (a : Half) (v : Byte) :
    d.writtenAll (ws ++ [(a, v)]) =
      Device.shown
        { d with
          addrHi := hiByte a
          addrLo := loByte a
          ctrl := writeCtrl d.ctrl
          portDir := .output
          portOut := .byte v
          fstate := d.fstateAfter ((ws ++ [(a, v)]).map fun w => (addr20 d.bank w.1, w.2))
          fmem := d.fmemAfter ((ws ++ [(a, v)]).map fun w => (addr20 d.bank w.1, w.2)) } := by
  induction ws generalizing d with
  | nil => rfl
  | cons w ws ih =>
    show (d.written w.1 w.2).writtenAll (ws ++ [(a, v)]) = _
    rw [ih]
    simp only [Device.written, Device.shown, writeCtrl_writeCtrl]
    rfl

/-! ### The sequences SETUP begins with (R168, R190, R191) -/

/-- The common part of every SETUP mode: the bank, then the preamble's write cycle (R190, R191). -/
theorem Runs.setupCommon {d : Device} (b : Nibble) (h : d.dstate = .executing) (hw : d.weShown) :
    Runs (Machine.setupCommon b) d (Device.written { d with bank := b } 0x000F#16 0xF0#8)
      (Device.writeEvents { d with bank := b } 0x000F#16 0xF0#8) := by
  have h1 : Runs [.loadBank b] d { d with bank := b } [] := Runs.of_execAll h rfl rfl
  exact h1.append (Runs.busWrite _ _ h hw)

/-- The preamble and the identification entry, the writes of R191 and R168 in a row. -/
def idCycles : List (Half × Byte) :=
  [(0x000F#16, 0xF0#8), (0x0AAA#16, 0xAA#8), (0x1555#16, 0x55#8), (0x0AAA#16, 0x90#8)]

theorem setupCommon_idEntry (b : Nibble) : setupCommon b ++ idEntry = [.loadBank b] ++ busWrites idCycles := rfl

/-- The preamble and an erase command, in a row (R191, R166). -/
def eraseCycles (p : Params) (f : Half) (fd : Byte) : List (Half × Byte) :=
  (0x000F#16, 0xF0#8) ::
    ((match p.erasePrefix with
      | .doc4 => []
      | .jedec6 => [(0x0AAA#16, 0xAA#8), (0x0555#16, 0x55#8)]) ++
    [(p.erase80Addr, 0x80#8), (0x0AAA#16, 0xAA#8), (0x0555#16, 0x55#8), (f, fd)])

theorem setupCommon_eraseCommand (p : Params) (b : Nibble) (f : Half) (fd : Byte) :
    setupCommon b ++ eraseCommand p f fd = [.loadBank b] ++ busWrites (eraseCycles p f fd) := by
  unfold eraseCommand eraseUnlock eraseCycles
  cases p.erasePrefix <;> rfl

theorem Runs.loadBank_writes {d : Device} (b : Nibble) (ws : List (Half × Byte)) (h : d.dstate = .executing)
    (hw : d.weShown) :
    ∃ es, Runs ([.loadBank b] ++ Machine.busWrites ws) d (Device.writtenAll { d with bank := b } ws) es ∧
      BusLog.of es =
        { events := writeCycles (ws.map fun w => (addr20 b w.1, w.2)), lineWrites := 128 * ws.length } := by
  have h1 : Runs [.loadBank b] d { d with bank := b } [] := Runs.of_execAll h rfl rfl
  obtain ⟨es, hr, hl⟩ := Runs.busWrites ws (d := { d with bank := b }) h hw
  exact ⟨_, h1.append hr, by simpa using hl⟩

/-! ### Read cycles (R116) -/

theorem readCtrl_writeCtrl (c : Byte) : readCtrl (writeCtrl c) = readCtrl c := by
  unfold writeCtrl readCtrl
  rw [writeFlag_same, writeFlag_comm .we .als _ _ _ (by decide), writeFlag_comm .oe .als _ _ _ (by decide),
    writeFlag_same, writeFlag_comm .we .oe _ _ _ (by decide), writeFlag_same]

theorem readCtrl_readCtrl (c : Byte) : readCtrl (readCtrl c) = readCtrl c := by
  unfold readCtrl
  rw [writeFlag_comm .we .als _ _ _ (by decide), writeFlag_comm .oe .als _ _ _ (by decide), writeFlag_same,
    writeFlag_comm .we .oe _ _ _ (by decide), writeFlag_same, writeFlag_same]

/-- A sample changes the environment and the draws, nothing else (R60). -/
theorem Device.dataLines_rest (d : Device) :
    d.dataLines.2 = { d with flash := d.dataLines.2.flash, draws := d.dataLines.2.draws } := by
  unfold Device.dataLines
  split
  · split <;> rfl
  · rfl

/-- A readiness sample changes the environment and the draws, nothing else (R36). -/
theorem Device.readyLine_rest (d : Device) :
    d.readyLine.2 = { d with ready := d.readyLine.2.ready, draws := d.readyLine.2.draws } := by
  unfold Device.readyLine
  split <;> rfl

/-- No stray write where write-enable is deasserted on the pins. -/
theorem Device.strayWrites_of (d : Device) (h : d.pinOn .we = false) : d.strayWrites = [] := by
  simp [Device.strayWrites, h]

theorem Device.written_pinOn_we (d : Device) (a : Half) (v : Byte) : (d.written a v).pinOn .we = false := by
  simp [Device.written, Device.pinOn, Device.shown, writeCtrl]

theorem Device.log_strayEvents (d : Device) : BusLog.of d.strayEvents = { events := riseEvents d.strayWrites } := by
  unfold Device.strayEvents Device.strayWrites
  cases d.pinOn .we <;> rfl

/-- The events of a read cycle: the direction, the stray write if there is one, the timed sample; 76 line writes
(R116, R285). -/
theorem Runs.busRead {d : Device} (p : Params) (a : Half) (h : d.dstate = .executing) :
    ∃ es, Runs (Machine.busRead p a) d
        { (d.reading a).dataLines.2 with localV := (d.reading a).dataLines.1 } es ∧
      BusLog.of es =
        { events := .dir .input :: (riseEvents d.strayWrites ++
            timedSample p (addr20 d.bank a) (d.reading a).dataLines.1)
          lineWrites := 76 } := by
  refine ⟨_, Runs.of_execAll h (busRead_straight p a) (execAll_busRead p d a), ?_⟩
  rw [BusLog.of_append, BusLog.of_cons, BusLog.of_append, BusLog.of_append, BusLog.of_shiftEvents, BusLog.of_shiftEvents,
    Device.log_strayEvents]
  simp [BusLog.append, BusLog.of, lineWritesOf, Event.isSet, timedSample]

/-! ### From a request to its program -/

/-- The device a command's statements start from (R131, R134). -/
def State.launching (s : State) (i : Instr) : Device :=
  { s.toDevice with
    cmd := some (Command.ofHeader (encode i))
    dstate := .executing
    status := startStatus s.status i
    dataPending := 0 }

theorem State.launched_eq (s : State) (i : Instr) : s.launched i = (s.launching i).withPos (program s.params i) := rfl

/-- A command other than WRITE whose program is one block that `Runs`: the request answers a next state, and the device
and the bus are what the block makes of them. -/
theorem Runs.command {s : State} {i : Instr} {d' : Device} {es : List Event} (hs : s.Ready)
    (hdec : decode (encode i) = .ok i) (hw : i.isWrite = false)
    (hr : Runs (program s.params i) (s.launching i) d' es) :
    ∃ t, s.onHeader (s.command i) = .next t ∧ t.toDevice = d'.complete ∧ t.busEvents = s.busEvents ++ es := by
  have h := s.command_ready i hs hdec hw
  rw [State.launched_eq, hr.finalRun] at h
  exact ⟨_, hs.onHeader _, h.1, h.2⟩

end Sys2Proof.Machine
end

