-- ==== Sys2Proof/Laws/Loops.lean ====
section
/-! SUPPORT. The three loops in closed form: READ_ARM's low-byte reads (R165), the erase polls (R167) and a WRITE's
chunk of bytes with its readiness polls (R113, R160, R164). -/

namespace Sys2Proof.Machine

open Sys2Proof

/-! ### READ_ARM's loop (R165) -/

/-- `loadLow()` on a device that shows its registers and has write-enable deasserted: ALS ends asserted, the low byte
is shown, and no write event is made (R114). -/
theorem execAll_loadLow (y : Device) (lo : Byte) (hwe : isAsserted .we y.ctrl = false) :
    ∃ es, execAll loadLow { y.shown with addrLo := lo } =
        (Device.shown { y with addrLo := lo, ctrl := writeFlag .als true y.ctrl }, es) ∧
      BusLog.of es = { lineWrites := if isAsserted .als y.ctrl then 26 else 52 } := by
  have hpin : Device.pinOn { y.shown with addrLo := lo } .als = isAsserted .als y.ctrl := by
    simp [Device.pinOn, Device.shown]
  have low : ∀ c, isAsserted .als c = true →
      Device.shiftLowAddress { (Device.shown { y with ctrl := c }) with addrLo := lo } =
        (Device.shown { y with addrLo := lo, ctrl := c }, shiftEvents .aclk .adat (msbFirst lo)) := by
    intro c hc
    rw [Device.shiftLowAddress_eq _ (by simpa [Device.shown] using hc) rfl]
    rfl
  cases ha : isAsserted .als y.ctrl
  · have e2 : Device.shiftControl { y.shown with addrLo := lo, ctrl := writeFlag .als true y.ctrl } =
        ({ (Device.shown { y with ctrl := writeFlag .als true y.ctrl }) with addrLo := lo },
          shiftEvents .cclk .cdat (msbFirst (ctrlByte (writeFlag .als true y.ctrl) y.bank))) := by
      have hf : Device.weFalls { y.shown with addrLo := lo, ctrl := writeFlag .als true y.ctrl } = false := by
        simp [Device.weFalls, Device.shown, hwe]
      rw [Device.shiftControl_eq]
      simp only [Device.nextFstate, Device.nextFmem, Device.nextDraws, Device.eventOf, hf, Bool.false_eq_true, if_false,
        List.append_nil]
      rfl
    have hpin2 : Device.pinOn { y.shown with addrLo := lo, ctrl := writeFlag .als true y.ctrl } .als = false := by
      rw [← ha]; simp [Device.pinOn, Device.shown]
    refine ⟨shiftEvents .cclk .cdat (msbFirst (ctrlByte (writeFlag .als true y.ctrl) y.bank)) ++
      shiftEvents .aclk .adat (msbFirst lo), ?_, ?_⟩
    · simp only [loadLow, execAll_cons, execAll_nil, Stmt.exec]
      rw [hpin, ha]
      simp only [Bool.false_eq_true, if_false]
      rw [show y.shown.ctrl = y.ctrl from rfl, hpin2]
      simp only [Bool.false_eq_true, if_false]
      rw [e2, low _ (by simp)]
      simp
    · simp only [BusLog.of_append, BusLog.of_shiftEvents, msbFirst_length]
      rfl
  · have hself : writeFlag .als true y.ctrl = y.ctrl := by
      have := writeFlag_self .als y.ctrl
      rwa [ha] at this
    refine ⟨shiftEvents .aclk .adat (msbFirst lo), ?_, ?_⟩
    · simp only [loadLow, execAll_cons, execAll_nil, Stmt.exec]
      rw [hpin, ha]
      simp only [if_true]
      rw [hpin, ha]
      simp only [if_true]
      rw [low y.ctrl ha, hself]
      simp
    · simp only [BusLog.of_shiftEvents, msbFirst_length]
      rfl

/-- The buffer with entries written one after another. -/
def writeBufs (buf : Vector Slot 64) : List (Fin 64 × Byte) → Vector Slot 64
  | [] => buf
  | (i, v) :: rest => writeBufs (buf.set i.val (.byte v) i.isLt) rest

theorem writeBufs_getElem (l : List (Fin 64 × Byte)) : ∀ (buf : Vector Slot 64) (n : Nat) (hn : n < 64),
    (∀ x ∈ l, x.1.val ≠ n) → (writeBufs buf l)[n] = buf[n] := by
  induction l with
  | nil => intro buf n hn _; rfl
  | cons x l ih =>
    intro buf n hn h
    rw [writeBufs, ih _ n hn (fun y hy => h y (by simp [hy]))]
    exact Vector.getElem_set_ne _ _ (h x (by simp))

theorem writeBufs_getElem_mem (l : List (Fin 64 × Byte)) : ∀ (buf : Vector Slot 64) (i : Fin 64) (v : Byte),
    (l.map Prod.fst).Nodup → (i, v) ∈ l → (writeBufs buf l)[i.val] = .byte v := by
  induction l with
  | nil => intro buf i v _ h; simp at h
  | cons x l ih =>
    intro buf i v hnd h
    simp only [List.map_cons, List.nodup_cons] at hnd
    rcases List.mem_cons.1 h with h | h
    · subst h
      rw [writeBufs, writeBufs_getElem l _ _ i.isLt]
      · simp
      · intro y hy hne
        exact hnd.1 (List.mem_map.2 ⟨y, hy, Fin.ext hne⟩)
    · rw [writeBufs]
      exact ih _ i v hnd.2 h

/-- Every entry written in order: the buffer holds the bytes. -/
theorem writeBufs_all (buf : Vector Slot 64) (bytes : Vector Byte 64) :
    writeBufs buf ((List.finRange 64).zip bytes.toList) = bytes.map .byte := by
  apply Vector.ext
  intro n hn
  have hm : ((⟨n, hn⟩ : Fin 64), bytes[n]) ∈ (List.finRange 64).zip bytes.toList := by
    rw [List.mem_iff_getElem]
    refine ⟨n, by simp [hn], ?_⟩
    simp
  have hfst : ((List.finRange 64).zip bytes.toList).map Prod.fst = List.finRange 64 := by
    rw [List.map_fst_zip]; simp
  rw [writeBufs_getElem_mem _ buf ⟨n, hn⟩ bytes[n] (by rw [hfst]; exact List.nodup_finRange 64) hm]
  simp

/-- One turn of READ_ARM's loop on a device that shows its registers in a read cycle (R165). -/
theorem Runs.readNext (p : Params) (y : Device) (i : Fin 64) (h : y.dstate = .executing)
    (hwe : isAsserted .we y.ctrl = false) (hoe : isAsserted .oe y.ctrl = true) (hin : y.portDir = .input) :
    ∃ v fl dr es, Runs (Machine.readNext p i) y.shown
        (Device.shown { y with
          addrLo := y.addrLo + 1#8
          ctrl := writeFlag .als true y.ctrl
          flash := fl
          draws := dr
          buf := y.buf.set i.val (.byte v) i.isLt }) es ∧
      BusLog.of es =
        { events := timedSample p (addr20 y.bank (addr16 y.addrHi (y.addrLo + 1#8))) v
          lineWrites := if isAsserted .als y.ctrl then 26 else 52 } ∧
      (y.flash = .fixture → fl = .fixture ∧ dr = y.draws ∧
        v = fixtureAnswer y.fstate y.fmem (addr20 y.bank (addr16 y.addrHi (y.addrLo + 1#8)))) := by
  obtain ⟨es, hes, hlog⟩ := execAll_loadLow y (y.addrLo + 1#8) hwe
  generalize hz : Device.shown { y with addrLo := y.addrLo + 1#8, ctrl := writeFlag .als true y.ctrl } = z at hes
  have hpa : z.pinAddr = addr20 y.bank (addr16 y.addrHi (y.addrLo + 1#8)) := by rw [← hz, Device.pinAddr_shown]
  have hfd : z.flashDrives = true := by
    rw [← hz]; simp [Device.flashDrives, Device.shown, Device.pinOn, hwe, hoe, hin]
  have e : execAll (Machine.readNext p i) y.shown =
      (z.dataLines.2.writeBuf i z.dataLines.1,
        es ++ [.wait .acc p.tAcc, .sampleData z.dataLines.1, .busRead z.pinAddr z.dataLines.1]) := by
    have h1 : execAll [.incAddrLo] y.shown = ({ y.shown with addrLo := y.addrLo + 1#8 }, []) := rfl
    unfold Machine.readNext
    rw [execAll_append, execAll_append, h1, hes]
    simp only [execAll_cons, execAll_nil, Stmt.exec, Device.sampleEvents, List.nil_append, List.append_nil,
      List.cons_append]
  refine ⟨z.dataLines.1, z.dataLines.2.flash, z.dataLines.2.draws,
    es ++ [.wait .acc p.tAcc, .sampleData z.dataLines.1, .busRead z.pinAddr z.dataLines.1],
    Runs.of_execAll h rfl (e.trans ?_), ?_, ?_⟩
  rotate_left
  · rw [BusLog.of_append, hlog, hpa]; rfl
  · intro hf
    have hzf : z.flash = .fixture := by rw [← hz]; exact hf
    have : z.dataLines = (fixtureAnswer z.fstate z.fmem z.pinAddr, z) := by
      unfold Device.dataLines; rw [hfd, hzf]; rfl
    rw [this, hpa, ← hz]
    exact ⟨hf, rfl, rfl⟩
  · refine Prod.ext ?_ rfl
    show z.dataLines.2.writeBuf i z.dataLines.1 = _
    rw [z.dataLines_rest]
    generalize z.dataLines.1 = v
    generalize z.dataLines.2.flash = fl
    generalize z.dataLines.2.draws = dr
    rw [← hz]
    rfl

/-- Turns of READ_ARM's loop (R165): each reads the next low byte, mod 256, and fills its entry. -/
theorem Runs.readLoop (p : Params) : ∀ (L : List (Fin 64)) (y : Device), y.dstate = .executing →
    isAsserted .we y.ctrl = false → isAsserted .oe y.ctrl = true → y.portDir = .input →
    ∃ (vs : List Byte) (fl : FlashSource) (dr : Nat) (es : List Event), vs.length = L.length ∧
      Runs (L.flatMap (Machine.readNext p)) y.shown
        (Device.shown { y with
          addrLo := y.addrLo + BitVec.ofNat 8 L.length
          ctrl := if L = [] then y.ctrl else writeFlag .als true y.ctrl
          flash := fl
          draws := dr
          buf := writeBufs y.buf (L.zip vs) }) es ∧
      BusLog.of es =
        { events := vs.zipIdx.flatMap fun x =>
            timedSample p (addr20 y.bank (addr16 y.addrHi (y.addrLo + BitVec.ofNat 8 (x.2 + 1)))) x.1
          lineWrites := 26 * L.length + if L = [] ∨ isAsserted .als y.ctrl = true then 0 else 26 } ∧
      (y.flash = .fixture → fl = .fixture ∧ dr = y.draws ∧ ∀ x ∈ vs.zipIdx,
        x.1 = fixtureAnswer y.fstate y.fmem (addr20 y.bank (addr16 y.addrHi (y.addrLo + BitVec.ofNat 8 (x.2 + 1))))) := by
  intro L
  induction L with
  | nil =>
    intro y h _ _ _
    refine ⟨[], y.flash, y.draws, [], rfl, ?_, ?_, fun hf => ⟨hf, rfl, by simp⟩⟩
    · have : y.addrLo + BitVec.ofNat 8 ([] : List (Fin 64)).length = y.addrLo := by simp
      rw [this]
      exact Runs.nil h
    · simp
  | cons i L ih =>
    intro y h hwe hoe hin
    obtain ⟨v, fl, dr, es, hr, hl, hf⟩ := Runs.readNext p y i h hwe hoe hin
    have hals : isAsserted .als (writeFlag .als true y.ctrl) = true := by simp
    obtain ⟨vs, fl2, dr2, es2, hlen, hr2, hl2, hf2⟩ := ih
      { y with
        addrLo := y.addrLo + 1#8, ctrl := writeFlag .als true y.ctrl, flash := fl, draws := dr
        buf := y.buf.set i.val (.byte v) i.isLt } h (by simpa using hwe) (by simpa using hoe) hin
    have hadd : ∀ n : Nat, y.addrLo + 1#8 + BitVec.ofNat 8 n = y.addrLo + BitVec.ofNat 8 (n + 1) := by
      intro n
      rw [BitVec.add_assoc]
      congr 1
      apply BitVec.eq_of_toNat_eq
      simp [BitVec.toNat_add, Nat.add_comm]
    refine ⟨v :: vs, fl2, dr2, es ++ es2, by simp [hlen], ?_, ?_, ?_⟩
    · have hrr := hr.append hr2
      rw [List.flatMap_cons]
      have hc : (if L = [] then writeFlag .als true y.ctrl else writeFlag .als true (writeFlag .als true y.ctrl)) =
          writeFlag .als true y.ctrl := by simp
      simp only [hadd, hc] at hrr
      simpa [writeBufs] using hrr
    · rw [BusLog.of_append, hl, hl2]
      simp only [BusLog.append, hadd, hals, List.zipIdx_cons, List.flatMap_cons, List.length_cons, BusLog.mk.injEq]
      refine ⟨?_, ?_⟩
      · congr 1
        rw [show (0 + 1) = 1 from rfl, List.zipIdx_succ, List.flatMap_map]
      · cases isAsserted .als y.ctrl <;> simp <;> omega
    · intro hfx
      obtain ⟨g1, g2, g3⟩ := hf hfx
      obtain ⟨k1, k2, k3⟩ := hf2 g1
      refine ⟨k1, k2.trans g2, ?_⟩
      intro x hx
      rw [List.zipIdx_cons, List.mem_cons] at hx
      rcases hx with hx | hx
      · rw [hx]; exact g3
      · rw [show (0 + 1) = 1 from rfl, List.zipIdx_succ, List.mem_map] at hx
        obtain ⟨x', hx', rfl⟩ := hx
        have := k3 x' hx'
        simp only [hadd] at this
        exact this

theorem chunkAddr_succ (a : Half) (n : Nat) : addr16 (hiByte a) (loByte a + BitVec.ofNat 8 n) = chunkAddr a n := rfl

theorem readCtrl_flags (c : Byte) : isAsserted .we (readCtrl c) = false ∧ isAsserted .oe (readCtrl c) = true ∧
    isAsserted .als (readCtrl c) = false := by simp [readCtrl]

/-- READ_ARM's whole program (R165): 64 reads at the chunk's addresses, in order, each into its entry; where
write-enable stood asserted on the pins, one write event before them (R280). -/
theorem Runs.readArm (p : Params) (d : Device) (a : Half) (b : Nibble) (h : d.dstate = .executing) :
    ∃ (bytes : Vector Byte 64) (fl : FlashSource) (dr : Nat) (es : List Event),
      Runs (progReadArm p a b) d
        (Device.shown { d with
          bank := b
          addrHi := hiByte a
          addrLo := loByte a + 63#8
          ctrl := writeFlag .als true (readCtrl d.ctrl)
          portDir := .input
          buf := bytes.map .byte
          localV := bytes.get 0
          flash := fl
          fstate := d.fstateAfter d.strayWrites
          fmem := d.fmemAfter d.strayWrites
          draws := dr }) es ∧
      BusLog.of es =
        { events := .dir .input :: (riseEvents d.strayWrites ++
            (List.finRange 64).flatMap fun k => timedSample p (addr20 b (chunkAddr a k.val)) (bytes.get k))
          lineWrites := 1740 } ∧
      (d.flash = .fixture → fl = .fixture ∧ ∀ k : Fin 64, bytes.get k =
        fixtureAnswer (d.fstateAfter d.strayWrites) (d.fmemAfter d.strayWrites) (addr20 b (chunkAddr a k.val))) := by
  have h0 : Runs [.loadBank b] d { d with bank := b } [] := Runs.of_execAll h rfl rfl
  have hsw : Device.strayWrites { d with bank := b } = d.strayWrites := rfl
  obtain ⟨es1, h1, l1⟩ := Runs.busRead (d := { d with bank := b }) p a h
  have hfx := Device.reading_fixture { d with bank := b } a
  rw [Device.dataLines_rest] at h1
  generalize hv : (Device.reading { d with bank := b } a).dataLines.1 = v0 at h1 l1
  generalize hfl : (Device.reading { d with bank := b } a).dataLines.2.flash = fl0 at h1
  generalize hdr : (Device.reading { d with bank := b } a).dataLines.2.draws = dr0 at h1
  have h2 : Runs [.storeBuf 0] _ _ [] := Runs.of_execAll h1.1 rfl rfl
  obtain ⟨vs, fl, dr, es3, hlen, h3, l3, f3⟩ := Runs.readLoop p ((List.finRange 64).drop 1)
    { d with
      bank := b
      addrHi := hiByte a
      addrLo := loByte a
      ctrl := readCtrl d.ctrl
      portDir := .input
      buf := d.buf.set 0 (.byte v0)
      localV := v0
      flash := fl0
      fstate := d.fstateAfter d.strayWrites
      fmem := d.fmemAfter d.strayWrites
      draws := dr0 } h (readCtrl_flags _).1 (readCtrl_flags _).2.1 rfl
  have hlen' : vs.length = 63 := by rw [hlen]; rfl
  have hL : ((List.finRange 64).drop 1).length = 63 := by simp
  have hne : (List.finRange 64).drop 1 ≠ [] := by
    intro e; rw [e] at hL; simp at hL
  let bytes : Vector Byte 64 := ⟨(v0 :: vs).toArray, by simp [hlen']⟩
  have hb0 : bytes.get 0 = v0 := rfl
  have hbuf : writeBufs (d.buf.set 0 (.byte v0)) (((List.finRange 64).drop 1).zip vs) = bytes.map .byte := by
    rw [← writeBufs_all d.buf bytes]
    have e1 : List.finRange 64 = 0 :: (List.finRange 64).drop 1 := rfl
    have e2 : bytes.toList = v0 :: vs := by simp [bytes, Vector.toList]
    rw [e2]
    conv_rhs => rw [e1, List.zip_cons_cons]
    rfl
  have hget : ∀ k : Fin 64, (v0 :: vs)[k.val]? = some (bytes.get k) := by
    intro k
    have : k.val < (v0 :: vs).length := by simp [hlen']
    rw [List.getElem?_eq_getElem this]
    rfl
  have hrun := ((h0.append h1).append h2).append h3
  refine ⟨bytes, fl, dr, [] ++ es1 ++ [] ++ es3, ?_, ?_, ?_⟩
  rotate_left
  · rw [BusLog.of_append, BusLog.of_append, BusLog.of_append, l1, l3, hsw]
    have hsamples : ((List.finRange 64).map fun k => (addr20 b (chunkAddr a k.val), bytes.get k)) =
        (addr20 b a, v0) :: vs.zipIdx.map fun x =>
          (addr20 b (addr16 (hiByte a) (loByte a + BitVec.ofNat 8 (x.2 + 1))), x.1) := by
      apply List.ext_getElem?
      intro n
      by_cases hn : n < 64
      · have e : (List.finRange 64)[n]? = some ⟨n, hn⟩ := by simp [hn]
        rw [List.getElem?_map, e]
        have hg := hget ⟨n, hn⟩
        cases n with
        | zero =>
          have : chunkAddr a 0 = a := by
            unfold chunkAddr; rw [BitVec.add_zero, addr16_hi_lo]
          simp [this, hb0]
        | succ m =>
          simp only [List.getElem?_cons_succ] at hg
          simp only [List.getElem?_cons_succ, List.getElem?_map, List.getElem?_zipIdx, hg, Option.map_some,
            chunkAddr_succ, Nat.zero_add]
      · have e1 : (List.finRange 64)[n]? = none := by simp; omega
        rw [List.getElem?_map, e1]
        simp [hlen']; omega
    have hflat := congrArg (fun l => l.flatMap fun x => timedSample p x.1 x.2) hsamples
    simp only [List.flatMap_map, List.flatMap_cons] at hflat
    rw [hflat]
    simp only [BusLog.of_nil, BusLog.append, hL, hne, (readCtrl_flags d.ctrl).2.2, List.append_nil, List.nil_append,
      BusLog.mk.injEq, false_or]
    exact ⟨by simp, by simp⟩
  · intro hf
    have hr := hfx hf
    rw [hr] at hv hfl hdr
    obtain ⟨g1, _, g3⟩ := f3 (by rw [← hfl]; exact hf)
    refine ⟨g1, ?_⟩
    intro k
    have hg := hget k
    obtain ⟨n, hn⟩ := k
    cases n with
    | zero =>
      have : chunkAddr a 0 = a := by
        unfold chunkAddr; rw [BitVec.add_zero, addr16_hi_lo]
      show bytes.get 0 = _
      rw [hb0, ← hv]
      simp only [this]
      rfl
    | succ m =>
      simp only [List.getElem?_cons_succ] at hg
      have hmem : (bytes.get ⟨m + 1, hn⟩, m) ∈ vs.zipIdx := by
        rw [List.mem_iff_getElem?]
        exact ⟨m, by simp [List.getElem?_zipIdx, hg]⟩
      exact g3 _ hmem
  · have e : progReadArm p a b =
        [.loadBank b] ++ Machine.busRead p a ++ [.storeBuf 0] ++ ((List.finRange 64).drop 1).flatMap (Machine.readNext p) := rfl
    rw [e]
    convert hrun using 2
    simp only [hL, hne, if_false, hbuf, hb0]

/-! ### The erase polls (R167) -/

/-- A device after the erase polls whose reads gave `vs`. -/
def Device.polled (y : Device) (a : Half) (vs : List Byte) (fl : FlashSource) (dr : Nat) : Device :=
  if vs = [] then y
  else
    Device.shown { y with
      addrHi := hiByte a
      addrLo := loByte a
      ctrl := readCtrl y.ctrl
      portDir := .input
      localV := vs.getLast?.getD y.localV
      flash := fl
      draws := dr }

/-- The erase polls to their end: reads until the first 0xFF or the last retry, the status by which it was (R167). -/
theorem finalRun_eraseWait (p : Params) (a : Half) : ∀ (k : Nat) (y : Device), y.dstate = .executing →
    y.pinOn .we = false →
    ∃ (vs : List Byte) (fl : FlashSource) (dr : Nat) (es : List Event),
      vs.length ≤ k ∧ (∀ v ∈ vs.dropLast, v ≠ 0xFF#8) ∧ (vs.getLast? ≠ some 0xFF#8 → vs.length = k) ∧
      (y.withPos (erasePolls p a k ++ [.fail .eraseFailed])).finalRun =
        (Device.complete { y.polled a vs fl dr with
          status := if vs.getLast? = some 0xFF#8 then .initialised else .eraseFailed }, es) ∧
      BusLog.of es =
        { events := vs.flatMap fun v => .wait .erasePoll p.erasePollDelay :: readCycle p (addr20 y.bank a) v
          lineWrites := 76 * vs.length } ∧
      (y.flash = .fixture → ∀ v ∈ vs, v = fixtureAnswer y.fstate y.fmem (addr20 y.bank a)) := by
  intro k
  induction k with
  | zero =>
    intro y h _
    refine ⟨[], y.flash, y.draws, [], by simp, by simp, by simp, ?_, rfl, by simp⟩
    have := finalRun_fail .eraseFailed [] y h
    simpa [erasePolls, Device.polled, Device.failWith, Device.complete] using this
  | succ k ih =>
    intro y h hwe
    have hst := y.strayWrites_of hwe
    have h0 : Runs [.wait .erasePoll p.erasePollDelay] y y [.wait .erasePoll p.erasePollDelay] :=
      Runs.of_execAll h rfl rfl
    obtain ⟨es1, h1, l1⟩ := Runs.busRead p a h
    have hfx := y.reading_fixture a
    rw [Device.dataLines_rest] at h1
    generalize hv : (y.reading a).dataLines.1 = v at h1 l1
    generalize hfl : (y.reading a).dataLines.2.flash = fl at h1
    generalize hdr : (y.reading a).dataLines.2.draws = dr at h1
    have hz : ({ { y.reading a with flash := fl, draws := dr } with localV := v } : Device) = y.polled a [v] fl dr := by
      unfold Device.reading
      rw [hst]
      rfl
    rw [hz] at h1
    have h01 := h0.append h1
    have hprog : erasePolls p a (k + 1) ++ [.fail .eraseFailed] =
        ([.wait .erasePoll p.erasePollDelay] ++ Machine.busRead p a) ++
          (.eraseCheck :: (erasePolls p a k ++ [.fail .eraseFailed])) := by
      simp [erasePolls, erasePoll]
    have hlv : (y.polled a [v] fl dr).localV = v := rfl
    have hrun := h01.2 (.eraseCheck :: (erasePolls p a k ++ [.fail .eraseFailed]))
    rw [finalRun_eraseCheck _ _ h01.1, hlv, ← hprog] at hrun
    by_cases hff : v = 0xFF#8
    · rw [if_pos hff] at hrun
      refine ⟨[v], fl, dr, [.wait .erasePoll p.erasePollDelay] ++ es1, by simp, by simp, by simp [hff],
        hrun.trans ?_, ?_, ?_⟩
      · simp only [hff, List.getLast?_singleton, if_true, List.append_nil]
        rfl
      · rw [BusLog.of_append, l1, hst]; rfl
      · intro hf x hx
        have hr := hfx hf
        rw [hr] at hv
        simp only [List.mem_singleton] at hx
        rw [hx, ← hv]
        unfold Device.reading; rw [hst]; rfl
    · rw [if_neg hff] at hrun
      obtain ⟨vs, fl2, dr2, es2, i1, i2, i3, i4, i5, i6⟩ := ih (y.polled a [v] fl dr) h01.1 (by
        show Device.pinOn (Device.shown _) .we = false
        simp [Device.pinOn, Device.shown, readCtrl])
      have hpol : ∀ s : Status, ({ (y.polled a [v] fl dr).polled a vs fl2 dr2 with status := s } : Device) =
          { y.polled a (v :: vs) (if vs = [] then fl else fl2) (if vs = [] then dr else dr2) with status := s } := by
        intro s
        cases vs with
        | nil => rfl
        | cons w ws =>
          have hl : (w :: ws).getLast?.getD v = (v :: w :: ws).getLast?.getD y.localV := by
            simp [List.getLast?_cons]
          simp only [Device.polled, Device.shown, readCtrl_readCtrl, reduceCtorEq, if_false, List.getLast?_singleton,
            Option.getD_some, hl]
      have hlast : (v :: vs).getLast? = some 0xFF#8 ↔ vs.getLast? = some 0xFF#8 := by
        cases vs with
        | nil => simp [hff]
        | cons w ws => simp
      refine ⟨v :: vs, if vs = [] then fl else fl2, if vs = [] then dr else dr2,
        [.wait .erasePoll p.erasePollDelay] ++ es1 ++ es2, by simpa using i1, ?_, ?_, hrun.trans ?_, ?_, ?_⟩
      rotate_left
      · intro hne
        have := i3 (fun e => hne (hlast.2 e))
        simp [this]
      · rw [i4, hpol]
        simp only [hlast]
      · rw [BusLog.of_append, BusLog.of_append, l1, hst, i5]
        simp only [BusLog.append, List.flatMap_cons, List.length_cons, BusLog.mk.injEq]
        exact ⟨rfl, by simp [BusLog.of, lineWritesOf, Event.isSet]; omega⟩
      · intro hf x hx
        have hr := hfx hf
        rw [hr] at hv hfl
        rcases List.mem_cons.1 hx with hx | hx
        · rw [hx, ← hv]
          unfold Device.reading; rw [hst]; rfl
        · exact i6 (by rw [← hfl]; exact hf) x hx
      · intro w hw
        cases vs with
        | nil => simp at hw
        | cons u us =>
          rw [List.dropLast_cons_cons] at hw
          rcases List.mem_cons.1 hw with hw | hw
          · rw [hw]; exact hff
          · exact i2 w hw

end Sys2Proof.Machine
end

