-- ==== Sys2Proof/Laws/Chunk.lean ====
section
/-! SUPPORT. A WRITE's chunk in closed form: the program as polled segments, the run of a list of segments to its end
or to the first poll that runs out, and the fixed-delay variant as one block (R113, R160 to R164). -/

namespace Sys2Proof.Machine

open Sys2Proof

/-! ### Write cycles whose byte comes from the buffer -/

/-- A write cycle of the chunk: its address, its byte, and the statement that drives the byte. -/
structure Cycle where
  addr : Half
  val : Byte
  via : Stmt

/-- The statement drives the byte, on every device with the buffer `buf`. -/
def Cycle.Drives (buf : Vector Slot 64) (c : Cycle) : Prop :=
  ∀ x : Device, x.buf = buf → c.via.exec x = ({ x with portOut := .byte c.val }, [.drive c.val])

/-- Write cycles one after another, each driving by its own statement. -/
def busCycles (cs : List Cycle) : List Stmt := cs.flatMap fun c => busWriteVia c.addr c.via

/-- The addresses and bytes of cycles. -/
def cyclePairs (cs : List Cycle) : List (Half × Byte) := cs.map fun c => (c.addr, c.val)

/-- The write events of cycles. -/
def cycleWrites (b : Nibble) (cs : List Cycle) : List (Addr20 × Byte) := cs.map fun c => (addr20 b c.addr, c.val)

theorem busCycles_append (c1 c2 : List Cycle) : busCycles (c1 ++ c2) = busCycles c1 ++ busCycles c2 := by
  simp [busCycles]

theorem Device.writtenAll_append (d : Device) (w1 w2 : List (Half × Byte)) :
    d.writtenAll (w1 ++ w2) = (d.writtenAll w1).writtenAll w2 := by
  induction w1 generalizing d with
  | nil => rfl
  | cons w w1 ih => exact ih (d.written w.1 w.2)

theorem Device.writtenAll_frame (ws : List (Half × Byte)) : ∀ d : Device,
    (d.writtenAll ws).dstate = d.dstate ∧ (d.writtenAll ws).bank = d.bank ∧ (d.writtenAll ws).buf = d.buf ∧
      (d.weShown → (d.writtenAll ws).weShown) := by
  induction ws with
  | nil => intro d; exact ⟨rfl, rfl, rfl, id⟩
  | cons w ws ih =>
    intro d
    obtain ⟨h1, h2, h3, h4⟩ := ih (d.written w.1 w.2)
    exact ⟨h1, h2, h3, fun _ => h4 (d.written_weShown _ _)⟩

/-- The readiness source and the draws do not matter to write cycles, nor write cycles to them. -/
theorem Device.writtenAll_ready (ws : List (Half × Byte)) (rd : ReadySource) (dr : Nat) : ∀ d : Device,
    Device.writtenAll { d with ready := rd, draws := dr } ws = { d.writtenAll ws with ready := rd, draws := dr } := by
  induction ws with
  | nil => intro d; rfl
  | cons w ws ih => intro d; exact ih (d.written w.1 w.2)

theorem Runs.busCycles (cs : List Cycle) : ∀ {d : Device}, d.dstate = .executing → d.weShown →
    (∀ c ∈ cs, c.Drives d.buf) → (∀ c ∈ cs, c.via.straight = true) →
    ∃ es, Runs (Machine.busCycles cs) d (d.writtenAll (cyclePairs cs)) es ∧
      BusLog.of es =
        { events := writeCycles (cycleWrites d.bank cs), lineWrites := 128 * cs.length } := by
  induction cs with
  | nil => intro d h _ _ _; exact ⟨[], Runs.nil h, rfl⟩
  | cons c cs ih =>
    intro d h hw hd hs
    have hstr : (busWriteVia c.addr c.via).all Stmt.straight = true := by
      have : c.via.straight = true := hs c (by simp)
      simp only [busWriteVia, loadAddr, loadFull, List.all_append, List.all_cons, List.all_nil, this]
      rfl
    have h1 := Runs.of_execAll h hstr (execAll_busWriteVia d c.addr c.val c.via hw (hd c (by simp)))
    obtain ⟨es, hr, hl⟩ := ih (d := d.written c.addr c.val) h (d.written_weShown _ _)
      (fun x hx => hd x (by simp [hx])) (fun x hx => hs x (by simp [hx]))
    refine ⟨_, h1.append hr, ?_⟩
    rw [BusLog.of_append, hl, Device.log_writeEvents]
    simp only [BusLog.append, List.length_cons, Nat.mul_add, BusLog.mk.injEq]
    exact ⟨rfl, by omega⟩

/-! ### A readiness poll (R113) -/

/-- A poll's samples are all it shows. -/
@[simp] theorem log_misses (n : Nat) :
    BusLog.of (List.replicate n (.sampleReady false)) = { events := List.replicate n (.sampleReady false) } :=
  BusLog.of_noSets fun e he => by rw [(List.mem_replicate.1 he).2]; rfl

@[simp] theorem log_pollEvents (n : Nat) : BusLog.of (pollEvents n) = { events := pollEvents n } := by
  rw [pollEvents, BusLog.of_append, log_misses]; rfl

/-- A poll of at most `k` samples: it ends true after `n < k` false samples, or runs out and fails the WRITE. It changes
the readiness source and the draws, nothing else. -/
theorem poll_cases (k : Nat) : ∀ d : Device, d.dstate = .executing → ∃ rd dr,
    (∃ n, n < k ∧ Runs [.poll k] d { d with ready := rd, draws := dr } (pollEvents n)) ∨
      (∀ rest, (d.withPos ([.poll k] ++ rest)).finalRun =
        (Device.complete { d with ready := rd, draws := dr, status := .programFailed },
          List.replicate k (.sampleReady false))) := by
  induction k with
  | zero =>
    intro d h
    exact ⟨d.ready, d.draws, .inr fun rest => finalRun_poll_zero rest d h⟩
  | succ k ih =>
    intro d h
    have hr := d.readyLine_rest
    by_cases hb : d.readyLine.1 = true
    · refine ⟨d.readyLine.2.ready, d.readyLine.2.draws, .inl ⟨0, by omega, ?_⟩⟩
      refine ⟨h, fun rest => ?_⟩
      rw [List.singleton_append, finalRun_poll_succ k rest d h, if_pos hb, ← hr]
      rfl
    · have hd : d.readyLine.2.dstate = .executing := by simp [h]
      obtain ⟨rd, dr, hi⟩ := ih d.readyLine.2 hd
      have hrec : ({ d.readyLine.2 with ready := rd, draws := dr } : Device) = { d with ready := rd, draws := dr } := by
        rw [hr]
      have hrec2 : ({ d.readyLine.2 with ready := rd, draws := dr, status := .programFailed } : Device) =
          { d with ready := rd, draws := dr, status := .programFailed } := by rw [hr]
      refine ⟨rd, dr, ?_⟩
      rcases hi with ⟨n, hn, hrun⟩ | hfail
      · refine .inl ⟨n + 1, by omega, h, fun rest => ?_⟩
        have := hrun.2 rest
        rw [hrec] at this
        rw [List.singleton_append, finalRun_poll_succ k rest d h, if_neg hb]
        rw [List.singleton_append] at this
        rw [this]
        simp [pollEvents, List.replicate_succ]
      · refine .inr fun rest => ?_
        have := hfail rest
        rw [hrec2] at this
        rw [List.singleton_append, finalRun_poll_succ k rest d h, if_neg hb]
        rw [List.singleton_append] at this
        rw [this]
        simp [List.replicate_succ]

/-! ### Polled segments -/

/-- A program of polled segments: before each segment's write cycles, one poll of at most `n` samples. -/
def polledSegments (n : Nat) (S : List (List Cycle)) : List Stmt := S.flatMap fun cs => [.poll n] ++ busCycles cs

/-- Segments run to their end, or up to the first poll that runs out of samples (R164, R229). -/
theorem polledSegments_cases (n : Nat) : ∀ (S : List (List Cycle)) (d : Device), d.dstate = .executing → d.weShown →
    (∀ cs ∈ S, ∀ c ∈ cs, c.Drives d.buf ∧ c.via.straight = true) →
    ∃ (k : Nat) (misses : List Nat) (rd : ReadySource) (dr : Nat) (es : List Event),
      misses.length = k ∧ (∀ m ∈ misses, m < n) ∧
      ((k = S.length ∧
          Runs (polledSegments n S) d
            { d.writtenAll (cyclePairs S.flatten) with ready := rd, draws := dr } es ∧
          BusLog.of es =
            { events := polledCycles misses (S.map (cycleWrites d.bank))
              lineWrites := 128 * S.flatten.length }) ∨
        (k < S.length ∧
          (∀ rest, (d.withPos (polledSegments n S ++ rest)).finalRun =
            (Device.complete
              { d.writtenAll (cyclePairs (S.take k).flatten) with
                ready := rd, draws := dr, status := .programFailed }, es)) ∧
          BusLog.of es =
            { events := polledCycles misses (S.map (cycleWrites d.bank)) ++ List.replicate n (.sampleReady false)
              lineWrites := 128 * (S.take k).flatten.length })) := by
  intro S
  induction S with
  | nil =>
    intro d h _ _
    exact ⟨0, [], d.ready, d.draws, [], rfl, by simp, .inl ⟨rfl, Runs.nil h, rfl⟩⟩
  | cons cs S ih =>
    intro d h hw hc
    obtain ⟨rd, dr, hp⟩ := poll_cases n d h
    rcases hp with ⟨m, hm, hpoll⟩ | hfail
    · obtain ⟨es1, hr1, hl1⟩ := Runs.busCycles cs (d := { d with ready := rd, draws := dr }) h hw
        (fun c hx => (hc cs (by simp) c hx).1) (fun c hx => (hc cs (by simp) c hx).2)
      have hfr := Device.writtenAll_frame (cyclePairs cs) { d with ready := rd, draws := dr }
      obtain ⟨k, misses, rd2, dr2, es2, g1, g2, g3⟩ := ih (Device.writtenAll { d with ready := rd, draws := dr } (cyclePairs cs))
        (hfr.1.trans h) (hfr.2.2.2 hw) (by
          intro cs' h' c' hc'
          rw [hfr.2.2.1]
          exact hc cs' (by simp [h']) c' hc')
      have hrun := hpoll.append hr1
      have hprog : polledSegments n (cs :: S) = ([.poll n] ++ Machine.busCycles cs) ++ polledSegments n S := by
        simp [polledSegments]
      have hdev : ∀ T : List (List Cycle), ∀ rd' dr',
          ({ (Device.writtenAll { d with ready := rd, draws := dr } (cyclePairs cs)).writtenAll (cyclePairs T.flatten) with
              ready := rd', draws := dr' } : Device) =
            { d.writtenAll (cyclePairs (cs :: T).flatten) with ready := rd', draws := dr' } := by
        intro T rd' dr'
        have e : cyclePairs (cs :: T).flatten = cyclePairs cs ++ cyclePairs T.flatten := by simp [cyclePairs]
        rw [e, Device.writtenAll_append, Device.writtenAll_ready (cyclePairs cs) rd dr d,
          Device.writtenAll_ready (cyclePairs T.flatten) rd dr (d.writtenAll (cyclePairs cs))]
      have hbank : (Device.writtenAll { d with ready := rd, draws := dr } (cyclePairs cs)).bank = d.bank := hfr.2.1
      have hcyc : ∀ ms, polledCycles (m :: ms) ((cs :: S).map (cycleWrites d.bank)) =
          pollEvents m ++ writeCycles (cycleWrites d.bank cs) ++ polledCycles ms (S.map (cycleWrites d.bank)) := by
        intro ms; simp [polledCycles]
      have hlog0 : BusLog.of (pollEvents m ++ es1) =
          { events := pollEvents m ++ writeCycles (cycleWrites d.bank cs)
            lineWrites := 128 * cs.length } := by
        rw [BusLog.of_append, log_pollEvents, hl1]
        simp [BusLog.append]
      refine ⟨k + 1, m :: misses, rd2, dr2, (pollEvents m ++ es1) ++ es2, by simp [g1], ?_, ?_⟩
      · intro x hx
        rcases List.mem_cons.1 hx with hx | hx
        · rw [hx]; exact hm
        · exact g2 x hx
      · rcases g3 with ⟨k1, k2, k3⟩ | ⟨k1, k2, k3⟩
        · refine .inl ⟨by simp [k1], ?_, ?_⟩
          · rw [hprog, ← hdev]
            exact hrun.append k2
          · rw [BusLog.of_append, hlog0, k3, hbank, hcyc]
            simp only [BusLog.append, List.flatten_cons, List.length_append, BusLog.mk.injEq, true_and]
            omega
        · refine .inr ⟨by simpa using k1, fun rest => ?_, ?_⟩
          · rw [hprog, List.append_assoc, hrun.2, k2 rest, List.take_succ_cons]
            refine Prod.ext ?_ rfl
            show Device.complete _ = Device.complete _
            congr 1
            have := hdev (S.take k) rd2 dr2
            have e2 := congrArg (fun x : Device => { x with status := .programFailed }) this
            exact e2
          · rw [BusLog.of_append, hlog0, k3, hbank, List.take_succ_cons, hcyc]
            simp only [BusLog.append, List.flatten_cons, List.length_append, List.append_assoc, BusLog.mk.injEq, true_and]
            omega
    · refine ⟨0, [], rd, dr, List.replicate n (.sampleReady false), rfl, by simp, .inr ⟨by simp, fun rest => ?_, ?_⟩⟩
      · have hprog : polledSegments n (cs :: S) = [.poll n] ++ (Machine.busCycles cs ++ polledSegments n S) := by
          simp [polledSegments]
        rw [hprog, List.append_assoc, hfail]
        rfl
      · rw [log_misses]; rfl

end Sys2Proof.Machine
end

