-- ==== Sys2Proof/Laws/Encoding.lean ====
section
/-! SUPPORT. The fields of a concatenation, and the opcode and mode maps read back: what a proof that decoding and
encoding agree cites. -/

namespace Sys2Proof

/-! ### Fields of concatenations -/

@[simp] theorem hiByte_append (x y : Byte) : hiByte (x ++ y) = x := by
  apply BitVec.eq_of_getLsbD_eq; intro i hi
  have h1 : ¬8 + i < 8 := by omega
  have h2 : 8 + i - 8 = i := by omega
  simp only [hiByte, BitVec.getLsbD_append, BitVec.getLsbD_extractLsb', hi, h1, h2, if_false, decide_true, Bool.true_and]

@[simp] theorem loByte_append (x y : Byte) : loByte (x ++ y) = y := by
  apply BitVec.eq_of_getLsbD_eq; intro i hi
  have h3 : 0 + i = i := by omega
  simp only [loByte, BitVec.getLsbD_append, BitVec.getLsbD_extractLsb', hi, h3, if_true, decide_true, Bool.true_and]

@[simp] theorem hiByte_append3 (z : Byte) (x y : Nibble) : hiByte (z ++ x ++ y) = z := by
  apply BitVec.eq_of_getLsbD_eq; intro i hi
  have h1 : ¬8 + i < 4 := by omega
  have h2 : ¬8 + i - 4 < 4 := by omega
  have h3 : 8 + i - 4 - 4 = i := by omega
  simp only [hiByte, BitVec.getLsbD_append, BitVec.getLsbD_extractLsb', hi, h1, h2, h3, if_false, decide_true,
    Bool.true_and]

@[simp] theorem midNibble_append3 (z : Byte) (x y : Nibble) : midNibble (z ++ x ++ y) = x := by
  apply BitVec.eq_of_getLsbD_eq; intro i hi
  have h1 : ¬4 + i < 4 := by omega
  have h2 : 4 + i - 4 < 4 := by omega
  have h3 : 4 + i - 4 = i := by omega
  simp only [midNibble, BitVec.getLsbD_append, BitVec.getLsbD_extractLsb', hi, h1, h3, if_false, if_true, decide_true,
    Bool.true_and]

@[simp] theorem lowNibble_append3 (z : Byte) (x y : Nibble) : lowNibble (z ++ x ++ y) = y := by
  apply BitVec.eq_of_getLsbD_eq; intro i hi
  have h1 : 0 + i < 4 := by omega
  have h3 : 0 + i = i := by omega
  simp only [lowNibble, BitVec.getLsbD_append, BitVec.getLsbD_extractLsb', hi, h3, if_true, decide_true,
    Bool.true_and]

/-- A half word is its fields. -/
theorem half_fields (p : Half) : hiByte p ++ midNibble p ++ lowNibble p = p := by
  apply BitVec.eq_of_getLsbD_eq; intro i hi
  simp only [hiByte, midNibble, lowNibble, BitVec.getLsbD_append, BitVec.getLsbD_extractLsb']
  by_cases h1 : i < 4
  · simp [h1]
  · by_cases h2 : i < 8
    · have e : 4 + (i - 4) = i := by omega
      have l : i - 4 < 4 := by omega
      simp [h1, l, e]
    · have e : 8 + (i - 4 - 4) = i := by omega
      have l : ¬i - 4 < 4 := by omega
      have m : i - 4 - 4 < 8 := by omega
      simp [h1, l, e, m]

theorem half_bytes (p : Half) : hiByte p ++ loByte p = p := by
  apply BitVec.eq_of_getLsbD_eq; intro i hi
  simp only [hiByte, loByte, BitVec.getLsbD_append, BitVec.getLsbD_extractLsb']
  by_cases h2 : i < 8
  · simp [h2]
  · have e : 8 + (i - 8) = i := by omega
    have m : i - 8 < 8 := by omega
    simp [h2, e, m]

@[simp] theorem nib_header (o : Opc) (sub : Nibble) (p0 p1 : Half) : (header o sub p0 p1).nib = opc o := by
  apply BitVec.eq_of_getLsbD_eq; intro i hi
  have h1 : ¬4 + i < 4 := by omega
  have h2 : 4 + i - 4 = i := by omega
  simp only [Header.nib, header, BitVec.getLsbD_append, BitVec.getLsbD_extractLsb', hi, h1, h2, if_false, decide_true,
    Bool.true_and]

@[simp] theorem sub_header (o : Opc) (sub : Nibble) (p0 p1 : Half) : (header o sub p0 p1).sub = sub := by
  apply BitVec.eq_of_getLsbD_eq; intro i hi
  have h3 : 0 + i = i := by omega
  simp only [Header.sub, header, BitVec.getLsbD_append, BitVec.getLsbD_extractLsb', hi, h3, if_true, decide_true,
    Bool.true_and]

@[simp] theorem p0_header (o : Opc) (sub : Nibble) (p0 p1 : Half) : (header o sub p0 p1).p0 = p0 := rfl
@[simp] theorem p1_header (o : Opc) (sub : Nibble) (p0 p1 : Half) : (header o sub p0 p1).p1 = p1 := rfl

/-- An opcode byte is its two nibbles. -/
theorem op8_fields (h : Header) : h.nib ++ h.sub = h.op8 := by
  apply BitVec.eq_of_getLsbD_eq; intro i hi
  simp only [Header.nib, Header.sub, BitVec.getLsbD_append, BitVec.getLsbD_extractLsb']
  by_cases h1 : i < 4
  · simp [h1]
  · have e : 4 + (i - 4) = i := by omega
    have m : i - 4 < 4 := by omega
    simp [h1, e, m]

/-! ### The maps of R83 and R86 are injective and read back -/

@[simp] theorem opcOfNibble_opc (o : Opc) : opcOfNibble (opc o) = some o := by cases o <;> rfl

@[simp] theorem modeOfByte_modeCode (m : Mode) : modeOfByte (modeCode m) = some m := by cases m <;> rfl

theorem opc_of_opcOfNibble {n : Nibble} {o : Opc} (h : opcOfNibble n = some o) : opc o = n := by
  simpa using List.find?_some h

theorem modeCode_of_modeOfByte {b : Byte} {m : Mode} (h : modeOfByte b = some m) : modeCode m = b := by
  simpa using List.find?_some h

theorem opcOfNibble_eq_none {n : Nibble} : opcOfNibble n = none ↔ ∀ o, opc o ≠ n := by
  simp only [opcOfNibble, List.find?_eq_none, beq_iff_eq]
  exact ⟨fun h o => h o (by cases o <;> decide), fun h o _ => h o⟩

theorem modeOfByte_eq_none {b : Byte} : modeOfByte b = none ↔ ∀ m, modeCode m ≠ b := by
  simp only [modeOfByte, List.find?_eq_none, beq_iff_eq]
  exact ⟨fun h m => h m (by cases m <;> decide), fun h m _ => h m⟩

end Sys2Proof
end

