-- ==== Sys2Proof/Laws/PerInstr.lean ====
section
/-! SUPPORT. The family TableRow, one lemma per instruction: the request word of an instruction matches the mask and
the match of its row of spec/opcode_table.json (R81, R83, R85, R86). -/

namespace Sys2Proof.Laws

open Sys2Proof

/-- A row of the opcode table: mask and match over the 40-bit request word of R81. -/
structure Row where
  mask : BitVec 40
  pattern : BitVec 40
  deriving DecidableEq, Repr

/-- The row of each instruction, letter for letter from spec/opcode_table.json. -/
def tableRow : Instr → Row
  | .setControl _ _ _ => ⟨0xFF00000000#40, 0x1000000000#40⟩
  | .setAddress _ _ _ _ => ⟨0xFF00000000#40, 0x2000000000#40⟩
  | .setData _ _ _ => ⟨0xFF00000000#40, 0x3000000000#40⟩
  | .getData _ _ => ⟨0xFF00000000#40, 0x4000000000#40⟩
  | .write _ _ _ => ⟨0xFF0000FF00#40, 0x5000000000#40⟩
  | .writeFixed _ _ _ _ => ⟨0xFF00000000#40, 0x5000000000#40⟩
  | .readArm _ _ _ _ => ⟨0xFF00000000#40, 0x6000000000#40⟩
  | .readFetch _ _ => ⟨0xFF00000000#40, 0x6100000000#40⟩
  | .setupProbeReady _ _ _ => ⟨0xFF0000FF00#40, 0x7000000000#40⟩
  | .setupBeginRead _ _ _ => ⟨0xFF0000FF00#40, 0x7000000100#40⟩
  | .setupBeginWrite _ _ _ => ⟨0xFF0000FF00#40, 0x7000000200#40⟩
  | .setupIdManuf _ _ _ => ⟨0xFF0000FF00#40, 0x7000000300#40⟩
  | .setupIdDevice _ _ _ => ⟨0xFF0000FF00#40, 0x7000000400#40⟩
  | .setupVerifyProt _ _ _ => ⟨0xFF0000FF00#40, 0x7000000500#40⟩
  | .setupEraseChip _ _ _ => ⟨0xFF0000FF00#40, 0x7000000600#40⟩
  | .setupEraseSector _ _ _ => ⟨0xFF0000FF00#40, 0x7000000700#40⟩
  | .bootloader _ _ => ⟨0xFF00000000#40, 0x8000000000#40⟩

/-- The instruction's word lies in its row. -/
def TableRow.Statement (i : Instr) : Prop := (encode i).toRW &&& (tableRow i).mask = (tableRow i).pattern

/-- The opcode byte alone under the table's opcode mask. -/
theorem toRW_and_opcode (h : Header) : h.toRW &&& 0xFF00000000#40 = h.op8 ++ 0#16 ++ 0#16 := by
  have e : (0xFF00000000#40 : BitVec 40) = 0xFF#8 ++ 0#16 ++ 0#16 := by decide
  have f : h.op8 &&& 0xFF#8 = h.op8 := BitVec.and_allOnes
  rw [e, Header.toRW, BitVec.and_append, BitVec.and_append, BitVec.and_zero, BitVec.and_zero, f]

/-- The opcode byte and the high byte of p1 under the table's mode mask. -/
theorem toRW_and_mode (h : Header) : h.toRW &&& 0xFF0000FF00#40 = h.op8 ++ 0#16 ++ (hiByte h.p1 ++ 0#8) := by
  have e : (0xFF0000FF00#40 : BitVec 40) = 0xFF#8 ++ 0#16 ++ (0xFF#8 ++ 0#8) := by decide
  have f : h.op8 &&& 0xFF#8 = h.op8 := BitVec.and_allOnes
  have g : h.p1 &&& (0xFF#8 ++ 0#8) = hiByte h.p1 ++ 0#8 := by
    conv_lhs => rw [← half_bytes h.p1]
    rw [BitVec.and_append, BitVec.and_zero]
    exact congrArg (· ++ 0#8) BitVec.and_allOnes
  rw [e, Header.toRW, BitVec.and_append, BitVec.and_append, BitVec.and_zero, f, g]

/-- A SETUP word lies in its mode's row. -/
theorem setupHeader_row (m : Mode) (a : Half) (b xm : Nibble) :
    (setupHeader m a b xm).toRW &&& 0xFF0000FF00#40 = 0x70#8 ++ 0#16 ++ (modeCode m ++ 0#8) := by
  rw [toRW_and_mode]
  simp only [setupHeader, p1_header, hiByte_append3]
  rfl

/-- A word whose row names only the opcode byte lies in that row. -/
theorem opcode_row (o : Opc) (sub : Nibble) (p0 p1 : Half) :
    (header o sub p0 p1).toRW &&& 0xFF00000000#40 = (opc o ++ sub) ++ 0#16 ++ 0#16 :=
  toRW_and_opcode _

/-- A WRITE word with slow byte 0 lies in row WRITE. -/
theorem write_row (a : Half) (b xl : Nibble) :
    (header .write 0#4 a (0#8 ++ b ++ xl)).toRW &&& 0xFF0000FF00#40 = 0x50#8 ++ 0#16 ++ (0#8 ++ 0#8) := by
  rw [toRW_and_mode]
  simp only [p1_header, hiByte_append3]
  rfl

namespace TableRow

theorem setControl (c x0 : Byte) (x1 : Half) : Statement (.setControl c x0 x1) :=
  opcode_row .setControl 0#4 (x0 ++ c) x1

theorem setAddress (a : Half) (b : Nibble) (xh : Byte) (xl : Nibble) : Statement (.setAddress a b xh xl) :=
  opcode_row .setAddress 0#4 a (xh ++ b ++ xl)

theorem setData (d x0 : Byte) (x1 : Half) : Statement (.setData d x0 x1) :=
  opcode_row .setData 0#4 (x0 ++ d) x1

theorem getData (x0 x1 : Half) : Statement (.getData x0 x1) :=
  opcode_row .getData 0#4 x0 x1

theorem write (a : Half) (b xl : Nibble) : Statement (.write a b xl) := write_row a b xl

theorem writeFixed (a : Half) (sl : Byte) (b xl : Nibble) : Statement (.writeFixed a sl b xl) :=
  opcode_row .write 0#4 a (sl ++ b ++ xl)

theorem readArm (a : Half) (b : Nibble) (xh : Byte) (xm : Nibble) : Statement (.readArm a b xh xm) :=
  opcode_row .read 0#4 a (xh ++ xm ++ b)

theorem readFetch (x0 x1 : Half) : Statement (.readFetch x0 x1) :=
  opcode_row .read 1#4 x0 x1

theorem setupProbeReady (a : Half) (b xm : Nibble) : Statement (.setupProbeReady a b xm) := setupHeader_row .probeReady a b xm

theorem setupBeginRead (a : Half) (b xm : Nibble) : Statement (.setupBeginRead a b xm) := setupHeader_row .beginRead a b xm

theorem setupBeginWrite (a : Half) (b xm : Nibble) : Statement (.setupBeginWrite a b xm) := setupHeader_row .beginWrite a b xm

theorem setupIdManuf (a : Half) (b xm : Nibble) : Statement (.setupIdManuf a b xm) := setupHeader_row .idManuf a b xm

theorem setupIdDevice (a : Half) (b xm : Nibble) : Statement (.setupIdDevice a b xm) := setupHeader_row .idDevice a b xm

theorem setupVerifyProt (a : Half) (b xm : Nibble) : Statement (.setupVerifyProt a b xm) := setupHeader_row .verifyProt a b xm

theorem setupEraseChip (a : Half) (b xm : Nibble) : Statement (.setupEraseChip a b xm) := setupHeader_row .eraseChip a b xm

theorem setupEraseSector (a : Half) (b xm : Nibble) : Statement (.setupEraseSector a b xm) := setupHeader_row .eraseSector a b xm

theorem bootloader (x0 x1 : Half) : Statement (.bootloader x0 x1) :=
  opcode_row .bootloader 0#4 x0 x1

end TableRow

end Sys2Proof.Laws
end

