-- ==== Sys2Proof/Laws/Progress.lean ====
section
/-! SUPPORT. The status while a command runs (R134, R164, R167): a program writes it only where the command ends, so it
stands as the start step left it at every statement in between. -/

namespace Sys2Proof.Machine

open Sys2Proof

/-- The statement `status <- S`. -/
def Stmt.setsStatus : Stmt → Bool
  | .setStatus _ => true
  | _ => false

/-- `status <- S` stands nowhere but as the last statement. -/
def StatusLast (l : List Stmt) : Prop := ∀ st ∈ l.dropLast, st.setsStatus = false

theorem StatusLast.tail {st : Stmt} {l : List Stmt} (h : StatusLast (st :: l)) : StatusLast l := by
  cases l with
  | nil => simp [StatusLast]
  | cons a l => exact fun x hx => h x (by rw [List.dropLast_cons_cons]; exact List.mem_cons_of_mem _ hx)

theorem StatusLast.cons {st : Stmt} {l : List Stmt} (hs : st.setsStatus = false) (h : StatusLast l) :
    StatusLast (st :: l) := by
  cases l with
  | nil => simp [StatusLast]
  | cons a l =>
    intro x hx
    rw [List.dropLast_cons_cons] at hx
    rcases List.mem_cons.1 hx with hx | hx
    · rw [hx]; exact hs
    · exact h x hx

/-- A list without `status <- S`, and a last statement whatever it is. -/
theorem StatusLast.of_all {l : List Stmt} (st : Stmt) (h : ∀ x ∈ l, x.setsStatus = false) : StatusLast (l ++ [st]) := by
  simpa [StatusLast] using h

/-- What a statement does to the status and to what is left to run. -/
theorem Stmt.exec_status (st : Stmt) (d : Device) :
    (st.exec d).1.pos = [] ∨ (∃ x, st = .setStatus x ∧ (st.exec d).1.pos = d.pos) ∨
      ((st.exec d).1.status = d.status ∧
        ((st.exec d).1.pos = d.pos ∨ ∃ k, (st.exec d).1.pos = .poll k :: d.pos)) := by
  cases st with
  | poll k =>
    cases k with
    | zero => left; simp [Stmt.exec]
    | succ k =>
      refine .inr (.inr ?_)
      simp only [Stmt.exec, Device.pollSample]
      split <;> simp
  | loadLowAssert => refine .inr (.inr ?_); simp only [Stmt.exec]; split <;> simp
  | loadLowShift => refine .inr (.inr ?_); simp only [Stmt.exec]; split <;> simp
  | eraseCheck => simp only [Stmt.exec]; split <;> simp
  | fail s => left; simp [Stmt.exec]
  | enterIdle => left; simp [Stmt.exec]
  | setStatus s => exact .inr (.inl ⟨s, rfl, rfl⟩)
  | _ => refine .inr (.inr ?_); simp [Stmt.exec]

/-- A statement after which the command still runs left the status alone (R134). -/
theorem Device.statement_status (d : Device) (hl : StatusLast d.pos) (hx : d.statement.1.dstate = .executing) :
    d.statement.1.status = d.status ∧ StatusLast d.statement.1.pos := by
  unfold Device.statement at hx ⊢
  split at hx <;> rename_i hp
  · simp at hx
  · rename_i st rest
    simp only at hx ⊢
    rcases (st.exec (d.withPos rest)).1.finish_cases with ⟨_, _, hf⟩ | ⟨hne, hf⟩
    · rw [hf] at hx; simp at hx
    · rw [hf] at hx ⊢
      have hne' : (st.exec (d.withPos rest)).1.pos ≠ [] := by
        rcases hne with h | h
        · exact h
        · rw [hx] at h; exact absurd h (by decide)
      have hrest : StatusLast rest := StatusLast.tail (hp ▸ hl)
      rcases st.exec_status (d.withPos rest) with h | ⟨x, rfl, h⟩ | ⟨hs, h⟩
      · exact absurd h hne'
      · rw [h] at hne'
        have : StatusLast (.setStatus x :: rest) := hp ▸ hl
        cases rest with
        | nil => exact absurd rfl hne'
        | cons a l => exact absurd (this (.setStatus x) (by simp)) (by simp [Stmt.setsStatus])
      · refine ⟨hs, ?_⟩
        rcases h with h | ⟨k, h⟩
        · rw [h]; exact hrest
        · rw [h]; exact StatusLast.cons rfl hrest

theorem busWriteVia_setsStatus (a : Half) (st : Stmt) (h : st.setsStatus = false) :
    ∀ x ∈ busWriteVia a st, x.setsStatus = false := by
  intro x hx
  simp only [busWriteVia, loadAddr, loadFull, List.cons_append, List.nil_append, List.mem_cons, List.not_mem_nil,
    or_false] at hx
  rcases hx with rfl | rfl | rfl | rfl | rfl | rfl | rfl | rfl | rfl | rfl | rfl | rfl <;> first | rfl | exact h

theorem programByte_setsStatus (p : Params) (t : Half) (i : Fin 64) (v : Variant) :
    ∀ x ∈ programByte p t i v, x.setsStatus = false := by
  have hpoll : ∀ x ∈ pollFirst p v, x.setsStatus = false := by cases v <;> simp [pollFirst, Stmt.setsStatus]
  have hwait : ∀ x ∈ waitAfter p v, x.setsStatus = false := by cases v <;> simp [waitAfter, Stmt.setsStatus]
  have hwr : ∀ a b, ∀ x ∈ busWrite a b, x.setsStatus = false := fun a b => busWriteVia_setsStatus a _ rfl
  have hbuf := busWriteVia_setsStatus t (.driveBuf i) rfl
  intro x hx
  simp only [programByte, List.mem_append] at hx
  rcases hx with ((((((h | h) | h) | h) | h) | h) | h) | h
  exacts [hpoll x h, hwr _ _ x h, hpoll x h, hwr _ _ x h, hpoll x h, hwr _ _ x h, hbuf x h, hwait x h]

/-- WRITE writes the status with its last statement (R164). -/
theorem progChunk_statusLast (p : Params) (a : Half) (b : Nibble) (v : Variant) : StatusLast (progChunk p a b v) := by
  refine StatusLast.of_all _ fun x hx => ?_
  simp only [List.mem_append, List.mem_flatMap, List.mem_singleton] at hx
  rcases hx with (rfl | ⟨i, _, h⟩) | h
  · rfl
  · exact programByte_setsStatus p _ i v x h
  · cases v <;> simp [pollFirst] at h; rw [h]; rfl

/-- The erase polls write the status only where they end the command (R167). -/
theorem erasePolls_setsStatus (p : Params) (a : Half) : ∀ k, ∀ x ∈ erasePolls p a k, x.setsStatus = false := by
  intro k
  induction k with
  | zero => simp [erasePolls]
  | succ k ih =>
    intro x hx
    rw [erasePolls, List.mem_append] at hx
    rcases hx with hx | hx
    · simp only [erasePoll, busRead, loadAddr, loadFull, List.cons_append, List.nil_append, List.mem_cons,
        List.not_mem_nil, or_false] at hx
      rcases hx with rfl | rfl | rfl | rfl | rfl | rfl | rfl | rfl | rfl | rfl | rfl | rfl <;> rfl
    · exact ih x hx

/-- A WRITE or an erase writes the status with its last statement, if at all, or where it ends early. -/
theorem program_statusLast (p : Params) (i : Instr) (h : i.isWrite = true ∨ IsErase i) : StatusLast (program p i) := by
  have hwr : ∀ a b, ∀ x ∈ busWrite a b, x.setsStatus = false := fun a b => busWriteVia_setsStatus a _ rfl
  have her : ∀ a b f fd, StatusLast (setupCommon b ++ eraseCommand p f fd ++ eraseWait p a) := by
    intro a b f fd
    rw [eraseWait, ← List.append_assoc]
    refine StatusLast.of_all _ fun x hx => ?_
    have hun : ∀ x ∈ eraseUnlock p.erasePrefix, x.setsStatus = false := by
      intro x hx
      cases he : p.erasePrefix with
      | doc4 => rw [he] at hx; simp [eraseUnlock] at hx
      | jedec6 =>
        rw [he] at hx
        simp only [eraseUnlock, List.mem_append] at hx
        exact hx.elim (hwr _ _ x) (hwr _ _ x)
    simp only [setupCommon, preamble, eraseCommand, List.mem_append, List.mem_singleton] at hx
    rcases hx with ((rfl | h) | ((((h | h) | h) | h) | h)) | h
    exacts [rfl, hwr _ _ x h, hun x h, hwr _ _ x h, hwr _ _ x h, hwr _ _ x h, hwr _ _ x h,
      erasePolls_setsStatus p a _ x h]
  cases i with
  | write a b xl => exact progChunk_statusLast p a b _
  | writeFixed a sl b xl => exact progChunk_statusLast p a b _
  | setupEraseChip a n xm => exact her a _ _ _
  | setupEraseSector a n xm => exact her a _ _ _
  | _ => simp [IsErase, Instr.isWrite] at h

/-- One atomic step of a command that still runs after it, by whichever agent: the status stands (R134, R143). -/
theorem State.atomicStep_status (s : State) (h : s.dstate = .executing) (hd : s.dataPending = 0)
    (hl : StatusLast s.pos) (hx : s.atomicStep.dstate = .executing) :
    s.atomicStep.status = s.status ∧ s.atomicStep.dataPending = 0 ∧ s.atomicStep.params = s.params ∧
      StatusLast s.atomicStep.pos := by
  rw [State.atomicStep_busy (by simp [h]), State.tick] at hx ⊢
  split at hx <;> rename_i hm
  · cases hlk : s.link with
    | nil => simp [State.rxMoves, hlk] at hm
    | cons a rest =>
      have hdev := (s.rxStep_executing a rest hlk h hd).1
      rw [if_pos hm, hdev]
      exact ⟨rfl, hd, rfl, hl⟩
  · rw [if_neg hm] at ⊢
    have hr : s.running = true := (Device.running_iff _).2 (.inr h)
    have e : s.dspMove.toDevice = s.toDevice.statement.1 := by simp [Device.dspStep, hr]
    rw [e] at hx ⊢
    obtain ⟨h1, h2⟩ := s.toDevice.statement_status hl hx
    refine ⟨h1, (Device.statement_dataPending _).trans hd, ?_, h2⟩
    unfold Device.statement
    split
    · rfl
    · rename_i st rest _
      have hp := (st.exec_mailbox (s.toDevice.withPos rest)).2.2
      rcases (st.exec (s.toDevice.withPos rest)).1.finish_cases with ⟨_, _, hf⟩ | ⟨_, hf⟩ <;> simp [hf, hp]

end Sys2Proof.Machine
end

