-- ==== Sys2Proof/Tests/Slice0.lean ====
section
/-! SUPPORT. The model's own tests. Expected values are those of 95_test_vectors.md (V-…, P…) or of the rule named; the
witnesses of the obligations' hypotheses stand at the end. -/

namespace Sys2Proof.Tests

open Sys2Proof Sys2Proof.Machine

/-! ### Well-formedness -/

theorem test_slow_byte_zero_refused : Instr.wellFormed (.writeFixed 0x1234#16 0x00#8 0x1#4 0x0#4) = false := by decide

theorem test_slow_byte_one_accepted : Instr.wellFormed (.writeFixed 0x1234#16 0x01#8 0x1#4 0x0#4) = true := by decide

/-! ### Decoding: request words written out from V-EN1 to V-EN4, the operands from R85 -/

theorem test_decode_setControl : decodeTableWord 40 0x10FF0BFFFF = some (.setControl 0x0B#8 0xFF#8 0xFFFF#16) := by decide

theorem test_decode_setAddress : decodeTableWord 40 0x202345FF1F = some (.setAddress 0x2345#16 0x1#4 0xFF#8 0xF#4) := by
  decide

theorem test_decode_setData : decodeTableWord 40 0x30FF5A1234 = some (.setData 0x5A#8 0xFF#8 0x1234#16) := by decide

theorem test_decode_getData : decodeTableWord 40 0x40FFFF0001 = some (.getData 0xFFFF#16 0x0001#16) := by decide

theorem test_decode_write : decodeTableWord 40 0x50ABCD0053 = some (.write 0xABCD#16 0x5#4 0x3#4) := by decide

theorem test_decode_writeFixed : decodeTableWord 40 0x5000000110 = some (.writeFixed 0x0000#16 0x01#8 0x1#4 0x0#4) := by
  decide

theorem test_decode_readArm : decodeTableWord 40 0x6000401253 = some (.readArm 0x0040#16 0x3#4 0x12#8 0x5#4) := by decide

theorem test_decode_readFetch : decodeTableWord 40 0x6100010002 = some (.readFetch 0x0001#16 0x0002#16) := by decide

theorem test_decode_probeReady : decodeTableWord 40 0x7012340021 = some (.setupProbeReady 0x1234#16 0x1#4 0x2#4) := by decide

theorem test_decode_beginRead : decodeTableWord 40 0x7012340121 = some (.setupBeginRead 0x1234#16 0x1#4 0x2#4) := by decide

theorem test_decode_beginWrite : decodeTableWord 40 0x7012340221 = some (.setupBeginWrite 0x1234#16 0x1#4 0x2#4) := by decide

theorem test_decode_idManuf : decodeTableWord 40 0x7012340321 = some (.setupIdManuf 0x1234#16 0x1#4 0x2#4) := by decide

theorem test_decode_idDevice : decodeTableWord 40 0x7012340421 = some (.setupIdDevice 0x1234#16 0x1#4 0x2#4) := by decide

theorem test_decode_verifyProt : decodeTableWord 40 0x70FFFC0521 = some (.setupVerifyProt 0xFFFC#16 0x1#4 0x2#4) := by decide

theorem test_decode_eraseChip : decodeTableWord 40 0x7012340621 = some (.setupEraseChip 0x1234#16 0x1#4 0x2#4) := by decide

theorem test_decode_eraseSector : decodeTableWord 40 0x7000000701 = some (.setupEraseSector 0x0000#16 0x1#4 0x0#4) := by
  decide

theorem test_decode_bootloader : decodeTableWord 40 0x8000010002 = some (.bootloader 0x0001#16 0x0002#16) := by decide

/-- V-EN2's refused and unsupported headers, by name. -/
theorem test_decode_classes :
    decode (Header.ofRW 0x6F00000000#40) = .refused .readSub ∧ decode (Header.ofRW 0x5800000000#40) = .refused .subNonzero ∧
      decode (Header.ofRW 0x700000FF00#40) = .refused .setupMode ∧ decode (Header.ofRW 0x0000000000#40) = .unsupported ∧
      decode (Header.ofRW 0xF3FFFFFFFF#40) = .unsupported := by decide

/-! ### One request on a small state -/

/-- CLEAN_START and FIXTURE_FRESH (R247), with numbers for the three open delays; the trace is empty, so that a test's
events are its request's alone. -/
def clean : State :=
  { State.reset with
    c := ⟨0x03#8, 0x03#8⟩
    a1 := ⟨0#8, 0#8⟩
    a2 := ⟨0#8, 0#8⟩
    lines := ⟨true, true, true, false, true⟩
    pos := []
    dstate := .idle
    flash := .fixture
    ready := .fake [] true
    params := { defaultParams with tAcc := 7, erasePollDelay := 8, fixedDelayCycles := 9 } }

/-- Whether the outcome is a next state with a property. -/
def after (o : Host.Outcome State Fault Refusal) (p : State → Bool) : Bool :=
  match o with
  | .next t => p t
  | .fault _ => false
  | .refused _ => false

/-- The 64 bytes 0x00 to 0x3F. -/
def bytes64 : Vector Byte 64 := Vector.ofFn fun i => BitVec.ofNat 8 i.val

/-- The host sends one data phase. -/
def sends (bytes : List Byte) (s : State) : State := { s with link := [⟨0, .data bytes⟩] }

/-- V-DP9: LED on, 26 line writes, no write event. -/
theorem test_setControl_led : after (exec (asmSetControl 0x0B#8) clean) (fun t =>
    t.ctrl == 0x0B#8 && t.c == ⟨0x0B#8, 0x0B#8⟩ && lineWritesOf t.events == 26 && busWritesOf t.events == []) = true := by
  decide +kernel

/-- P4 request 4: the rising edge of write-enable is a write event with what the port drives. -/
theorem test_setControl_rise :
    after (exec (asmSetControl 0x0B#8)
      { clean with ctrl := 0x02#8, c := ⟨0x02#8, 0x02#8⟩, a1 := ⟨5#8, 5#8⟩, portDir := .output, portOut := .byte 0x5A#8 })
      (fun t => busWritesOf t.events == [(0x00005#20, 0x5A#8)]) = true := by decide +kernel

/-- V-DP10: after ALS was asserted. -/
theorem test_setAddress_after_als :
    after (exec (asmSetAddress 0x12345#20) { clean with ctrl := 0x07#8, c := ⟨0x07#8, 0x07#8⟩ }) (fun t =>
      t.ctrl == 0x03#8 && t.c.Q == 0x13#8 && t.a2.Q == 0x23#8 && t.a1.Q == 0x45#8 && t.pinAddr == 0x12345#20) = true := by
  decide +kernel

/-- R11's `wait`, of the kind no later rule uses: an event, and no state changes. -/
theorem test_wait_edge : (Stmt.wait .edge 3).exec clean.toDevice = (clean.toDevice, [.wait .edge 3]) := rfl

/-- V-DP1: data, direction and latch, IDLE again. -/
theorem test_setData : after (exec (asmSetData 0x5A#8) clean) (fun t =>
    t.data == .byte 0x5A#8 && t.dstate == .idle && t.cmd == none &&
      t.events == [.respond (encode (asmSetData 0x5A#8)) .ack, .dir .output, .drive 0x5A#8]) = true := by decide +kernel

/-- V-DP5: a query while a WRITE runs. -/
theorem test_getData_executing :
    after (exec asmGetData { clean with data := .byte 0x11#8, dstate := .executing, status := .programInProgress }) (fun t =>
      t.events == [.respond (encode asmGetData) (.dataStatus 0x11#8 0x03#8)] && t.dstate == .executing) = true := by
  decide +kernel

/-- P1 request 7: buf[0] first. -/
theorem test_readFetch : after (exec asmReadFetch { clean with buf := bytes64.map .byte }) (fun t =>
    t.events == [.respond (encode asmReadFetch) (.buffer bytes64.toList)]) = true := by decide +kernel

/-- V-FA2, with the spin bound 3: the fifth poll runs out in byte 1. -/
theorem test_write_timeout :
    after (exec (asmWrite 0#20) (sends bytes64.toList
      { clean with
        ready := .fake [true, true, true, true] false
        params := { clean.params with readySpinBound := 3 } })) (fun t =>
      busWritesOf t.events ==
        [(0x00AAA#20, 0xAA#8), (0x00555#20, 0x55#8), (0x00AAA#20, 0xA0#8), (0x00000#20, 0x00#8), (0x00AAA#20, 0xAA#8)] &&
      readySamplesOf t.events == [true, true, true, true, false, false, false] && t.status == .programFailed &&
      t.dstate == .idle && memRead t.fmem 0 == 0#8 && t.fstate == .u1) = true := by decide +kernel

/-- V-FA3: the first poll fails; the bank is written and the pins are not. -/
theorem test_write_first_poll_fails :
    after (exec (asmWrite 0x30000#20) (sends bytes64.toList { clean with ready := .fake [] false })) (fun t =>
      busWritesOf t.events == [] && readySamplesOf t.events == List.replicate 255 false && t.status == .programFailed &&
      t.bank == 3#4 && t.c.Q == 0x03#8) = true := by decide +kernel

/-- V-FA4 and V-BD7: the first bytes of a fixed-delay WRITE in bank 1, from its start step; each write cycle turns the
port, drives, and then makes its event; a wait stands after the target write; no sample. -/
theorem test_writeFixed_begins :
    let s : State := { clean with buf := Vector.replicate 64 (.byte 0#8) }
    let t := State.runTicks 80 (s.withDevice (s.toDevice.startWith (asmWriteFixed 0x10000#20), []))
    (BusLog.of t.events).events.take 16 =
        [.dir .output, .drive 0xAA#8, .busWrite 0x10AAA#20 0xAA#8, .dir .output, .drive 0x55#8, .busWrite 0x10555#20 0x55#8,
          .dir .output, .drive 0xA0#8, .busWrite 0x10AAA#20 0xA0#8, .dir .output, .drive 0x00#8,
          .busWrite 0x10000#20 0x00#8, .wait .nop 9, .dir .output, .drive 0xAA#8, .busWrite 0x10AAA#20 0xAA#8] ∧
      t.status = .programInProgress := by
  decide +kernel

/-- V-FA8: the page wraps, A2 keeps its byte; 1740 line writes (V-FA7). -/
theorem test_readArm_wraps :
    after (exec (asmReadArm .at0 0x012F8#20) { clean with fmem := [(0x01200, 0xAA#8), (0x012FF, 0x55#8)] }) (fun t =>
      t.buf.get 7 == .byte 0x55#8 && t.buf.get 8 == .byte 0xAA#8 && t.buf.get 9 == .byte 0xFF#8 && t.a2.Q == 0x12#8 &&
        t.addrLo == 0x37#8 && t.ctrl == 0x05#8 && t.portDir == .input && lineWritesOf t.events == 1740) = true := by
  decide +kernel

/-- V-EN4: the bank of READ_ARM at bits 7:4 where BANK_SHIFT_RS is 4. -/
theorem test_bank_shift : rsBank { clean.params with bankShiftRs := .at4 } 0x0#4 0x3#4 = 0x3#4 := by decide

/-- V-SU2. -/
theorem test_probeReady_false :
    after (exec (asmSetup .at0 .probeReady 0#20) { clean with ready := .fake [] false }) (fun t =>
      t.data == .byte 0x00#8 && busWritesOf t.events == [(0x0000F#20, 0xF0#8)] && readySamplesOf t.events == [false]) =
      true := by decide +kernel

/-- V-SU3. -/
theorem test_beginRead : after (exec (asmSetup .at0 .beginRead 0#20) clean) (fun t =>
    t.ctrl == 0x01#8 && t.c.Q == 0x01#8 && t.pinAddr == 0#20 && t.portDir == .input && lineWritesOf t.events == 204) =
    true := by decide +kernel

/-- V-SU4: Dir(output) is recorded again after the preamble. -/
theorem test_beginWrite : after (exec (asmSetup .at0 .beginWrite 0#20) clean) (fun t =>
    t.ctrl == 0x02#8 && t.c.Q == 0x02#8 && t.portDir == .output && t.portOut == .byte 0xF0#8 &&
      BusLog.of t.busEvents ==
        { events := [.dir .output, .drive 0xF0#8, .busWrite 0x0000F#20 0xF0#8, .dir .output], lineWrites := 230 }) = true := by decide +kernel

/-- V-SU5. -/
theorem test_idManuf : after (exec (asmSetup .at0 .idManuf 0#20) clean) (fun t =>
    t.data == .byte 0x11#8 && t.fstate == .idMode && t.ctrl == 0x01#8 && lineWritesOf t.events == 588 &&
      busWritesOf t.events == [(0x0000F#20, 0xF0#8), (0x00AAA#20, 0xAA#8), (0x01555#20, 0x55#8), (0x00AAA#20, 0x90#8)] &&
      busReadsOf t.events == [(0x00000#20, 0x11#8)]) = true := by decide +kernel

/-- V-SU6: from ID mode. -/
theorem test_idDevice : after (exec (asmSetup .at0 .idDevice 0#20) { clean with fstate := .idMode }) (fun t =>
    t.data == .byte 0x22#8 && busReadsOf t.events == [(0x00002#20, 0x22#8)]) = true := by decide +kernel

/-- V-SU8: the sum carries into the bank. -/
theorem test_verifyProt_carry : after (exec (asmSetup .at0 .verifyProt 0x0FFFC#20) clean) (fun t =>
    t.data == .byte 0x11#8 && t.bank == 1#4 && busReadsOf t.events == [(0x10000#20, 0x11#8)]) = true := by decide +kernel

/-- V-SU9: the sum wraps at 2^20. -/
theorem test_verifyProt_wrap : after (exec (asmSetup .at0 .verifyProt 0xFFFFC#20) clean) (fun t =>
    t.data == .byte 0x11#8 && t.bank == 0#4 && busReadsOf t.events == [(0x00000#20, 0x11#8)]) = true := by decide +kernel

/-- E2, the success branch. -/
theorem test_eraseChip : after (exec (asmSetup .at0 .eraseChip 0#20) { clean with fmem := [(9, 0#8)] }) (fun t =>
    busWritesOf t.events ==
      [(0x0000F#20, 0xF0#8), (0x00AAA#20, 0x80#8), (0x00AAA#20, 0xAA#8), (0x00555#20, 0x55#8), (0x00AAA#20, 0x10#8)] &&
    busReadsOf t.events == [(0x00000#20, 0xFF#8)] && t.status == .initialised && t.fmem == []) = true := by decide +kernel

/-- V-FA9 with V-FA10's JEDEC6 prefix, retries 2: a fake flash that never answers 0xFF. -/
theorem test_eraseChip_fails :
    after (exec (asmSetup .at0 .eraseChip 0#20)
      { clean with
        flash := .fake [] 0xFE#8
        params := { clean.params with erasePollRetries := 2, erasePrefix := .jedec6 } }) (fun t =>
      busWritesOf t.events ==
        [(0x0000F#20, 0xF0#8), (0x00AAA#20, 0xAA#8), (0x00555#20, 0x55#8), (0x00AAA#20, 0x80#8), (0x00AAA#20, 0xAA#8),
          (0x00555#20, 0x55#8), (0x00AAA#20, 0x10#8)] &&
      busReadsOf t.events == [(0#20, 0xFE#8), (0#20, 0xFE#8)] &&
      waitsOf t.events == [(.erasePoll, 8), (.acc, 7), (.erasePoll, 8), (.acc, 7)] && t.status == .eraseFailed) = true := by
  decide +kernel

/-- V-SU11. -/
theorem test_eraseSector :
    after (exec (asmSetup .at0 .eraseSector 0x10000#20) { clean with fmem := [(0x0FFFF, 0#8), (0x10005, 0#8)] }) (fun t =>
      busWritesOf t.events ==
        [(0x1000F#20, 0xF0#8), (0x10AAA#20, 0x80#8), (0x10AAA#20, 0xAA#8), (0x10555#20, 0x55#8), (0x10000#20, 0x30#8)] &&
      t.status == .initialised && t.fmem == [(0x0FFFF, 0#8)]) = true := by decide +kernel

/-- V-DP8. -/
theorem test_bootloader : after (exec asmBootloader clean) (fun t =>
    t.dstate == .terminated && t.events == [.respond (encode asmBootloader) .ack]) = true := by decide +kernel

/-- V-BD6, both rows, at line level. -/
theorem test_shift_misuse :
    let d : Device := { clean.toDevice with a1 := ⟨0x45#8, 0x45#8⟩, a2 := ⟨0x23#8, 0x23#8⟩ }
    let low := ({ d with addrLo := 0x46#8 } : Device).shiftLowAddressByLines.1
    let full := ({ d with addrHi := 0x12#8, addrLo := 0x34#8, c := ⟨0x07#8, 0x07#8⟩ } : Device).shiftFullAddressByLines.1
    low.a1.Q = 0x46#8 ∧ low.a2.Q = 0x45#8 ∧ full.a1.Q = 0x34#8 ∧ full.a2.Q = 0x23#8 := by decide +kernel

/-- V-DP3 and V-DP5: late inputs while a command runs leave it undisturbed; the late SET_DATA is acknowledged and
dropped, the GET_DATA answered. -/
theorem test_late_inputs :
    after (exec (asmSetup .at0 .eraseSector 0x10000#20)
      { clean with
        data := .byte 0x11#8
        link := [⟨9, .header (encode (asmSetData 0x77#8))⟩, ⟨3, .header (encode asmGetData)⟩] }) (fun t =>
      t.data == .byte 0x11#8 && t.status == .initialised && t.link == [] &&
        t.answers == [.respond (encode (asmSetup .at0 .eraseSector 0x10000#20)) .ack,
          .respond (encode (asmSetData 0x77#8)) .ack, .respond (encode asmGetData) (.dataStatus 0x11#8 0x01#8)]) = true := by
  decide +kernel

/-- V-DP2: 70 bytes in two segments. -/
theorem test_data_segments :
    let s := ({ clean with dstate := .commandReceived, dataPending := 64 } : State)
    let t := (s.rxData (bytes64.toList.take 10)).rxData (bytes64.toList.drop 10 ++ List.replicate 6 0xEE#8)
    t.buf = bytes64.map .byte ∧ t.dataPending = 0 ∧ (s.rxData (bytes64.toList.take 10)).dataPending = 54 := by
  decide +kernel

/-- V-FA11 and R72: programming clears bits only. -/
theorem test_fixture_program :
    (fixtureWrites [(0x00AAA#20, 0xAA#8), (0x00555#20, 0x55#8), (0x00AAA#20, 0xA0#8), (0x00100#20, 0x0F#8)]
      (.read, [(0x00100, 0xF0#8)])) = (.read, [(0x00100, 0x00#8)]) := by decide

/-- The word of a WRITE placed by `withFetchWord`: the next step takes the request and its 64 bytes of 0, up to the
first poll. -/
theorem test_withFetchWord :
    after (step ({ clean with ready := .fake [] false, params := { clean.params with readySpinBound := 1 } }.withFetchWord
      40 0x50ABCD0050)) (fun t => t.bank == 5#4 && t.buf == Vector.replicate 64 (.byte 0#8) && t.status == .programFailed &&
        t.link == []) = true := by decide +kernel

/-- The same from reset, for a word of each kind of answer: the next step answers a next state. -/
theorem test_withFetchWord_reset :
    after (step (State.reset.withFetchWord 40 0x50ABCD0050)) (fun _ => true) = true ∧
      after (step (State.reset.withFetchWord 40 0x61FFFF0000)) (fun _ => true) = true ∧
      after (step (State.reset.withFetchWord 40 0x8000000000)) (fun _ => true) = true := by decide

/-! ### Witnesses: states and operands that meet an obligation's hypotheses, clause by clause -/

theorem clean_ready : clean.Ready := ⟨rfl, rfl, rfl⟩

theorem clean_weShown : clean.toDevice.weShown := rfl

theorem clean_coherent : clean.toDevice.Coherent := ⟨rfl, rfl, rfl, rfl, rfl, .inl rfl⟩

/-- A state whose inputs come while the command runs. -/
def late : State := { clean with link := [⟨1, .header (encode asmGetData)⟩] }

theorem late_ready : late.Ready := ⟨rfl, rfl, rfl⟩

/-- A state with a 64-byte data phase on the link in two segments, and a later input behind it. -/
def phased : State :=
  { clean with
    link := [⟨4, .data (bytes64.toList.take 10)⟩, ⟨0, .data (bytes64.toList.drop 10)⟩, ⟨1, .header (encode asmGetData)⟩] }

theorem phased_readyWrite :
    phased.ReadyWrite [4, 0] [bytes64.toList.take 10, bytes64.toList.drop 10] [⟨1, .header (encode asmGetData)⟩] :=
  ⟨rfl, rfl, rfl, by decide, by decide, by decide, by decide⟩

theorem phased_bytes : [bytes64.toList.take 10, bytes64.toList.drop 10].flatten = bytes64.toList := by decide

/-- The other polarity of the slow byte. -/
def slowInverted : Params := { clean.params with slowSelectsFixed := false }

theorem witness_DecodeOfEncode : Instr.wellFormed (.writeFixed 0xFFFF#16 0xFF#8 0xF#4 0xF#4) = true := by decide

theorem witness_EncodeOfDecode : decode ⟨0x61#8, 0xFFFF#16, 0xFFFF#16⟩ = .ok (.readFetch 0xFFFF#16 0xFFFF#16) := by decide

theorem witness_HeaderClasses :
    (∀ o, opc o ≠ (Header.ofRW 0x90FFFFFFFF#40).nib) ∧
      ((Header.ofRW 0x6000000000#40).nib = opc .read ∧ (Header.ofRW 0x6000000000#40).sub = 0#4) ∧
      ((Header.ofRW 0x6100000000#40).nib = opc .read ∧ (Header.ofRW 0x6100000000#40).sub = 1#4) ∧
      ((Header.ofRW 0x6200000000#40).nib = opc .read ∧ (Header.ofRW 0x6200000000#40).sub ≠ 0#4 ∧
        (Header.ofRW 0x6200000000#40).sub ≠ 1#4) ∧
      (opc .bootloader = (Header.ofRW 0x8F00000000#40).nib ∧ (Header.ofRW 0x8F00000000#40).sub ≠ 0#4) ∧
      ((Header.ofRW 0x7000000800#40).nib = opc .setup ∧ (Header.ofRW 0x7000000800#40).sub = 0#4 ∧
        ∀ m, modeCode m ≠ hiByte (Header.ofRW 0x7000000800#40).p1) ∧
      (opc .setControl = (Header.ofRW 0x1000000000#40).nib ∧ (Header.ofRW 0x1000000000#40).sub = 0#4) ∧
      ((Header.ofRW 0x7000000700#40).nib = opc .setup ∧
        modeCode .eraseSector = hiByte (Header.ofRW 0x7000000700#40).p1) := by
  refine ⟨fun o => by cases o <;> decide, by decide, by decide, by decide, by decide, ⟨by decide, by decide, fun m => ?_⟩,
    by decide, by decide⟩
  cases m <;> decide

/-- READ_ARM with each bank nibble in turn the ignored one, WRITE, and a query. -/
theorem witness_IgnoredBitsHaveNoEffect :
    (clearIgnored clean.params (.readArm 0x12#16 0x3#4 0x01#8 0x4#4) =
        clearIgnored clean.params (.readArm 0x12#16 0x3#4 0xFF#8 0x5#4) ∧ clean.Takes (.readArm 0x12#16 0x3#4 0x01#8 0x4#4)) ∧
      clearIgnored { clean.params with bankShiftRs := .at4 } (.setupEraseSector 0x12#16 0x3#4 0x4#4) =
        clearIgnored { clean.params with bankShiftRs := .at4 } (.setupEraseSector 0x12#16 0x8#4 0x4#4) ∧
      (clearIgnored phased.params (.write 0x12#16 0x3#4 0x4#4) = clearIgnored phased.params (.write 0x12#16 0x3#4 0x5#4) ∧
        phased.Takes (.write 0x12#16 0x3#4 0x4#4)) ∧
      (clearIgnored clean.params (.getData 1#16 2#16) = clearIgnored clean.params (.getData 3#16 4#16) ∧
        Instr.isQuery (.getData 1#16 2#16) = true ∧ clean.Answering) :=
  ⟨⟨rfl, .inl ⟨rfl, clean_ready⟩⟩, rfl, ⟨rfl, .inr ⟨rfl, _, _, _, phased_readyWrite⟩⟩, rfl, rfl, by decide, by decide, rfl⟩

/-- A device with the lines low, ALS asserted on its pins. -/
def low : Device := { clean.toDevice with lines := ⟨false, false, false, false, false⟩, c := ⟨0x07#8, 0x07#8⟩ }

theorem witness_ControlEdge : low.lines.cclk = false ∧ clean.lines.cclk = true := by decide

theorem witness_AddressEdge :
    low.lines.aclk = false ∧ isAsserted .als low.c.Q = true ∧
      isAsserted .als ({ low with c := ⟨0x03#8, 0x03#8⟩ } : Device).c.Q = false := by decide

theorem witness_LatchEdge :
    low.lines.latch = false ∧ ¬(Line.cclk = .latch ∧ true = true ∧ low.lines.latch = false) := by decide

/-- A device about to raise write-enable. -/
def rising : Device := { low with c := ⟨0x03#8, 0x02#8⟩, portDir := .output, portOut := .byte 0x5A#8 }

theorem witness_LatchWriteEvent :
    rising.lines.latch = false ∧ (isAsserted .we rising.c.Q = true ∧ isAsserted .we rising.c.S = false) ∧
      (rising.portDir = .output ∧ rising.portOut = .byte 0x5A#8) ∧ clean.portDir = .input ∧
      ¬(isAsserted .we low.c.Q = true ∧ isAsserted .we low.c.S = false) := by decide

theorem witness_SetControlResult : clean.Ready ∧ late.Ready := ⟨clean_ready, late_ready⟩

theorem witness_SetAddressResult : late.Ready ∧ late.weShown := ⟨late_ready, rfl⟩

theorem witness_SetDataResult : clean.Ready := clean_ready

theorem witness_GetDataAnswer :
    State.Answering { clean with dstate := .executing, data := .byte 0x11#8 } ∧ clean.Answering ∧ clean.data = .unwritten :=
  ⟨⟨by decide, by decide, rfl⟩, ⟨by decide, by decide, rfl⟩, rfl⟩

theorem witness_ReadFetchAnswer :
    State.Answering { clean with dstate := .commandReceived, buf := clean.buf.set 63 (.byte 1#8) } ∧
      (clean.buf.set 63 (.byte 1#8)).get 63 = .byte 1#8 ∧ (clean.buf.set 63 (.byte 1#8)).get 0 = .unwritten :=
  ⟨⟨by decide, by decide, rfl⟩, by decide, by decide⟩

theorem witness_BootloaderTerminates : late.Ready := late_ready

theorem witness_WriteReadyPolledResult :
    AsksReadyPolled phased.params (asmWrite 0x012C1#20) 0x12C1#16 0#4 ∧
      AsksReadyPolled slowInverted (asmWriteFixed 0x10000#20) 0#16 1#4 ∧
      phased.ReadyWrite [4, 0] [bytes64.toList.take 10, bytes64.toList.drop 10] [⟨1, .header (encode asmGetData)⟩] ∧
      [bytes64.toList.take 10, bytes64.toList.drop 10].flatten = bytes64.toList ∧ phased.weShown :=
  ⟨.inl ⟨rfl, 0#4, by decide⟩, .inr ⟨rfl, 1#8, 0#4, by decide, by decide⟩, phased_readyWrite, phased_bytes, rfl⟩

/-- The last write event at the boundary counts of polls: one poll, one byte's three, 192 and 193. -/
theorem witness_WriteReadyPolledResult_last :
    ((chunkWrites 0#4 0x12C1#16 bytes64).take (4 * (1 / 3) + 1 % 3)).getLast? = some (0x00AAA#20, 0xAA#8) ∧
      ((chunkWrites 0#4 0x12C1#16 bytes64).take (4 * (3 / 3) + 3 % 3)).getLast? = some (0x012C1#20, 0x00#8) ∧
      ((chunkWrites 0#4 0x12C1#16 bytes64).take (4 * (192 / 3) + 192 % 3)).getLast? = some (0x01200#20, 0x3F#8) ∧
      ((chunkWrites 0#4 0x12C1#16 bytes64).take (4 * (193 / 3) + 193 % 3)).getLast? = some (0x01200#20, 0x3F#8) := by
  decide +kernel

theorem witness_WriteReadyPolledSucceeds :
    AsksReadyPolled phased.params (asmWrite 0#20) 0#16 0#4 ∧
      phased.ReadyWrite [4, 0] [bytes64.toList.take 10, bytes64.toList.drop 10] [⟨1, .header (encode asmGetData)⟩] ∧
      [bytes64.toList.take 10, bytes64.toList.drop 10].flatten = bytes64.toList ∧ phased.weShown ∧
      phased.ready = .fake [] true ∧ 0 < phased.params.readySpinBound :=
  ⟨.inl ⟨rfl, 0#4, by decide⟩, phased_readyWrite, phased_bytes, rfl, rfl, by decide⟩

theorem witness_WriteFixedDelayResult :
    AsksFixedDelay phased.params (asmWriteFixed 0x10000#20) 0#16 1#4 ∧
      AsksFixedDelay slowInverted (asmWrite 0x10000#20) 0#16 1#4 ∧
      phased.ReadyWrite [4, 0] [bytes64.toList.take 10, bytes64.toList.drop 10] [⟨1, .header (encode asmGetData)⟩] ∧
      [bytes64.toList.take 10, bytes64.toList.drop 10].flatten = bytes64.toList ∧ phased.weShown :=
  ⟨.inl ⟨rfl, 1#8, 0#4, by decide, by decide⟩, .inr ⟨rfl, 0#4, by decide⟩, phased_readyWrite, phased_bytes, rfl⟩

theorem witness_WriteRoundTrip :
    AsksFixedDelay phased.params (asmWriteFixed 0x112C1#20) 0x12C1#16 1#4 ∧
      (AsksReadyPolled phased.params (asmWrite 0x112C1#20) 0x12C1#16 1#4 ∧ phased.ready = .fake [] true ∧
        0 < phased.params.readySpinBound) ∧
      phased.ReadyWrite [4, 0] [bytes64.toList.take 10, bytes64.toList.drop 10] [⟨1, .header (encode asmGetData)⟩] ∧
      [bytes64.toList.take 10, bytes64.toList.drop 10].flatten = bytes64.toList ∧ phased.weShown ∧
      phased.fstate = .read ∧ memWf phased.fmem = true ∧
      memRead phased.fmem (addr20 1#4 (chunkAddr 0x12C1#16 63)).toNat = 0xFF#8 :=
  ⟨.inl ⟨rfl, 1#8, 0#4, by decide, by decide⟩, ⟨.inl ⟨rfl, 0#4, by decide⟩, rfl, by decide⟩, phased_readyWrite,
    phased_bytes, rfl, rfl, rfl, by decide⟩

theorem witness_ChunkAddresses :
    (loByte 0xC0#16).toNat + (63 : Fin 64).val < 256 ∧ ¬(loByte 0xC1#16).toNat + (63 : Fin 64).val < 256 := by decide

theorem witness_ReadArmResult : late.Ready ∧ late.weShown := ⟨late_ready, rfl⟩

/-- The start state of V-HZ2: write-enable asserted, as begin-write leaves it. -/
def afterBeginWrite : State :=
  { clean with ctrl := 0x02#8, c := ⟨0x02#8, 0x02#8⟩, portDir := .output, portOut := .byte 0xF0#8 }

theorem witness_ReadArmFromFixture :
    (clean.flash = .fixture ∧ clean.fstateAfter clean.strayWrites = .read) ∧
      (State.Ready { clean with fstate := .idMode } ∧
        ({ clean with fstate := .idMode } : Device).fstateAfter clean.strayWrites = .idMode) ∧
      (afterBeginWrite.Ready ∧ afterBeginWrite.weShown ∧ afterBeginWrite.strayWrites.length = 1) :=
  ⟨by decide, ⟨⟨rfl, rfl, rfl⟩, by decide⟩, ⟨rfl, rfl, rfl⟩, rfl, by decide⟩

theorem witness_ProbeReadyResult : clean.Ready ∧ clean.weShown ∧ clean.ready = .fake [] true :=
  ⟨clean_ready, rfl, rfl⟩

theorem witness_BeginReadResult : afterBeginWrite.Ready ∧ afterBeginWrite.weShown := ⟨⟨rfl, rfl, rfl⟩, rfl⟩

theorem witness_BeginWriteResult : clean.Ready ∧ clean.weShown := ⟨clean_ready, rfl⟩

theorem witness_IdentifyResult :
    AsksId clean.params (.setupIdManuf 0#16 1#4 2#4) 1#4 0x0000#16 ∧
      AsksId { clean.params with bankShiftRs := .at4 } (.setupIdDevice 0#16 1#4 2#4) 2#4 0x0002#16 :=
  ⟨⟨0#16, 1#4, 2#4, rfl, .inl ⟨rfl, rfl⟩⟩, ⟨0#16, 1#4, 2#4, rfl, .inr ⟨rfl, rfl⟩⟩⟩

theorem witness_VerifyProtectionResult :
    (0xF#4 = rsBank clean.params 0xF#4 0#4 ∧
      (0x00000#20).toNat = ((addr20 0xF#4 0xFFFC#16).toNat + 4) % 0x100000) ∧
      (0x0FFFF#20).toNat = ((addr20 0x0#4 0xFFFB#16).toNat + 4) % 0x100000 ∧
      (0x10000#20).toNat = ((addr20 0x0#4 0xFFFC#16).toNat + 4) % 0x100000 := by decide

theorem witness_IdentifyFixture : clean.Ready ∧ clean.weShown ∧ clean.flash = .fixture ∧ clean.fstate ≠ .p3 :=
  ⟨clean_ready, rfl, rfl, by decide⟩

theorem witness_EraseResult :
    AsksErase clean.params (.setupEraseChip 0x1234#16 1#4 0#4) 0x1234#16 1#4 0x0AAA#16 0x10#8 ∧
      AsksErase clean.params (.setupEraseSector 0#16 1#4 0#4) 0#16 1#4 0#16 0x30#8 ∧ late.Ready ∧ late.weShown :=
  ⟨⟨1#4, 0#4, rfl, .inl ⟨rfl, rfl, rfl⟩⟩, ⟨1#4, 0#4, rfl, .inr ⟨rfl, rfl, rfl⟩⟩, late_ready, rfl⟩

/-- The same with no retry at all (V-FA9's last row): no read, ERASE_FAILED. -/
theorem witness_EraseResult_no_retry :
    AsksErase { clean.params with erasePollRetries := 0 } (.setupEraseChip 0#16 1#4 0#4) 0#16 1#4 0x0AAA#16 0x10#8 ∧
      after (exec (.setupEraseChip 0#16 1#4 0#4) { clean with params := { clean.params with erasePollRetries := 0 } })
        (fun t => t.status == .eraseFailed && busReadsOf t.events == []) = true :=
  ⟨⟨1#4, 0#4, rfl, .inl ⟨rfl, rfl, rfl⟩⟩, by decide +kernel⟩

theorem witness_EraseFixture : clean.Ready ∧ clean.weShown ∧ clean.flash = .fixture ∧
    clean.params.erase80Addr = 0x0AAA#16 ∧ 0 < clean.params.erasePollRetries :=
  ⟨clean_ready, rfl, rfl, rfl, by decide⟩

/-- `clean` with exactly one data phase of 64 bytes on the link. -/
def phasedAlone : State := sends bytes64.toList clean

theorem witness_CommandAcknowledged :
    (Instr.isQuery asmBootloader = false ∧ Instr.isWrite asmBootloader = false ∧ clean.Ready ∧ clean.link = []) ∧
      (Instr.isQuery (asmWrite 0#20) = false ∧ Instr.isWrite (asmWrite 0#20) = true ∧
        phasedAlone.ReadyWrite [0] [bytes64.toList] []) :=
  ⟨⟨rfl, rfl, clean_ready, rfl⟩, rfl, rfl, rfl, rfl, rfl, by decide, by decide, by decide, rfl⟩

theorem witness_WriteWaitsForItsData :
    Instr.isWrite (asmWriteFixed 0#20) = true ∧ clean.dstate = .idle ∧ clean.dataPending = 0 ∧ clean.link = [] := by decide

theorem witness_CommandDroppedWhileExecuting :
    Instr.isQuery (asmSetData 0x77#8) = false ∧
      ({ clean with dstate := .executing, pos := [.setStatus .initialised] } : State).dataPending = 0 := by decide

theorem witness_OverlapRace :
    Instr.isQuery (asmSetData 0x22#8) = false ∧
      ({ clean with
        dstate := .commandReceived
        cmd := some (Command.ofHeader (encode (asmSetData 0x11#8))) } : State).dataPending = 0 := by decide

theorem witness_HeadersWithoutMeaning :
    decode (Header.ofRW 0x9000000000#40) = .unsupported ∧ decode (Header.ofRW 0x6200000000#40) = .refused .readSub ∧
      decode (Header.ofRW 0x1100030000#40) = .refused .subNonzero ∧
      decode (Header.ofRW 0x7000000800#40) = .refused .setupMode ∧
      State.Answering { clean with link := [⟨0, .header (Header.ofRW 0x9000000000#40)⟩] } ∧
      State.Answering { clean with dstate := .executing } ∧ State.Answering { clean with dstate := .commandReceived } :=
  ⟨by decide, by decide, by decide, by decide, ⟨by decide, by decide, rfl⟩, ⟨by decide, by decide, rfl⟩, by decide,
    by decide, rfl⟩

theorem witness_HeaderWithoutMove :
    State.reset.dstate = .initialising ∧ ({ clean with dstate := .terminated } : State).dstate = .terminated ∧
      ({ clean with dstate := .commandReceived, dataPending := 1 } : State).dataPending ≠ 0 := by decide

theorem witness_DataPhaseFillsBuffer :
    ({ clean with dstate := .commandReceived, dataPending := 64 } : State).dataPending = 64 ∧
      [bytes64.toList.take 63, [], bytes64.toList.drop 63 ++ [0xEE#8]].flatten = bytes64.toList ++ [0xEE#8] := by decide

theorem witness_StrayDataDropped :
    let s : State := { clean with link := [⟨0, .data [1#8, 2#8]⟩] }
    s.dstate = .idle ∧ s.dataPending = 0 ∧ s.link = ⟨0, .data [1#8, 2#8]⟩ :: [] ∧
      ({ s with dstate := .commandReceived } : State).dstate = .commandReceived ∧
      ({ s with dstate := .executing } : State).dstate = .executing := by decide

/-- A WRITE in the middle of its pseudocode, and the same with late inputs. -/
def running : State := { clean with dstate := .executing, pos := [.drive 0x5A#8, .poll 3, .setStatus .initialised] }

theorem witness_RunningCommandUndisturbed :
    let s2 : State := { running with link := [⟨0, .header (encode (asmSetData 0x77#8))⟩, ⟨2, .data [1#8]⟩] }
    running.toDevice = s2.toDevice ∧ running ≠ s2 ∧ running.dstate = .executing ∧ running.dataPending = 0 :=
  ⟨rfl, fun h => by have := congrArg State.link h; simp [running, clean, State.reset] at this, rfl, rfl⟩

theorem witness_CommandComesToRest : running.dstate = .executing ∧ running.dataPending = 0 := by decide

theorem witness_FailureReturnsToIdle :
    (({ running with pos := [.fail .eraseFailed] } : Device).pos = .fail .eraseFailed :: []) ∧
      ({ running with pos := .poll 0 :: [.setStatus .initialised] } : Device).pos =
        .poll 0 :: [.setStatus .initialised] := ⟨rfl, rfl⟩

/-- A next state of one request, for the statements about what no request of a kind changes. -/
theorem witness_StatusWriters : clean.Ready ∧ Instr.isWrite (asmSetAddress 0x12345#20) = false ∧
    ∃ t, exec (asmSetAddress 0x12345#20) clean = .next t := ⟨clean_ready, rfl, _, rfl⟩

theorem clean_takes (i : Instr) (h : i.isWrite = false) : clean.Takes i := .inl ⟨h, clean_ready⟩

theorem phased_takes (i : Instr) (h : i.isWrite = true) : phased.Takes i := .inr ⟨h, _, _, _, phased_readyWrite⟩

theorem witness_DataWriters : (clean.Takes (asmSetup .at0 .eraseChip 0#20) ∧
    ∃ t, exec (asmSetup .at0 .eraseChip 0#20) clean = .next t) ∧
    phased.Takes (asmWrite 0#20) ∧ ∃ t, exec (asmWrite 0#20) phased = .next t :=
  ⟨⟨clean_takes _ rfl, _, rfl⟩, phased_takes _ rfl, _, rfl⟩

theorem witness_LedWriters : (clean.Takes (asmReadArm .at0 0#20) ∧ ∃ t, exec (asmReadArm .at0 0#20) clean = .next t) ∧
    phased.Takes (asmWriteFixed 0#20) ∧ ∃ t, exec (asmWriteFixed 0#20) phased = .next t :=
  ⟨⟨clean_takes _ rfl, _, rfl⟩, phased_takes _ rfl, _, rfl⟩

theorem witness_ParametersNeverChange : ∃ t, step State.reset = .next t := ⟨_, rfl⟩

theorem witness_NoContentionFromCycles :
    (clean.Takes (asmSetup .at0 .beginWrite 0#20) ∧ clean.toDevice.Coherent ∧ clean.contention = false ∧
      ∃ t, exec (asmSetup .at0 .beginWrite 0#20) clean = .next t) ∧
    phased.Takes (asmWrite 0#20) ∧ phased.toDevice.Coherent ∧ phased.contention = false :=
  ⟨⟨clean_takes _ rfl, clean_coherent, rfl, _, rfl⟩, phased_takes _ rfl, ⟨rfl, rfl, rfl, rfl, rfl, .inl rfl⟩, rfl⟩

/-- `i` in the mailbox, its data phase over, and a GET_DATA due in `dl` DSP steps. -/
def pending (i : Instr) (dl : Nat) : State :=
  { clean with
    dstate := .commandReceived
    status := .programFailed
    cmd := some (Command.ofHeader (encode i))
    link := [⟨dl, .header (encode asmGetData)⟩] }

/-- The start step, of an erase. -/
theorem witness_StartStepStatus :
    (pending (asmSetup .at0 .eraseChip 0#20) 5).mail = some (asmSetup .at0 .eraseChip 0#20) ∧
      (pending (asmSetup .at0 .eraseChip 0#20) 5).dstate = .commandReceived ∧
      (pending (asmSetup .at0 .eraseChip 0#20) 5).dataPending = 0 := by decide

/-- A WRITE and an erase that still run after 4 steps, when the GET_DATA is handled. -/
theorem witness_StartStepStatus_running :
    ∀ i ∈ [asmWrite 0x012F0#20, asmSetup .at0 .eraseSector 0x10000#20],
      (pending i 5).mail = some i ∧ (pending i 5).dstate = .commandReceived ∧ (pending i 5).dataPending = 0 ∧
        (∀ m, m ≤ 4 → (State.atomicStep^[m] (pending i 5).dspMove).dstate = .executing) ∧
        (State.atomicStep^[4] (pending i 5).dspMove).headerNow = some (encode asmGetData) := by decide +kernel

theorem witness_StartStepStatus_reports :
    ReportsProgress (asmWrite 0x012F0#20) .programInProgress ∧
      ReportsProgress (asmSetup .at0 .eraseSector 0x10000#20) .eraseInProgress :=
  ⟨.inl ⟨rfl, rfl⟩, .inr ⟨⟨0x0000#16, 1#4, 0#4, .inr rfl⟩, rfl⟩⟩

/-- The states of V-DP6: a previous WRITE failed, the new one's 64 bytes and a GET_DATA arrive at once. -/
def staleWrite : State :=
  { clean with
    status := .programFailed
    link := [⟨3, .data bytes64.toList⟩, ⟨0, .header (encode (.getData 0#16 0#16))⟩] }

/-- One GET_DATA at once, and nothing else. -/
def staleErase : State :=
  { clean with status := .programFailed, link := [⟨0, .header (encode (.getData 0#16 0#16))⟩] }

/-- A WRITE and an erase accepted and not started, when the GET_DATA is handled. -/
theorem witness_StartStepStatus_stale :
    (Instr.isQuery (asmWrite 0#20) = false ∧ staleWrite.dstate = .idle ∧ staleWrite.dataPending = 0 ∧
      (∀ m, m ≤ 1 → (State.atomicStep^[m] (staleWrite.accept (asmWrite 0#20))).dstate = .commandReceived) ∧
      (State.atomicStep^[1] (staleWrite.accept (asmWrite 0#20))).headerNow = some (encode asmGetData)) ∧
    (∀ m, m ≤ 0 →
      (State.atomicStep^[m] (staleErase.accept (asmSetup .at0 .eraseChip 0#20))).dstate = .commandReceived) ∧
      (staleErase.accept (asmSetup .at0 .eraseChip 0#20)).headerNow = some (encode asmGetData) := by decide +kernel

/-- The links of the clauses about whole requests. -/
theorem witness_StartStepStatus_requests :
    phased.ReadyWrite [4, 0] [bytes64.toList.take 10, bytes64.toList.drop 10]
      [{ delay := 1, input := .header (encode (.getData 0#16 0#16)) }] ∧
    (staleWrite.dstate = .idle ∧ staleWrite.dataPending = 0 ∧ bytes64.toList.length = 64 ∧
      staleWrite.link =
        [{ delay := 3, input := .data bytes64.toList }, { delay := 0, input := .header (encode (.getData 0#16 0#16)) }]) ∧
    (late.dstate = .idle ∧ late.dataPending = 0 ∧
      late.link = [{ delay := 1, input := .header (encode (.getData 0#16 0#16)) }]) ∧
    IsErase (asmSetup .at0 .eraseChip 0#20) ∧ staleErase.dstate = .idle ∧ staleErase.dataPending = 0 ∧
      staleErase.link = [{ delay := 0, input := .header (encode (.getData 0#16 0#16)) }] :=
  ⟨phased_readyWrite, ⟨rfl, rfl, rfl, rfl⟩, ⟨rfl, rfl, rfl⟩, ⟨0#16, 0#4, 0#4, .inl rfl⟩, rfl, rfl, rfl⟩

/-- V-DP6: a query between acceptance and start shows the status of before, one after it the in-progress code. -/
theorem test_stale_status :
    after (exec (asmWrite 0#20)
      { clean with
        status := .programFailed
        data := .byte 0x11#8
        ready := .fake [] false
        params := { clean.params with readySpinBound := 3 }
        link := [⟨0, .data bytes64.toList⟩, ⟨0, .header (encode asmGetData)⟩, ⟨1, .header (encode asmGetData)⟩] })
      (fun t => t.answers.drop 1 ==
        [.respond (encode asmGetData) (.dataStatus 0x11#8 0x04#8),
          .respond (encode asmGetData) (.dataStatus 0x11#8 0x03#8)]) = true := by decide +kernel

/-- `clean` with one header on the link. -/
def sent (h : Header) : State := { clean with link := [⟨0, .header h⟩] }

/-- A host that sends one header in IDLE and then nothing is paced over the whole run. -/
theorem sent_paced (polls : Nat → Prop) (h : Header) : (sent h).Paced polls := by
  intro n
  cases n with
  | zero => exact fun _ _ => ⟨fun _ => rfl, fun _ _ => by simp [sent, clean]⟩
  | succ n =>
    intro x hx
    have e : (sent h).atomicStep.link = [] := by
      rw [State.atomicStep_idle rfl]; exact State.rxHeader_link { clean with link := [] } h
    have := State.iterate_link_nil n e
    rw [Function.iterate_succ_apply] at hx
    simp [State.headerNow, this] at hx

/-- A command, a READ_FETCH and a completion poll. -/
theorem witness_PacedHostIsServed :
    ((sent (encode (asmSetData 0x5A#8))).Paced (fun _ => True) ∧
      (sent (encode (asmSetData 0x5A#8))).headerNow = some (encode (asmSetData 0x5A#8)) ∧
      decode (encode (asmSetData 0x5A#8)) = .ok (asmSetData 0x5A#8)) ∧
    ((sent (encode asmReadFetch)).Paced (fun _ => True) ∧
      (sent (encode asmReadFetch)).headerNow = some (encode asmReadFetch) ∧
      decode (encode asmReadFetch) = .ok asmReadFetch) ∧
    (sent (encode asmGetData)).Paced (fun _ => True) ∧
      (sent (encode asmGetData)).headerNow = some (encode asmGetData) ∧ decode (encode asmGetData) = .ok asmGetData :=
  ⟨⟨sent_paced _ _, rfl, by decide⟩, ⟨sent_paced _ _, rfl, by decide⟩, sent_paced _ _, rfl, by decide⟩

theorem witness_StepIsAtomicSteps : ∃ t, step late = .next t := ⟨_, rfl⟩

theorem witness_InitialisationReachesIdle :
    ∃ s : State, s = { State.reset with
      c := ⟨0x02#8, 0xFF#8⟩, a1 := ⟨0#8, 1#8⟩, a2 := ⟨2#8, 3#8⟩, lines := ⟨true, false, true, false, true⟩ } := ⟨_, rfl⟩

theorem witness_StepRunsRequest :
    let s : State := { clean with link := [⟨5, .header (encode (asmSetData 0x5A#8))⟩] }
    s.dstate = .idle ∧ decode (encode (asmSetData 0x5A#8)) = .ok (asmSetData 0x5A#8) ∧
      s.link = ⟨5, .header (encode (asmSetData 0x5A#8))⟩ :: [] ∧ clean.link = [] := by decide

theorem witness_FetchedWordRuns : decodeTableWord 40 0x5000000110 = some (asmWriteFixed 0x10000#20) := by decide

theorem clean_inv : clean.Inv where
  memory := rfl
  between := by decide
  begin := by decide
  position := fun _ => rfl
  idle := fun _ => ⟨rfl, rfl⟩
  pending := by intro h; exact absurd h (by decide)
  pins := fun _ => clean_coherent

/-- A WRITE waiting for its data keeps the invariant's clause about COMMAND_RECEIVED from being empty. -/
def waiting : State :=
  { clean with
    dstate := .commandReceived
    dataPending := 64
    cmd := some (Command.ofHeader (encode (asmWrite 0x012F0#20))) }

theorem waiting_inv : waiting.Inv where
  memory := rfl
  between := by decide
  begin := by decide
  position := fun _ => rfl
  idle := by intro h; exact absurd h (by decide)
  pending := fun _ => ⟨asmWrite 0x012F0#20, by decide, by decide, by decide⟩
  pins := fun _ => ⟨rfl, rfl, rfl, rfl, rfl, .inl rfl⟩

theorem witness_StepKeepsInvariant :
    waiting.Inv ∧ (∃ t, step waiting = .next t) ∧
      State.Inv { clean with link := [⟨0, .header (encode (asmSetAddress 0x12345#20))⟩] } ∧
      ∃ t, step { clean with link := [⟨0, .header (encode (asmSetAddress 0x12345#20))⟩] } = .next t :=
  ⟨waiting_inv, ⟨_, rfl⟩, { clean_inv with }, _, rfl⟩

theorem witness_InvariantShowsWriteEnable : clean.Inv ∧ clean.dstate = .idle := ⟨clean_inv, rfl⟩

end Sys2Proof.Tests
end

section
/-! SUPPORT. The scope family: the status codes differ (R9, R35), the three shift primitives run line write by
line write are the cycle-level steps (R7, R108, R109), and the initialisation reaches IDLE (R262). -/

namespace Sys2Proof.Machine

open Sys2Proof

/-! ### Status codes (R9, R35) -/

/-- Every status, in R35's order. -/
def statuses : List Status := [.initialised, .eraseInProgress, .eraseFailed, .programInProgress, .programFailed]

theorem mem_statuses (st : Status) : st ∈ statuses := by cases st <;> decide

/-- The check that `StatusCodes` carries is about the codes of all the statuses. -/
theorem nodup_statusCodes (p : Params) : (statuses.map (statusCode p)).Nodup := of_decide_eq_true p.codes.differ

/-- Settles O46: the check `StatusCodes` carries, read on the list of all statuses. -/
theorem statusCodesDiffer : Obligations.StatusCodesDiffer := fun p =>
  ⟨rfl, fun s1 s2 h => List.inj_on_of_nodup_map (nodup_statusCodes p) (mem_statuses s1) (mem_statuses s2) h⟩

/-! ### A value shifted into a stage, most significant bit first (R52, R101, R102) -/

/-- An edge shifts as the library's `shiftConcat` does. -/
theorem shiftIn_eq_shiftConcat (s : Byte) (b : Bool) : shiftIn s b = s.shiftConcat b := by
  ext i hi
  cases i with
  | zero => cases b <;> simp [shiftIn]
  | succ n => cases b <;> simp [shiftIn]

/-- The last bit of a value, in shifting order, is its bit 0. -/
theorem msbFirst_succ {n : Nat} (v : BitVec (n + 1)) : msbFirst v = msbFirst (v.extractLsb' 1 n) ++ [v.getLsbD 0] := by
  have init : ∀ k ∈ List.range n, v.getLsbD (n + 1 - 1 - k) = (v.extractLsb' 1 n).getLsbD (n - 1 - k) := by
    intro k hk
    have hlt : k < n := List.mem_range.1 hk
    have h1 : n - 1 - k < n := by omega
    have h2 : 1 + (n - 1 - k) = n + 1 - 1 - k := by omega
    rw [BitVec.getLsbD_extractLsb', h2]
    simp [h1]
  simp only [msbFirst, List.range_succ, List.map_append, List.map_congr_left init]
  simp

/-- Shifting `v` into a stage leaves the low bits of `s ++ v`, whatever the two widths. -/
theorem foldl_shiftConcat_msbFirst {m n : Nat} (s : BitVec m) (v : BitVec n) :
    (msbFirst v).foldl BitVec.shiftConcat s = (s ++ v).setWidth m := by
  induction n with
  | zero => ext i hi; simp [msbFirst]
  | succ n ih =>
    rw [msbFirst_succ, List.foldl_append, ih]
    ext i hi
    cases i with
    | zero => simp [BitVec.getElem_append]
    | succ i => by_cases h : i < n <;> simp [BitVec.getLsbD_append, Nat.add_comm 1, h]

/-- A stage takes a value of its own width whole. -/
theorem foldl_shiftIn_byte (s v : Byte) : (msbFirst v).foldl shiftIn s = v := by
  rw [funext₂ shiftIn_eq_shiftConcat, foldl_shiftConcat_msbFirst, BitVec.setWidth_append_eq_right]

/-- Of two bytes shifted through it a stage keeps the second. -/
theorem foldl_shiftIn_addr16 (s hi lo : Byte) : (msbFirst (addr16 hi lo)).foldl shiftIn s = lo := by
  rw [funext₂ shiftIn_eq_shiftConcat, foldl_shiftConcat_msbFirst,
    ← BitVec.setWidth_setWidth_of_le _ (show 8 ≤ 16 by decide), BitVec.setWidth_append_eq_right, addr16,
    BitVec.setWidth_append_eq_right]

/-- A shift of two stages side by side: the upper one takes the lower one's outgoing bit. -/
theorem shiftConcat_append {m n : Nat} (x : BitVec m) (y : BitVec (n + 1)) (b : Bool) :
    (x ++ y).shiftConcat b = x.shiftConcat (y.getLsbD n) ++ y.shiftConcat b := by
  ext i hi
  rcases Nat.lt_trichotomy i (n + 1) with h | rfl | h
  · cases i with
    | zero => simp [BitVec.getElem_append, BitVec.getElem_shiftConcat]
    | succ i => simp [BitVec.getElem_append, h, show i < n + 1 by omega]
  · simp [BitVec.getElem_append, BitVec.getElem_shiftConcat]
  · obtain ⟨k, rfl⟩ := Nat.exists_eq_add_of_lt h
    have h1 : n + 1 + k + 1 - (n + 1) = k + 1 := by omega
    have h2 : n + 1 + k - (n + 1) = k := by omega
    have h3 : ¬n + 1 + k ≤ n := by omega
    have h4 : ¬n + 1 + k < n := by omega
    simp [BitVec.getElem_append, h1, h2, h3, h4]

/-- Two cascaded stages shift as one of 16 bits (R102). -/
theorem shiftConcat_addr16 (hi lo : Byte) (b : Bool) :
    (addr16 hi lo).shiftConcat b = addr16 (shiftIn hi (lo.getLsbD 7)) (shiftIn lo b) := by
  rw [shiftIn_eq_shiftConcat, shiftIn_eq_shiftConcat, addr16, addr16, ← shiftConcat_append]

/-- Two bytes shifted into the cascade fill it. -/
theorem foldl_shiftConcat_addr16 (hi lo : Byte) (v : Half) :
    (msbFirst v).foldl BitVec.shiftConcat (addr16 hi lo) = v := by
  rw [foldl_shiftConcat_msbFirst, BitVec.setWidth_append_eq_right]

/-- A byte shifted into the cascade moves the low stage into the high one. -/
theorem foldl_shiftConcat_addr16_byte (hi lo v : Byte) :
    (msbFirst v).foldl BitVec.shiftConcat (addr16 hi lo) = addr16 lo v := by
  rw [foldl_shiftConcat_msbFirst, addr16, addr16, BitVec.append_assoc]
  exact BitVec.setWidth_append_eq_right

/-! ### Line writes in order (R101 to R104) -/

theorem Device.setLines_append (ws1 ws2 : List (Line × Bool)) (d : Device) :
    d.setLines (ws1 ++ ws2) =
      (((d.setLines ws1).1.setLines ws2).1, (d.setLines ws1).2 ++ ((d.setLines ws1).1.setLines ws2).2) := by
  induction ws1 generalizing d with
  | nil => rfl
  | cons w ws ih => simp only [List.cons_append, Device.setLines, ih, List.append_assoc]

/-- A write of a line whose rise does nothing, CDAT or ADAT, sets the line and no more. -/
theorem Device.setLine_of_edge {x : Line} (hx : ∀ d : Device, d.edge x = (d, [])) (d : Device) (b : Bool) :
    d.setLine x b = ({ d with lines := d.lines.put x b }, [.set x b]) := by
  simp only [Device.setLine, hx, ite_self]

/-- The device with LATCH at a level. -/
def Device.latchAt (d : Device) (b : Bool) : Device := { d with lines := { d.lines with latch := b } }

/-- LATCH raised from low makes its edge. -/
theorem Device.setLine_latch_rises (d : Device) (h : d.lines.latch = false) :
    d.setLine .latch true = ((d.latchAt true).latch.1, .set .latch true :: (d.latchAt true).latch.2) := by
  have hl : d.lines.level .latch = false := h
  simp only [Device.setLine, hl]
  rfl

/-- The lines after one bit: its clock high, its data on the data line. -/
def Lines.clocked (clk dat : Line) (l : Lines) (b : Bool) : Lines := (l.put clk true).put dat b

/-- The three line writes of one bit. -/
def bitWrites (clk dat : Line) (b : Bool) : List (Line × Bool) := [(clk, false), (dat, b), (clk, true)]

/-- One bit shifted into C. -/
def Device.controlBit (d : Device) (b : Bool) : Device :=
  { d with c := { d.c with S := shiftIn d.c.S b }, lines := d.lines.clocked .cclk .cdat b }

/-- One bit shifted into the address chain. -/
def Device.addressBit (d : Device) (b : Bool) : Device :=
  { d with
    a1 := { d.a1 with S := shiftIn d.a1.S b }
    a2 := { d.a2 with S := if d.pinOn .als then d.a2.S else shiftIn d.a2.S (d.a1.S.getLsbD 7) }
    lines := d.lines.clocked .aclk .adat b }

theorem Device.setLines_controlBit (d : Device) (b : Bool) :
    d.setLines (bitWrites .cclk .cdat b) = (d.controlBit b, [.set .cclk false, .set .cdat b, .set .cclk true]) := by
  simp only [bitWrites, Device.setLines, Device.setLine_of_edge (x := .cdat) (fun _ => rfl)]
  rfl

theorem Device.setLines_addressBit (d : Device) (b : Bool) :
    d.setLines (bitWrites .aclk .adat b) = (d.addressBit b, [.set .aclk false, .set .adat b, .set .aclk true]) := by
  simp only [bitWrites, Device.setLines, Device.setLine_of_edge (x := .adat) (fun _ => rfl)]
  rfl

/-! ### A shift primitive run by lines

`bit` is what the three line writes of one bit make of a device. -/

section

variable {clk dat : Line} {bit : Device → Bool → Device}
  (hbit : ∀ d b, d.setLines (bitWrites clk dat b) = (bit d b, [.set clk false, .set dat b, .set clk true]))
  (hlatch : ∀ d b, (bit d b).lines.latch = d.lines.latch)

include hbit in
theorem Device.setLines_bits (d : Device) (bits : List Bool) :
    d.setLines (bits.flatMap (bitWrites clk dat)) =
      (bits.foldl bit d, bits.flatMap fun b => [.set clk false, .set dat b, .set clk true]) := by
  induction bits generalizing d with
  | nil => rfl
  | cons b bits ih =>
    rw [List.flatMap_cons, Device.setLines_append, hbit, ih, List.foldl_cons, List.flatMap_cons]

include hlatch in
theorem Device.foldl_latch (d : Device) (bits : List Bool) : (bits.foldl bit d).lines.latch = d.lines.latch := by
  induction bits generalizing d with
  | nil => rfl
  | cons b bits ih => rw [List.foldl_cons, ih, hlatch]

include hbit hlatch in
/-- LATCH falls, the bits go in, LATCH rises: only its rise has an edge beside the clock's. -/
theorem Device.setLines_shiftWrites (d : Device) (bits : List Bool) :
    d.setLines (shiftWrites clk dat bits) =
      (((bits.foldl bit (d.latchAt false)).latchAt true).latch.1,
        shiftEvents clk dat bits ++ ((bits.foldl bit (d.latchAt false)).latchAt true).latch.2) := by
  have hfall : d.setLine .latch false = (d.latchAt false, [.set .latch false]) := rfl
  have hlow : (bits.foldl bit (d.latchAt false)).lines.latch = false := Device.foldl_latch hlatch _ bits
  have hsplit : shiftWrites clk dat bits =
      (.latch, false) :: (bits.flatMap (bitWrites clk dat) ++ [(.latch, true)]) := rfl
  rw [hsplit, Device.setLines, hfall, Device.setLines_append, Device.setLines_bits hbit]
  simp only [Device.setLines, Device.setLine_latch_rises _ hlow, shiftEvents, List.append_assoc, List.cons_append,
    List.nil_append, List.append_nil]

end

/-! ### The bits of a whole value (R105 to R107) -/

/-- The next bit overwrites the lines of the bit before it. -/
theorem Lines.clocked_clocked (clk dat : Line) (l : Lines) (x y : Bool) :
    (l.clocked clk dat x).clocked clk dat y = l.clocked clk dat y := by
  cases clk <;> cases dat <;> rfl

/-- Of a value of one bit or more only bit 0 is left on the lines (R108, R109). -/
theorem Lines.foldl_clocked {n : Nat} (clk dat : Line) (l : Lines) (v : BitVec (n + 1)) :
    (msbFirst v).foldl (Lines.clocked clk dat) l = l.clocked clk dat (v.getLsbD 0) := by
  have last : ∀ (bits : List Bool) (l : Lines) (b : Bool),
      (bits ++ [b]).foldl (Lines.clocked clk dat) l = l.clocked clk dat b := by
    intro bits l b
    induction bits generalizing l with
    | nil => rfl
    | cons a bits ih => rw [List.cons_append, List.foldl_cons, ih, Lines.clocked_clocked]
  rw [msbFirst_succ, last]

theorem Device.foldl_controlBit (d : Device) (bits : List Bool) :
    bits.foldl Device.controlBit d =
      { d with
        c := { d.c with S := bits.foldl shiftIn d.c.S }
        lines := bits.foldl (Lines.clocked .cclk .cdat) d.lines } := by
  induction bits generalizing d with
  | nil => rfl
  | cons b bits ih => rw [List.foldl_cons, ih]; rfl

/-- A1 takes the bits; where ALS is deasserted A2 is the upper half of the cascade (R102). -/
theorem Device.foldl_addressBit (d : Device) (bits : List Bool) :
    bits.foldl Device.addressBit d =
      { d with
        a1 := { d.a1 with S := bits.foldl shiftIn d.a1.S }
        a2 := { d.a2 with
          S := if d.pinOn .als then d.a2.S else hiByte (bits.foldl BitVec.shiftConcat (addr16 d.a2.S d.a1.S)) }
        lines := bits.foldl (Lines.clocked .aclk .adat) d.lines } := by
  induction bits generalizing d with
  | nil =>
    have hhi : hiByte (addr16 d.a2.S d.a1.S) = d.a2.S := hiByte_append _ _
    simp [hhi]
  | cons b bits ih =>
    have hals : (d.addressBit b).pinOn .als = d.pinOn .als := rfl
    rw [List.foldl_cons, ih, hals]
    cases h : d.pinOn .als with
    | true => simp [Device.addressBit, h]
    | false => simp [Device.addressBit, h, shiftConcat_addr16]

/-- R108: a control shift's bits leave C.S with the control byte. -/
theorem Device.controlShifted_eq (d : Device) :
    ((msbFirst (ctrlByte d.ctrl d.bank)).foldl Device.controlBit (d.latchAt false)).latchAt true =
      d.controlShifted := by
  rw [Device.foldl_controlBit, foldl_shiftIn_byte, Lines.foldl_clocked]
  rfl

/-- R109, the full address: both stages filled, or only A1 where ALS is asserted. -/
theorem Device.fullShifted_eq (d : Device) :
    ((msbFirst (addr16 d.addrHi d.addrLo)).foldl Device.addressBit (d.latchAt false)).latchAt true = d.fullShifted := by
  have hlow : (addr16 d.addrHi d.addrLo).getLsbD 0 = d.addrLo.getLsbD 0 := by
    rw [addr16, BitVec.getLsbD_append]; rfl
  rw [Device.foldl_addressBit, foldl_shiftIn_addr16, Lines.foldl_clocked, hlow, foldl_shiftConcat_addr16, addr16,
    hiByte_append]
  rfl

/-- R109, the low address: A1 filled, its old byte moved into A2 where ALS is deasserted. -/
theorem Device.lowShifted_eq (d : Device) :
    ((msbFirst d.addrLo).foldl Device.addressBit (d.latchAt false)).latchAt true = d.lowShifted := by
  rw [Device.foldl_addressBit, foldl_shiftIn_byte, Lines.foldl_clocked, foldl_shiftConcat_addr16_byte, addr16,
    hiByte_append]
  rfl

/-- Settles O6: the 26 line writes bit by bit, then the control byte they leave in C.S. -/
theorem controlShiftByLines : Obligations.ControlShiftByLines := fun d => by
  rw [Device.shiftControlByLines, Device.setLines_shiftWrites Device.setLines_controlBit (fun _ _ => rfl),
    Device.controlShifted_eq, Device.shiftControl]

/-- Settles O7: the 50 line writes bit by bit, then the two bytes they leave in the cascade, or the one in A1. -/
theorem fullAddressShiftByLines : Obligations.FullAddressShiftByLines := fun d => by
  rw [Device.shiftFullAddressByLines, Device.setLines_shiftWrites Device.setLines_addressBit (fun _ _ => rfl),
    Device.fullShifted_eq, Device.shiftFullAddress]

/-- Settles O8: the 26 line writes bit by bit, then the byte they leave in A1 and the one A1 passed on. -/
theorem lowAddressShiftByLines : Obligations.LowAddressShiftByLines := fun d => by
  rw [Device.shiftLowAddressByLines, Device.setLines_shiftWrites Device.setLines_addressBit (fun _ _ => rfl),
    Device.lowShifted_eq, Device.shiftLowAddress]

/-! ### The initialisation, atomic step by atomic step (R262) -/

/-- A straight statement that is not the last runs and leaves what stands after it. -/
theorem Device.statement_straight {d : Device} {st : Stmt} {rest : List Stmt} (hp : d.pos = st :: rest)
    (hs : st.straight = true) (hr : rest ≠ []) : d.statement = ((st.exec d).1.withPos rest, (st.exec d).2) := by
  have hfin : ((st.exec d).1.withPos rest).finish = (st.exec d).1.withPos rest := if_neg fun h => hr h.1
  simp only [Device.statement, hp, Stmt.exec_withPos st d rest hs, hfin]

theorem execAll_withPos (l : List Stmt) (d : Device) (p : List Stmt) (h : l.all Stmt.straight = true) :
    execAll l (d.withPos p) = ((execAll l d).1.withPos p, (execAll l d).2) := by
  induction l generalizing d with
  | nil => rfl
  | cons st t ih =>
    obtain ⟨hst, ht⟩ : st.straight = true ∧ t.all Stmt.straight = true := by simpa using h
    rw [execAll_cons, Stmt.exec_withPos st d p hst, ih _ ht, execAll_cons]

/-- Before the first IDLE only DSP moves, and it is inside its pseudocode. -/
theorem State.atomicStep_initialising {s : State} (h : s.dstate = .initialising) (hl : s.link = []) :
    s.atomicStep = s.withDevice s.toDevice.statement := by
  have hd : s.toDevice.dspStep = s.toDevice.statement := by simp [Device.dspStep, Device.running, h]
  have hc : countDown s.link = s.link := by rw [hl]; rfl
  rw [State.atomicStep_busy (by simp [h]), State.tick, s.rxMoves_initialising h, if_neg (by decide), State.dspMove, hd,
    hc]
  rfl

/-- Straight statements of the initialisation are an atomic step each. -/
theorem State.iterate_initialising (l rest : List Stmt) (hs : l.all Stmt.straight = true) (hr : rest ≠ []) (s : State)
    (hd : s.dstate = .initialising) (hl : s.link = []) (hp : s.pos = l ++ rest) :
    State.atomicStep^[l.length] s =
      s.withDevice ((execAll l s.toDevice).1.withPos rest, (execAll l s.toDevice).2) := by
  induction l generalizing s with
  | nil =>
    have hpos : s.toDevice.withPos rest = s.toDevice := by rw [show rest = s.pos from hp.symm]; rfl
    simp only [execAll_nil, hpos]
    rfl
  | cons st t ih =>
    obtain ⟨hst, ht⟩ : st.straight = true ∧ t.all Stmt.straight = true := by simpa using hs
    have hp' : s.pos = st :: (t ++ rest) := hp
    have hstep : s.atomicStep = s.withDevice ((st.exec s.toDevice).1.withPos (t ++ rest), (st.exec s.toDevice).2) := by
      rw [State.atomicStep_initialising hd hl, Device.statement_straight hp' hst (by simp [hr])]
    have hnext := ih ht (s.withDevice ((st.exec s.toDevice).1.withPos (t ++ rest), (st.exec s.toDevice).2))
      ((Stmt.exec_straight_dstate st s.toDevice hst).trans hd) hl rfl
    rw [List.length_cons, Function.iterate_succ_apply, hstep, hnext]
    simp only [State.withDevice_toDevice, execAll_withPos t _ _ ht, execAll_cons]
    simp [State.withDevice]

/-- R262's last statement writes the dispatcher state and DSP's position alone. -/
theorem State.atomicStep_enterIdle {s : State} (hd : s.dstate = .initialising) (hl : s.link = [])
    (hp : s.pos = [.enterIdle]) (hc : s.cmd = none) : s.atomicStep = { s with dstate := .idle, pos := [] } := by
  have hst : s.toDevice.statement = ({ s.toDevice with dstate := .idle, pos := [] }, []) := by
    simp [Device.statement, hp, Stmt.exec, Device.finish, Device.complete, Device.withPos, hc]
  rw [State.atomicStep_initialising hd hl, hst]
  rfl

/-- Ticks to the end of a run are its atomic steps, however many more are allowed. -/
theorem State.runTicks_eq_iterate {k : Nat} {s : State} (hrun : ∀ m < k, (State.atomicStep^[m] s).running = true)
    (hstop : (State.atomicStep^[k] s).running = false) {n : Nat} (hn : k ≤ n) :
    State.runTicks n s = State.atomicStep^[k] s := by
  induction k generalizing s n with
  | zero =>
    cases n with
    | zero => rfl
    | succ n => rw [State.runTicks, show s.running = false from hstop]; rfl
  | succ k ih =>
    obtain ⟨n, rfl⟩ : ∃ j, n = j + 1 := ⟨n - 1, by omega⟩
    have hr : s.running = true := hrun 0 (by omega)
    have hi : s.dstate ≠ .idle := by
      rcases (Device.running_iff _).1 hr with h | h <;> simp [h]
    rw [State.runTicks, hr, if_pos rfl, ← State.atomicStep_busy hi]
    exact ih (fun m hm => hrun (m + 1) (by omega)) hstop (by omega)

theorem Device.eventOf_cases (d : Device) : d.eventOf = [] ∨ ∃ a v, d.eventOf = [.busWrite a v] := by
  unfold Device.eventOf
  cases d.weFalls with
  | false => exact .inl rfl
  | true => exact .inr ⟨_, _, rfl⟩

/-- Line writes are no answers. -/
theorem shiftEvents_no_answers (clk dat : Line) (bits : List Bool) :
    ∀ e ∈ shiftEvents clk dat bits, e.isRespond = false := by
  intro e he
  have hset : ∃ x b, e = .set x b := by
    simp only [shiftEvents, List.mem_append, List.mem_cons, List.mem_flatMap, List.not_mem_nil, or_false] at he
    obtain (he | ⟨_, _, he | he | he⟩) | he := he <;> exact ⟨_, _, he⟩
  obtain ⟨x, b, rfl⟩ := hset
  rfl

/-- Nothing is answered during the initialisation. -/
theorem initEvents_no_answers (d : Device) :
    (initEvents d.eventOf).filter (fun e => !e.isRespond) = initEvents d.eventOf := by
  have hw : ∀ e ∈ d.eventOf, e.isRespond = false := by
    intro e he
    obtain hn | ⟨a, v, hn⟩ := d.eventOf_cases <;> rw [hn] at he
    · cases he
    · rw [List.mem_singleton.1 he]; rfl
  refine List.filter_eq_self.2 fun e he => ?_
  simp only [initEvents, List.mem_cons, List.mem_append] at he
  obtain rfl | (he | he) | he := he
  · rfl
  · rw [shiftEvents_no_answers _ _ _ e he]; rfl
  · rw [hw e he]; rfl
  · rw [shiftEvents_no_answers _ _ _ e he]; rfl

/-- The initialisation's 26 and 50 line writes (R285); its write event is none. -/
theorem initEvents_lineWrites (d : Device) : lineWritesOf (initEvents d.eventOf).tail = 76 := by
  have hw : (BusLog.of d.eventOf).lineWrites = 0 := by
    obtain hn | ⟨a, v, hn⟩ := d.eventOf_cases <;> rw [hn] <;> rfl
  have h : (BusLog.of (initEvents d.eventOf).tail).lineWrites = 76 := by
    rw [initEvents, List.tail_cons, BusLog.of_append, BusLog.of_append, BusLog.of_shiftEvents, BusLog.of_shiftEvents]
    simp [hw]
  exact h

/-- R262's statements before `dstate <- IDLE`. -/
def initShifts : List Stmt := [.setDir .input, .shiftControl, .shiftFullAddress]

/-- The initialisation's three statements in closed form, where ALS is deasserted in `ctrl`: everything shown, with the
write event its first latch may make (R262, R281). -/
theorem execAll_initShifts (d x : Device) (hx : x = { d with portDir := .input }) (h : isAsserted .als d.ctrl = false) :
    execAll initShifts d =
      (Device.shown { x with fstate := x.nextFstate, fmem := x.nextFmem, draws := x.nextDraws },
        .dir .input :: (shiftEvents .cclk .cdat (msbFirst (ctrlByte d.ctrl d.bank)) ++ x.eventOf ++
          shiftEvents .aclk .adat (msbFirst (addr16 d.addrHi d.addrLo)))) := by
  subst hx
  simp only [initShifts, execAll_cons, execAll_nil, Stmt.exec, Device.shiftControl_eq]
  rw [Device.shiftFullAddress_eq _ (by simp [h]) rfl]
  simp only [List.append_nil, List.append_assoc, List.cons_append, List.nil_append]
  rfl

/-- DSP is initialising before each of R262's four statements. -/
theorem State.initialising_dstate {s : State} (hd : s.dstate = .initialising) (hl : s.link = [])
    (hp : s.pos = initProgram) {m : Nat} (hm : m < 4) : (State.atomicStep^[m] s).dstate = .initialising := by
  have hlen : (initProgram.take m).length = m := List.length_take_of_le (Nat.le_of_lt hm)
  have hs : (initProgram.take m).all Stmt.straight = true := by interval_cases m <;> rfl
  have hr : initProgram.drop m ≠ [] := by simp [List.drop_eq_nil_iff, initProgram]; omega
  have h := State.iterate_initialising _ _ hs hr s hd hl (by rw [hp, List.take_append_drop])
  rw [hlen] at h
  rw [h]
  exact (execAll_dstate _ _ hs).trans hd

/-- The shown registers at power-on: bank 0, address 0, `ctrl` 0x03 (R39). -/
theorem Device.shown_powerOn {d : Device} (hb : d.bank = 0#4) (hc : d.ctrl = 0x03#8) (hh : d.addrHi = 0#8)
    (hl : d.addrLo = 0#8) :
    d.shown =
      { d with
        c := { S := 0x03#8, Q := 0x03#8 }
        a1 := { S := 0#8, Q := 0#8 }
        a2 := { S := 0#8, Q := 0#8 }
        lines := { cclk := true, cdat := true, aclk := true, adat := false, latch := true } } := by
  have hbyte : ctrlByte 0x03#8 0#4 = 0x03#8 := by decide
  have hcdat : (0x03#8).getLsbD 0 = true := by decide
  have hadat : (0#8).getLsbD 0 = false := by decide
  rw [Device.shown, hb, hc, hh, hl, hbyte, hcdat, hadat]

/-- The machine at power-on with any stages, latches and line levels (R39, R261). -/
def State.powerOn (c a1 a2 : ShiftReg) (l : Lines) : State :=
  { State.reset with c := c, a1 := a1, a2 := a2, lines := l }

/-- The device at power-on, its data port turned to input: what the first control shift starts from. -/
def Device.atFirstShift (c a1 a2 : ShiftReg) (l : Lines) : Device :=
  { (State.powerOn c a1 a2 l).toDevice with portDir := .input }

/-- The machine after R262's three shifts: only `dstate <- IDLE` is left. -/
def State.atLastStatement (c a1 a2 : ShiftReg) (l : Lines) : State :=
  { State.powerOn c a1 a2 l with
    portDir := .input
    c := { S := 0x03#8, Q := 0x03#8 }
    a1 := { S := 0#8, Q := 0#8 }
    a2 := { S := 0#8, Q := 0#8 }
    lines := { cclk := true, cdat := true, aclk := true, adat := false, latch := true }
    pos := [.enterIdle]
    fstate := (Device.atFirstShift c a1 a2 l).nextFstate
    fmem := (Device.atFirstShift c a1 a2 l).nextFmem
    draws := (Device.atFirstShift c a1 a2 l).nextDraws
    trace := (initEvents (Device.atFirstShift c a1 a2 l).eventOf).reverse }

/-- The machine when DSP first reaches IDLE (R39, second column). -/
def State.firstIdle (c a1 a2 : ShiftReg) (l : Lines) : State :=
  { State.atLastStatement c a1 a2 l with dstate := .idle, pos := [] }

section

variable (c a1 a2 : ShiftReg) (l : Lines)

theorem State.powerOn_shifts : State.atomicStep^[3] (State.powerOn c a1 a2 l) = State.atLastStatement c a1 a2 l := by
  have hals : isAsserted .als (0x03#8 : Byte) = false := by decide
  have hbyte : ctrlByte (State.powerOn c a1 a2 l).ctrl (State.powerOn c a1 a2 l).bank = 0x03#8 :=
    show ctrlByte 0x03#8 0#4 = 0x03#8 by decide
  have haddr : addr16 (State.powerOn c a1 a2 l).addrHi (State.powerOn c a1 a2 l).addrLo = 0x0000#16 :=
    show addr16 0#8 0#8 = 0x0000#16 by decide
  have h := State.iterate_initialising initShifts [.enterIdle] rfl (by simp) (State.powerOn c a1 a2 l) rfl rfl rfl
  rw [execAll_initShifts _ (Device.atFirstShift c a1 a2 l) rfl hals, Device.shown_powerOn rfl rfl rfl rfl, hbyte,
    haddr] at h
  exact h.trans (congrArg (fun t => { State.atLastStatement c a1 a2 l with trace := t }) (List.append_nil _))

/-- The four statements of R262 end in the first IDLE. -/
theorem State.powerOn_firstIdle : State.atomicStep^[4] (State.powerOn c a1 a2 l) = State.firstIdle c a1 a2 l := by
  rw [Function.iterate_succ_apply', State.powerOn_shifts, State.atomicStep_enterIdle rfl rfl rfl rfl]
  rfl

theorem State.step_powerOn : step (State.powerOn c a1 a2 l) = .next (State.firstIdle c a1 a2 l) := by
  have hrun : ∀ m < 4, (State.atomicStep^[m] (State.powerOn c a1 a2 l)).running = true := fun m hm =>
    (Device.running_iff _).2 (.inl (State.initialising_dstate rfl rfl rfl hm))
  have hstop : (State.atomicStep^[4] (State.powerOn c a1 a2 l)).running = false := by
    rw [State.powerOn_firstIdle]; rfl
  have hfuel : 4 ≤ (State.powerOn c a1 a2 l).fuel := Nat.le_of_ble_eq_true rfl
  have h : step (State.powerOn c a1 a2 l) = .next (State.powerOn c a1 a2 l).runCommand := rfl
  rw [h, State.runCommand, State.runTicks_eq_iterate hrun hstop hfuel, State.powerOn_firstIdle]

theorem State.firstIdle_events :
    (State.firstIdle c a1 a2 l).events = initEvents (Device.atFirstShift c a1 a2 l).eventOf :=
  List.reverse_reverse _

theorem State.firstIdle_cleanStart : (State.firstIdle c a1 a2 l).CleanStart where
  address := ⟨rfl, rfl, rfl⟩
  control := rfl
  port := ⟨rfl, rfl, rfl⟩
  buffer := rfl
  mailbox := ⟨rfl, rfl, rfl⟩
  status := rfl
  chain := ⟨rfl, rfl, rfl⟩
  lines := rfl
  position := rfl
  refused := rfl
  trace := ⟨_, State.firstIdle_events c a1 a2 l, Device.eventOf_cases _⟩

/-- The bus shows the whole trace: nothing was answered before the first IDLE. -/
theorem State.firstIdle_busEvents :
    (State.firstIdle c a1 a2 l).busEvents = initEvents (Device.atFirstShift c a1 a2 l).eventOf := by
  rw [State.busEvents, State.firstIdle_events, initEvents_no_answers]

end

/-- Settles O54: three straight statements show the registers, the fourth enters IDLE, and the first step is these four
atomic steps. -/
theorem initialisationReachesIdle : Obligations.InitialisationReachesIdle := by
  rintro s c a1 a2 l rfl
  exact ⟨State.firstIdle c a1 a2 l, State.step_powerOn c a1 a2 l, State.firstIdle_cleanStart c a1 a2 l,
    ⟨_, State.firstIdle_busEvents c a1 a2 l, initEvents_lineWrites _⟩, (State.powerOn_firstIdle c a1 a2 l).symm,
    fun m hm => State.initialising_dstate rfl rfl rfl hm,
    (congrArg (fun u : State => { u with dstate := .idle, pos := [] }) (State.powerOn_shifts c a1 a2 l)).symm⟩

end Sys2Proof.Machine
end

section
/-! SUPPORT. Decoding and encoding agree (R81, R84): what a header decodes to has that header, and a well-formed
instruction's header decodes to it. -/

namespace Sys2Proof

/-- A header whose sub-selector is required to be 0 and that is accepted. -/
theorem requireSub0_ok {h : Header} {d : Decoded} {i : Instr} (hd : requireSub0 h d = .ok i) :
    h.sub = 0#4 ∧ d = .ok i := by
  unfold requireSub0 at hd
  split at hd
  · exact ⟨‹_›, hd⟩
  · cases hd

/-- A header is its opcode, its sub-selector and its parameters. -/
theorem header_of_fields {h : Header} {o : Opc} (ho : opcOfNibble h.nib = some o) : header o h.sub h.p0 h.p1 = h := by
  rw [header, opc_of_opcOfNibble ho, op8_fields]

/-- A SETUP header is its mode and its operands. -/
theorem setupHeader_of_fields {h : Header} {m : Mode} (ho : opcOfNibble h.nib = some .setup) (hs : h.sub = 0#4)
    (hm : modeOfByte (hiByte h.p1) = some m) : setupHeader m h.p0 (lowNibble h.p1) (midNibble h.p1) = h := by
  rw [setupHeader, modeCode_of_modeOfByte hm, half_fields, ← hs, header_of_fields ho]

/-- A SETUP header that decodes is the header of what it decodes to. -/
theorem encode_of_decodeSetup {h : Header} {i : Instr} (ho : opcOfNibble h.nib = some .setup) (hs : h.sub = 0#4)
    (hd : decodeSetup h = .ok i) : encode i = h := by
  unfold decodeSetup at hd
  cases hm : modeOfByte (hiByte h.p1) with
  | none => simp [hm] at hd
  | some m =>
    have key := setupHeader_of_fields ho hs hm
    cases m <;> simp only [hm, Decoded.ok.injEq] at hd <;> subst hd <;> exact key

/-- A header that decodes is the header of what it decodes to (R81). -/
theorem encode_of_decode {h : Header} {i : Instr} (hd : decode h = .ok i) : encode i = h := by
  unfold decode at hd
  cases ho : opcOfNibble h.nib with
  | none => simp [ho] at hd
  | some o =>
    have key := header_of_fields ho
    cases o <;> simp only [ho] at hd
    case read =>
      unfold decodeRead at hd
      split at hd
      · rename_i hs
        cases hd
        rw [encode, half_fields, ← hs, key]
      · split at hd
        · rename_i hs
          cases hd
          rw [encode, ← hs, key]
        · cases hd
    all_goals
      obtain ⟨hs, hd⟩ := requireSub0_ok hd
      rw [hs] at key
    case setup => exact encode_of_decodeSetup ho hs hd
    case write =>
      unfold decodeWrite at hd
      split at hd
      · rename_i hz
        cases hd
        rw [encode, ← hz, half_fields, key]
      · cases hd
        rw [encode, half_fields, key]
    all_goals
      cases hd
      simp only [encode, half_bytes, half_fields, key]

/-- What a header decodes to is what its own header decodes to. -/
theorem decode_encode_of_decode {h : Header} {i : Instr} (hd : decode h = .ok i) : decode (encode i) = .ok i := by
  rw [encode_of_decode hd, hd]

/-- A well-formed instruction's header decodes to it (R81, R84). -/
theorem decode_encode {i : Instr} (h : i.wellFormed = true) : decode (encode i) = .ok i := by
  cases i with
  | write a b xl => simp [decode, encode, requireSub0, decodeWrite]
  | writeFixed a sl b xl =>
    have hs : sl ≠ 0#8 := by simpa [Instr.wellFormed, slowByteOk] using h
    simp [decode, encode, requireSub0, decodeWrite, hs]
  | _ => simp [decode, encode, setupHeader, requireSub0, decodeSetup, decodeRead]

/-- The one constructor term that stands for no row of the opcode table has the header of row WRITE. -/
theorem wellFormed_or (i : Instr) : i.wellFormed = true ∨ ∃ a b xl, i = .writeFixed a 0#8 b xl := by
  cases i with
  | writeFixed a sl b xl =>
    by_cases hs : sl = 0#8
    · subst hs; exact .inr ⟨a, b, xl, rfl⟩
    · exact .inl (by simp [Instr.wellFormed, slowByteOk, hs])
  | _ => exact .inl rfl

end Sys2Proof
end

section
/-! SUPPORT. The state family (10_state.md), its registers: what a run of statements keeps, and which of the registers
whose writers R23, R26 and R35 list each statement and each program writes. -/

namespace Sys2Proof.Machine

open Sys2Proof

/-! ### What a run keeps, statement by statement -/

/-- Where a statement leaves DSP's position: at the end, after itself, or at a poll with one sample less. -/
theorem Stmt.exec_pos (st : Stmt) (d : Device) :
    (st.exec d).1.pos = [] ∨ (st.exec d).1.pos = d.pos ∨
      ∃ k, st = .poll (k + 1) ∧ (st.exec d).1.pos = .poll k :: d.pos := by
  cases st with
  | poll k =>
    cases k with
    | zero => simp [Stmt.exec]
    | succ k => simp only [Stmt.exec, Device.pollSample]; split <;> simp
  | loadLowAssert => simp only [Stmt.exec]; split <;> simp
  | loadLowShift => simp only [Stmt.exec]; split <;> simp
  | eraseCheck => simp only [Stmt.exec]; split <;> simp
  | _ => simp [Stmt.exec]

/-- `P` is kept by every statement `ok` admits, and neither DSP's position nor a completion matters to it. -/
structure Kept (ok : Stmt → Prop) (P : Device → Prop) : Prop where
  withPos : ∀ d p, P d → P (d.withPos p)
  complete : ∀ d, P d → P d.complete
  poll : ∀ k, ok (.poll (k + 1)) → ok (.poll k)
  exec : ∀ st d, ok st → P d → P (st.exec d).1

section
variable {ok : Stmt → Prop} {P : Device → Prop}

theorem Kept.finish (h : Kept ok P) {d : Device} (hP : P d) (hl : ∀ st ∈ d.pos, ok st) :
    P d.finish ∧ ∀ st ∈ d.finish.pos, ok st := by
  obtain ⟨_, _, e⟩ | ⟨_, e⟩ := d.finish_cases <;> rw [e]
  · exact ⟨h.complete d hP, by simp⟩
  · exact ⟨hP, hl⟩

theorem Kept.statement (h : Kept ok P) {d : Device} (hP : P d) (hl : ∀ st ∈ d.pos, ok st) :
    P d.statement.1 ∧ ∀ st ∈ d.statement.1.pos, ok st := by
  unfold Device.statement
  split
  · exact ⟨h.complete d hP, by simp⟩
  · rename_i st rest hp
    have hst : ok st := hl st (by simp [hp])
    have hrest : ∀ x ∈ rest, ok x := fun x hx => hl x (by simp [hp, hx])
    refine h.finish (h.exec st _ hst (h.withPos d rest hP)) ?_
    obtain e | e | ⟨k, rfl, e⟩ := st.exec_pos (d.withPos rest) <;> rw [e]
    · simp
    · exact hrest
    · exact List.forall_mem_cons.2 ⟨h.poll k hst, hrest⟩

theorem Kept.runN (h : Kept ok P) (n : Nat) {d : Device} (hP : P d) (hl : ∀ st ∈ d.pos, ok st) :
    P (d.runN n).1 := by
  induction n generalizing d with
  | zero => exact hP
  | succ n ih =>
    simp only [Device.runN]
    split
    · obtain ⟨hP', hl'⟩ := h.statement hP hl
      exact ih hP' hl'
    · exact hP

/-- A run of admitted statements keeps `P` to its end. -/
theorem Kept.finalRun (h : Kept ok P) {d : Device} (hP : P d) (hl : ∀ st ∈ d.pos, ok st) : P d.finalRun.1 :=
  h.runN _ hP hl

end

/-! ### Which registers a statement and a request write (R23, R26, R35) -/

/-- The registers whose writers R35, R26 and R23 list: the status, the data byte, and of the control register the LED
flag with the unnamed bits. -/
inductive Listed
  | status
  | data
  | led
  deriving DecidableEq

/-- Two devices hold the same in a listed register. -/
def Listed.Same (d e : Device) : Listed → Prop
  | .status => d.status = e.status
  | .data => d.data = e.data
  | .led => ∀ n, 3 ≤ n → n < 8 → d.ctrl.getLsbD n = e.ctrl.getLsbD n

/-- The listed register a statement writes. -/
def Stmt.writes : Stmt → Option Listed
  | .loadCtrl _ => some .led
  | .setFlag .led _ => some .led
  | .loadData _ => some .data
  | .storeData => some .data
  | .storeReady => some .data
  | .poll _ => some .status
  | .eraseCheck => some .status
  | .fail _ => some .status
  | .setStatus _ => some .status
  | _ => none

/-- The listed register a request writes, by its rule. -/
def requestWrites : Instr → Option Listed
  | .setControl _ _ _ => some .led
  | .setData _ _ _ => some .data
  | .setupProbeReady _ _ _ => some .data
  | .setupIdManuf _ _ _ => some .data
  | .setupIdDevice _ _ _ => some .data
  | .setupVerifyProt _ _ _ => some .data
  | .write _ _ _ => some .status
  | .writeFixed _ _ _ _ => some .status
  | .setupEraseChip _ _ _ => some .status
  | .setupEraseSector _ _ _ => some .status
  | _ => none

theorem Listed.Same.refl {w : Listed} {d : Device} : w.Same d d := by
  cases w with
  | led => exact fun _ _ _ => Eq.refl _
  | _ => exact Eq.refl _

theorem Listed.Same.trans {w : Listed} {d e f : Device} (h1 : w.Same d e) (h2 : w.Same e f) : w.Same d f := by
  cases w with
  | led => exact fun n h h' => (h1 n h h').trans (h2 n h h')
  | _ => exact Eq.trans h1 h2

/-- Writing a flag other than the LED leaves bits 3 to 7 of a control byte. -/
theorem getLsbD_writeFlag_of_ne_led {f : Flag} (hf : f ≠ .led) (on : Bool) (b : Byte) {n : Nat} (h3 : 3 ≤ n)
    (h8 : n < 8) : (writeFlag f on b).getLsbD n = b.getLsbD n := by
  have hn : n ≠ flagPos f := by cases f <;> simp [flagPos] at hf ⊢ <;> omega
  rw [writeFlag, getLsbD_writeBit _ _ _ _ h8 (flagPos_lt f), if_neg hn]

/-- A statement leaves a listed register it does not write. -/
theorem Stmt.exec_same {w : Listed} (st : Stmt) (d : Device) (h : st.writes ≠ some w) : w.Same (st.exec d).1 d := by
  cases st with
  | poll k =>
    have hw : w ≠ .status := fun e => h (by rw [e]; rfl)
    cases k with
    | zero => cases w <;> simp_all [Listed.Same, Stmt.exec]
    | succ k => simp only [Stmt.exec, Device.pollSample]; split <;> cases w <;> simp [Listed.Same]
  | eraseCheck =>
    have hw : w ≠ .status := fun e => h (by rw [e]; rfl)
    simp only [Stmt.exec]; split <;> cases w <;> simp_all [Listed.Same]
  | loadLowAssert =>
    simp only [Stmt.exec]
    split
    · exact Listed.Same.refl
    · cases w with
      | led => exact fun n h3 h8 => getLsbD_writeFlag_of_ne_led (by decide) true d.ctrl h3 h8
      | _ => exact Eq.refl _
  | loadLowShift => simp only [Stmt.exec]; split <;> cases w <;> simp [Listed.Same]
  | setFlag f on =>
    cases w with
    | led =>
      have hf : f ≠ .led := fun e => h (by rw [e]; rfl)
      exact fun n h3 h8 => getLsbD_writeFlag_of_ne_led hf on d.ctrl h3 h8
    | _ => exact Eq.refl _
  | _ => cases w <;> simp_all [Listed.Same, Stmt.exec, Stmt.writes]

/-- A run of statements none of which writes it leaves a listed register as it was. -/
theorem Device.finalRun_same {w : Listed} {d : Device} (h : ∀ st ∈ d.pos, st.writes ≠ some w) :
    w.Same d.finalRun.1 d := by
  have kept : Kept (fun st => st.writes ≠ some w) (fun x => w.Same x d) :=
    { withPos := fun x p hx => by cases w <;> exact hx
      complete := fun x hx => by cases w <;> exact hx
      poll := fun _ h => h
      exec := fun st x hs hx => (st.exec_same x hs).trans hx }
  exact kept.finalRun Listed.Same.refl h

/-! ### Which registers a program writes -/

/-- The statement writes no listed register but `w`. -/
def Stmt.writesOnly (w : Option Listed) (st : Stmt) : Bool := st.writes == none || st.writes == w

theorem programByte_writesOnly (p : Params) (t : Half) (i : Fin 64) (v : Variant) :
    (programByte p t i v).all (Stmt.writesOnly (some .status)) = true := by cases v <;> rfl

theorem progChunk_writesOnly (p : Params) (a : Half) (b : Nibble) (v : Variant) :
    (progChunk p a b v).all (Stmt.writesOnly (some .status)) = true := by
  have hpoll : (pollFirst p v).all (Stmt.writesOnly (some .status)) = true := by cases v <;> rfl
  simp [progChunk, List.all_append, List.all_flatMap, programByte_writesOnly, hpoll, Stmt.writesOnly, Stmt.writes]

theorem progReadArm_writesOnly (p : Params) (a : Half) (b : Nibble) :
    (progReadArm p a b).all (Stmt.writesOnly none) = true := by
  have hnext : ∀ i, (readNext p i).all (Stmt.writesOnly none) = true := fun _ => rfl
  have hread : (busRead p a).all (Stmt.writesOnly none) = true := rfl
  simp [progReadArm, List.all_append, List.all_flatMap, hnext, hread, Stmt.writesOnly, Stmt.writes]

theorem erasePolls_writesOnly (p : Params) (a : Half) (k : Nat) :
    (erasePolls p a k).all (Stmt.writesOnly (some .status)) = true := by
  induction k with
  | zero => rfl
  | succ k ih =>
    have hpoll : (erasePoll p a).all (Stmt.writesOnly (some .status)) = true := rfl
    rw [erasePolls, List.all_append, hpoll, ih]
    rfl

/-- An erase writes the status alone, in both forms of R166. -/
theorem erase_writesOnly (p : Params) (b : Nibble) (f a : Half) (fd : Byte) :
    (setupCommon b ++ eraseCommand p f fd ++ eraseWait p a).all (Stmt.writesOnly (some .status)) = true := by
  have hunlock : (eraseUnlock p.erasePrefix).all (Stmt.writesOnly (some .status)) = true := by
    cases p.erasePrefix <;> rfl
  have hwr : ∀ a v, (busWrite a v).all (Stmt.writesOnly (some .status)) = true := fun _ _ => rfl
  have hset : (setupCommon b).all (Stmt.writesOnly (some .status)) = true := rfl
  simp only [eraseCommand, eraseWait, List.all_append, hunlock, hwr, hset, erasePolls_writesOnly]
  rfl

/-- A request's program writes no listed register but the request's own (R23, R26, R35). -/
theorem program_writesOnly (p : Params) (i : Instr) : (program p i).all (Stmt.writesOnly (requestWrites i)) = true := by
  cases i with
  | write a b xl => exact progChunk_writesOnly p a b _
  | writeFixed a sl b xl => exact progChunk_writesOnly p a b _
  | readArm a b xh xm => exact progReadArm_writesOnly p a _
  | setupEraseChip a b xm => exact erase_writesOnly p _ _ a _
  | setupEraseSector a b xm => exact erase_writesOnly p _ _ a _
  | _ => rfl

theorem program_writes_ne {w : Listed} {i : Instr} (p : Params) (hw : requestWrites i ≠ some w) :
    ∀ st ∈ program p i, st.writes ≠ some w := by
  intro st hst e
  have h : some w = requestWrites i := by
    simpa [Stmt.writesOnly, e] using List.all_eq_true.1 (program_writesOnly p i) st hst
  exact hw h.symm

end Sys2Proof.Machine
end

section
/-! SUPPORT. The state family, its writers: what the meaning of a request comes to, and that a request which is taken
leaves every listed register its rule does not write (R23, R26, R35). -/

namespace Sys2Proof.Machine

open Sys2Proof

/-! ### What a request's meaning comes to -/

theorem State.onHeader_next {s x t : State} (h : s.onHeader x = .next t) :
    t = x ∧ s.dataPending = 0 ∧ s.dstate ≠ .initialising ∧ s.dstate ≠ .terminated := by
  unfold State.onHeader at h
  cases hd : s.dstate <;> simp only [hd, reduceCtorEq] at h
  all_goals
    split at h
    · cases h; exact ⟨rfl, ‹_›, by simp⟩
    · cases h

/-- A query's meaning is RX's answer (R140, R141). -/
theorem exec_query {i : Instr} (h : i.isQuery = true) (s : State) : exec i s = s.onHeader (s.rxInstr i) := by
  cases i with
  | getData | readFetch => rfl
  | _ => cases h

/-- A command's meaning (R131, R132). -/
theorem exec_command {i : Instr} (h : i.isQuery = false) (s : State) : exec i s = s.onHeader (s.command i) := by
  cases i with
  | getData | readFetch => cases h
  | _ => rfl

theorem State.rxInstr_command {i : Instr} (h : i.isQuery = false) (s : State) : s.rxInstr i = s.rxCommand i := by
  cases i with
  | getData | readFetch => cases h
  | _ => rfl

/-- An answer to a query leaves the device alone. -/
theorem State.rxInstr_query {i : Instr} (h : i.isQuery = true) (s : State) : (s.rxInstr i).toDevice = s.toDevice := by
  cases i with
  | getData | readFetch => rfl
  | _ => cases h

theorem State.command_idle {s : State} (h : s.dstate = .idle) (i : Instr) : s.command i = (s.accept i).settle := by
  simp [State.command, h]

theorem State.command_busy {s : State} (h : s.dstate ≠ .idle) (i : Instr) : s.command i = s.rxCommand i := by
  cases hd : s.dstate with
  | idle => exact absurd hd h
  | _ => simp [State.command, hd]

theorem State.Takes.idle {s : State} {i : Instr} (h : s.Takes i) : s.dstate = .idle := by
  obtain ⟨_, hs⟩ | ⟨_, _, _, _, hs⟩ := h <;> exact hs.idle

/-- The start step writes the status only for the requests whose rule does (R134, R35). -/
theorem startStatus_eq {i : Instr} (h : requestWrites i ≠ some .status) (st : Status) : startStatus st i = st := by
  cases i with
  | write | writeFixed | setupEraseChip | setupEraseSector => exact absurd rfl h
  | _ => rfl

/-- A command that is taken runs its program, from a device that holds what the registers held. -/
theorem State.Takes.started {s : State} {i : Instr} (hs : s.Takes i) (hdec : decode (encode i) = .ok i) :
    ∃ d : Device, (s.command i).toDevice = d.finalRun.1 ∧ d.pos = program s.params i ∧ d.data = s.data ∧
      d.ctrl = s.ctrl ∧ d.status = startStatus s.status i := by
  obtain ⟨hw, hr⟩ | ⟨hw, delays, segs, rest, hr⟩ := hs
  · exact ⟨s.launched i, (s.command_ready i hr hdec hw).1, rfl, rfl, rfl, rfl⟩
  · refine ⟨_, (s.command_readyWrite i delays segs rest hr hdec hw).1, ?_⟩
    rw [State.launchedWrite, Device.dataSegment_rest]
    exact ⟨rfl, rfl, rfl, rfl⟩

/-- Each request means, in IDLE, what a well-formed one does: WRITE.FIXED with slow byte 0 has WRITE's header. -/
theorem exists_wellFormed (i : Instr) : ∃ j : Instr, j.wellFormed = true ∧ requestWrites j = requestWrites i ∧
    j.isWrite = i.isWrite ∧ ∀ s : State, s.accept i = s.accept j := by
  obtain h | ⟨a, b, xl, rfl⟩ := wellFormed_or i
  · exact ⟨i, h, rfl, rfl, fun _ => rfl⟩
  · exact ⟨.write a b xl, rfl, rfl, rfl, fun _ => rfl⟩

/-- A request that is taken leaves every listed register its rule does not write (R23, R26, R35). -/
theorem State.Takes.same {s t : State} {i : Instr} {w : Listed} (hs : s.Takes i) (hw : requestWrites i ≠ some w)
    (h : exec i s = .next t) : w.Same t.toDevice s.toDevice := by
  obtain ⟨j, hj, hwj, hij, hacc⟩ := exists_wellFormed i
  by_cases hq : i.isQuery = true
  · rw [exec_query hq] at h
    rw [(State.onHeader_next h).1, State.rxInstr_query hq]
    exact Listed.Same.refl
  · rw [exec_command (by simpa using hq), State.command_idle hs.idle, hacc, ← State.command_idle hs.idle] at h
    have hsj : s.Takes j := by unfold State.Takes at hs ⊢; rwa [hij]
    obtain ⟨d, ht, hpos, hdata, hctrl, hst⟩ := hsj.started (decode_encode hj)
    rw [← hwj] at hw
    have hrun : w.Same d.finalRun.1 d := Device.finalRun_same (by rw [hpos]; exact program_writes_ne _ hw)
    rw [(State.onHeader_next h).1, ht]
    refine hrun.trans ?_
    cases w with
    | status => exact hst.trans (startStatus_eq hw s.status)
    | data => exact hdata
    | led => exact fun n _ _ => by rw [hctrl]

/-- Settles O48: a program's statements write no status but for WRITE and the erase modes. -/
theorem statusWriters : Obligations.StatusWriters := by
  intro s t i hs hw hchip hsector h
  have hwr : requestWrites i ≠ some .status := by
    cases i with
    | write | writeFixed => cases hw
    | setupEraseChip a n xm => exact absurd rfl (hchip a n xm)
    | setupEraseSector a n xm => exact absurd rfl (hsector a n xm)
    | _ => simp [requestWrites]
  exact State.Takes.same (.inl ⟨hw, hs⟩) hwr h

/-- Settles O49: the five requests left out are those whose programs write the data byte. -/
theorem dataWriters : Obligations.DataWriters := by
  intro s t i hs hdata hprobe hmanuf hdevice hprot h
  have hwr : requestWrites i ≠ some .data := by
    cases i with
    | setData d x0 x1 => exact absurd rfl (hdata d x0 x1)
    | setupProbeReady a n xm => exact absurd rfl (hprobe a n xm)
    | setupIdManuf a n xm => exact absurd rfl (hmanuf a n xm)
    | setupIdDevice a n xm => exact absurd rfl (hdevice a n xm)
    | setupVerifyProt a n xm => exact absurd rfl (hprot a n xm)
    | _ => simp [requestWrites]
  exact hs.same hwr h

/-- Settles O50: the bus cycles write the flags WE, OE and ALS alone. -/
theorem ledWriters : Obligations.LedWriters := by
  intro s t i hs hctrl h
  have hwr : requestWrites i ≠ some .led := by
    cases i with
    | setControl c x0 x1 => exact absurd rfl (hctrl c x0 x1)
    | _ => simp [requestWrites]
  exact hs.same hwr h

end Sys2Proof.Machine
end

section
/-! SUPPORT. The state family, its steps: what a step can do, said once; what the atomic steps keep, a step keeps; no
step writes a parameter (R42). -/

namespace Sys2Proof.Machine

open Sys2Proof

/-! ### What a step can do -/

theorem State.rxStep_cons {s : State} {a : Arrival} {rest : List Arrival} (h : s.link = a :: rest) :
    s.rxStep = State.rxInput { s with link := rest } a.input := by
  simp [State.rxStep, h]

/-- The next input is no header while a data phase is owed (R130, R240). -/
def State.InputMoves (s : State) : Prop :=
  ∀ a rest h, s.link = a :: rest → a.input = .header h → s.dataPending = 0

/-- A request taken from the link outside a run is RX's step, and a command accepted from IDLE is carried to its end. -/
theorem exec_next {s t : State} {h : Header} {i : Instr} (hdec : decode h = .ok i) (he : exec i s = .next t) :
    s.dataPending = 0 ∧ (t = s.rxHeader h ∨ (s.dstate = .idle ∧ t = (s.rxHeader h).settle)) := by
  have hrx : s.rxHeader h = s.rxInstr i := by simp [State.rxHeader, hdec]
  rw [hrx]
  by_cases hq : i.isQuery = true
  · rw [exec_query hq] at he
    obtain ⟨rfl, hp, _⟩ := State.onHeader_next he
    exact ⟨hp, .inl rfl⟩
  · rw [Bool.not_eq_true] at hq
    rw [exec_command hq] at he
    obtain ⟨rfl, hp, _⟩ := State.onHeader_next he
    refine ⟨hp, ?_⟩
    rw [State.rxInstr_command hq]
    by_cases hi : s.dstate = .idle
    · exact .inr ⟨hi, by rw [State.command_idle hi]; simp [State.rxCommand, hi]⟩
    · exact .inl (State.command_busy hi i)

/-- The next link input is RX's step, and a command accepted from IDLE is carried to its end. -/
theorem State.stepInput_next {s t : State} (h : s.stepInput = .next t) :
    s.InputMoves ∧ (t = s.rxStep ∨ (s.dstate = .idle ∧ t = s.rxStep.settle)) := by
  unfold State.stepInput at h
  cases hl : s.link with
  | nil =>
    simp only [hl] at h
    cases h
    exact ⟨fun a rest h' e => by simp [hl] at e, .inl (by simp [State.rxStep, hl])⟩
  | cons a rest =>
    rw [State.rxStep_cons hl]
    simp only [hl] at h
    obtain ⟨dl, input⟩ := a
    cases input with
    | data seg =>
      cases h
      refine ⟨fun a' rest' h' e e' => ?_, .inl rfl⟩
      rw [hl] at e
      cases e
      cases e'
    | header hh =>
      have moves (hp : s.dataPending = 0) : s.InputMoves := fun _ _ _ _ _ => hp
      simp only [State.stepHeader] at h
      cases hdec : decode hh with
      | unsupported =>
        rw [hdec] at h
        obtain ⟨rfl, hp, _⟩ := State.onHeader_next h
        exact ⟨moves hp, .inl (by simp [State.rxInput, State.rxHeader, hdec])⟩
      | refused r =>
        rw [hdec] at h
        obtain ⟨rfl, hp, _⟩ := State.onHeader_next h
        exact ⟨moves hp, .inl (by simp [State.rxInput, State.rxHeader, hdec])⟩
      | ok i =>
        rw [hdec] at h
        obtain ⟨hp, ht⟩ := exec_next hdec h
        exact ⟨moves hp, ht⟩

/-- What a step that answers a next state can do: carry the initialisation or the running command to its end, start the
pending one, or let RX take the next input, which in IDLE may be a command that is then carried to its end. -/
theorem step_next {s t : State} (h : step s = .next t) :
    ((s.dstate = .initialising ∨ s.dstate = .executing) ∧ t = s.runCommand) ∨
      (s.dstate = .commandReceived ∧ t = s.settle) ∨
      ((s.dstate = .idle ∨ s.dstate = .commandReceived) ∧ s.InputMoves ∧
        (t = s.rxStep ∨ (s.dstate = .idle ∧ t = s.rxStep.settle))) := by
  unfold step at h
  cases hd : s.dstate <;> simp only [hd] at h
  case terminated => cases h
  case initialising => cases h; simp
  case executing => cases h; simp
  case idle =>
    obtain ⟨hm, ht⟩ := State.stepInput_next h
    exact .inr (.inr ⟨.inl rfl, hm, ht.imp_right fun ⟨_, e⟩ => ⟨rfl, e⟩⟩)
  case commandReceived =>
    split at h
    · cases h; simp
    · obtain ⟨hm, ht | ⟨hi, _⟩⟩ := State.stepInput_next h
      · exact .inr (.inr ⟨.inr rfl, hm, .inl ht⟩)
      · rw [hd] at hi; cases hi

/-! ### What the atomic steps keep, a step keeps -/

section
variable {P : State → Prop} (hrx : ∀ s, P s → P s.rxStep) (hdsp : ∀ s, P s → P s.dspMove)
include hrx hdsp

theorem State.tick_keeps {s : State} (h : P s) : P s.tick := by
  unfold State.tick
  split
  · exact hrx s h
  · exact hdsp s h

theorem State.runTicks_keeps (n : Nat) {s : State} (h : P s) : P (State.runTicks n s) := by
  induction n generalizing s with
  | zero => exact h
  | succ n ih =>
    unfold State.runTicks
    split
    · exact ih (State.tick_keeps hrx hdsp h)
    · exact h

omit hdsp in
theorem State.takeInputs_keeps (n : Nat) {s : State} (h : P s) : P (State.takeInputs n s) := by
  induction n generalizing s with
  | zero => exact h
  | succ n ih =>
    unfold State.takeInputs
    split
    · exact ih (hrx s h)
    · exact h

theorem State.settle_keeps {s : State} (h : P s) : P s.settle := by
  have h1 := State.takeInputs_keeps hrx s.link.length h
  unfold State.settle
  simp only
  split
  · exact State.runTicks_keeps hrx hdsp _ (hdsp _ h1)
  · exact h1

/-- What every RX step and every DSP step keeps, every step keeps. -/
theorem step_keeps {s t : State} (h : P s) (hst : step s = .next t) : P t := by
  obtain ⟨_, rfl⟩ | ⟨_, rfl⟩ | ⟨_, _, rfl | ⟨_, rfl⟩⟩ := step_next hst
  · exact State.runTicks_keeps hrx hdsp _ h
  · exact State.settle_keeps hrx hdsp h
  · exact hrx s h
  · exact State.settle_keeps hrx hdsp (hrx s h)

end

/-! ### The parameters (R9, R42) -/

theorem Device.finish_params (d : Device) : d.finish.params = d.params := by
  obtain ⟨_, _, e⟩ | ⟨_, e⟩ := d.finish_cases <;> rw [e]
  rfl

theorem Device.statement_params (d : Device) : d.statement.1.params = d.params := by
  unfold Device.statement
  split
  · rfl
  · obtain ⟨_, _, h⟩ := Stmt.exec_mailbox ‹_› (d.withPos ‹_›)
    exact (Device.finish_params _).trans h

theorem Device.start_params (d : Device) : d.start.params = d.params := by
  unfold Device.start
  split <;> rfl

theorem Device.dspStep_params (d : Device) : d.dspStep.1.params = d.params := by
  unfold Device.dspStep
  split
  · exact d.statement_params
  · split
    · exact d.start_params
    · rfl

theorem State.rxCommand_params (s : State) (i : Instr) : (s.rxCommand i).params = s.params := by
  unfold State.rxCommand
  split
  · rfl
  · unfold State.raceCommand; split <;> rfl
  · rfl
  · rfl
  · rfl

theorem State.rxInput_params (s : State) (x : LinkInput) : (s.rxInput x).params = s.params := by
  cases x with
  | data seg =>
    show (s.toDevice.dataSegment seg).params = s.params
    rw [Device.dataSegment_rest]
  | header h =>
    simp only [State.rxInput, State.rxHeader]
    cases decode h with
    | unsupported => rfl
    | refused r => rfl
    | ok i =>
      by_cases hq : i.isQuery = true
      · exact congrArg Device.params (State.rxInstr_query hq s)
      · simp only [State.rxInstr_command (by simpa using hq), State.rxCommand_params]

theorem State.rxStep_params (s : State) : s.rxStep.params = s.params := by
  unfold State.rxStep
  split
  · rfl
  · exact State.rxInput_params _ _

/-- Settles O51: no RX step and no DSP step writes a parameter. -/
theorem parametersNeverChange : Obligations.ParametersNeverChange := fun s _ h =>
  step_keeps (P := fun u => u.params = s.params) (fun u hu => u.rxStep_params.trans hu)
    (fun u hu => u.toDevice.dspStep_params.trans hu) rfl h

end Sys2Proof.Machine
end

section
/-! SUPPORT. The state family, its pins (R40): whatever the pins showed before, a command's program comes to rest with
the pins as R40 says. -/

namespace Sys2Proof.Machine

open Sys2Proof

/-! ### The pins and the registers (R40) -/

/-- The chain and the pins show the registers. -/
structure Device.PinsShow (d : Device) : Prop where
  c : d.c = { S := ctrlByte d.ctrl d.bank, Q := ctrlByte d.ctrl d.bank }
  a1 : d.a1 = { S := d.addrLo, Q := d.addrLo }
  a2 : d.a2 = { S := d.addrHi, Q := d.addrHi }

/-- The chain and the pins show the registers but for the bank, which may be an earlier one: R40's exception, and how a
command stands after `bank <- b`. -/
def Device.PinsLag (d : Device) : Prop := ∃ old, Device.PinsShow { d with bank := old }

theorem Device.PinsShow.lag {d : Device} (h : d.PinsShow) : d.PinsLag := ⟨d.bank, h⟩

theorem Device.shown_pinsShow (d : Device) : d.shown.PinsShow := ⟨rfl, rfl, rfl⟩

theorem Device.PinsShow.coherent {d : Device} (h : d.PinsShow) : d.Coherent where
  c := by rw [h.c]
  a1 := by rw [h.a1]
  a2 := by rw [h.a2]
  lo := by rw [h.a1]
  hi := by rw [h.a2]
  control := .inl (by rw [h.c])

/-- R40's exception: the bank may lag where the status is PROGRAM_FAILED. -/
theorem Device.PinsLag.coherent {d : Device} (h : d.PinsLag) (hst : d.status = .programFailed) : d.Coherent := by
  obtain ⟨old, h⟩ := h
  exact
    { h.coherent with
      control := .inr ⟨hst, old, by rw [h.c]⟩ }

theorem Device.Coherent.lag {d : Device} (h : d.Coherent) : d.PinsLag := by
  have reg : ∀ {r : ShiftReg} {v : Byte}, r.Q = r.S → r.Q = v → r = { S := v, Q := v } := by
    rintro ⟨S, Q⟩ v h1 h2
    cases h1
    cases h2
    rfl
  have key : ∀ old, d.c.Q = ctrlByte d.ctrl old → d.PinsLag := fun old ho =>
    ⟨old, reg h.c ho, reg h.a1 h.lo, reg h.a2 h.hi⟩
  obtain ho | ⟨_, old, ho⟩ := h.control
  · exact key _ ho
  · exact key _ ho

theorem Device.PinsLag.weShown {d : Device} (h : d.PinsLag) : d.weShown := by
  obtain ⟨old, h⟩ := h
  have hc : d.c.Q = ctrlByte d.ctrl old := by rw [h.c]
  rw [Device.weShown, hc, isAsserted_ctrlByte]

/-- Settles O60: whichever bank the pins show, they show the flags of the control register. -/
theorem invariantShowsWriteEnable : Obligations.InvariantShowsWriteEnable := fun _ hs hd =>
  (hs.pins (.inl hd)).lag.weShown

/-! ### Where a command's statements lead -/

/-- Where a run comes to rest: completed with the pins as R40 says, or terminated with nothing left to run (R135,
R142). -/
def Device.AtRest (d : Device) : Prop :=
  (∃ x : Device, x.Coherent ∧ d = x.complete) ∨ (d.dstate = .terminated ∧ d.pos = [])

/-- The statements `l`, run from a device with `K`, go on with what stands after them from a device with `K'`, or come
to rest before that. -/
def Leads (K : Device → Prop) (l : List Stmt) (K' : Device → Prop) : Prop :=
  ∀ d rest, d.dstate = .executing → K d →
    (∀ d', d'.dstate = .executing → K' d' → (d'.withPos rest).finalRun.1.AtRest) →
    (d.withPos (l ++ rest)).finalRun.1.AtRest

/-- Nothing is known of the device. -/
def anyDevice (_ : Device) : Prop := True

section
variable {K K' K'' : Device → Prop} {l l1 l2 : List Stmt}

theorem Leads.append (h1 : Leads K l1 K') (h2 : Leads K' l2 K'') : Leads K (l1 ++ l2) K'' := by
  intro d rest hd hK hrest
  rw [List.append_assoc]
  exact h1 d _ hd hK fun d' hd' hK' => h2 d' rest hd' hK' hrest

theorem Leads.mono (h : Leads K' l K'') (hK : ∀ d, K d → K' d) : Leads K l K'' := fun d rest hd hd' =>
  h d rest hd (hK d hd')

theorem Leads.straight (hs : l.all Stmt.straight = true) (h : ∀ d, K d → K' (execAll l d).1) : Leads K l K' := by
  intro d rest hd hK hrest
  rw [finalRun_execAll l rest d hd hs]
  exact hrest _ ((execAll_dstate l d hs).trans hd) (h d hK)

theorem Leads.any (hs : l.all Stmt.straight = true) : Leads K l anyDevice := Leads.straight hs fun _ _ => trivial

theorem Leads.flatMap {α : Type} {f : α → List Stmt} (h : ∀ x, Leads K (f x) K) (xs : List α) :
    Leads K (xs.flatMap f) K := by
  induction xs with
  | nil => exact Leads.straight rfl fun _ hK => hK
  | cons x xs ih => exact (h x).append ih

/-- A program that leads to pins as R40 says comes to rest (R135). -/
theorem Leads.atRest (h : Leads K l K') (hc : ∀ d, K' d → d.Coherent) {d : Device} (hd : d.dstate = .executing)
    (hK : K d) : (d.withPos l).finalRun.1.AtRest := by
  have := h d [] hd hK fun d' hd' hK' => by
    rw [finalRun_nil d' hd']
    exact .inl ⟨d', hc d' hK', rfl⟩
  rwa [List.append_nil] at this

end

/-! ### The bus cycles -/

/-- `loadFull()` shows every register, whatever was shown before (R114). -/
theorem loadFull_shows : Leads anyDevice loadFull Device.PinsShow :=
  Leads.straight rfl fun d _ => by
    rw [execAll_loadFull]
    exact Device.shown_pinsShow _

/-- A control shift on a device whose address pins show the address shows every register (R108). -/
theorem Device.PinsLag.shiftControl {d : Device} (h : d.PinsLag) (c : Byte) :
    Device.PinsShow (Device.shiftControl { d with ctrl := c }).1 := by
  obtain ⟨old, h⟩ := h
  have h1 : d.a1 = { S := d.addrLo, Q := d.addrLo } := h.a1
  have h2 : d.a2 = { S := d.addrHi, Q := d.addrHi } := h.a2
  exact ⟨by simp, by simp [h1, ShiftReg.latched], by simp [h2, ShiftReg.latched]⟩

/-- A flag written and shifted out (R11, R108). -/
theorem shiftFlag_shows (f : Flag) (on : Bool) : Leads Device.PinsShow [.setFlag f on, .shiftControl] Device.PinsShow :=
  Leads.straight rfl fun _ h => h.lag.shiftControl _

/-- A write cycle shows every register, whichever statement drives the byte (R115). -/
theorem busWriteVia_shows (a : Half) {st : Stmt} (hs : st.straight = true)
    (hst : ∀ d : Device, d.PinsShow → (st.exec d).1.PinsShow) :
    Leads anyDevice (busWriteVia a st) Device.PinsShow := by
  have hdrive : Leads Device.PinsShow [.setDir .output, st] Device.PinsShow :=
    Leads.straight (by rw [List.all_cons, List.all_cons, hs]; rfl) fun d h => hst _ ⟨h.c, h.a1, h.a2⟩
  have hload : Leads anyDevice (loadAddr a ++ [.setFlag .oe false] ++ loadFull) Device.PinsShow :=
    (Leads.any rfl).append loadFull_shows
  have := ((hload.append hdrive).append (shiftFlag_shows .we true)).append (shiftFlag_shows .we false)
  simpa [busWriteVia] using this

theorem busWrite_shows (a : Half) (v : Byte) : Leads anyDevice (busWrite a v) Device.PinsShow :=
  busWriteVia_shows a rfl fun _ h => ⟨h.c, h.a1, h.a2⟩

theorem busWrite_driveBuf_shows (a : Half) (i : Fin 64) :
    Leads anyDevice (busWriteVia a (.driveBuf i)) Device.PinsShow :=
  busWriteVia_shows a rfl fun d h =>
    ⟨by simp [Stmt.exec, h.c], by simp [Stmt.exec, h.a1], by simp [Stmt.exec, h.a2]⟩

/-- A read cycle shows every register (R116). -/
theorem busRead_shows (p : Params) (a : Half) : Leads anyDevice (busRead p a) Device.PinsShow :=
  Leads.straight rfl fun d _ => by
    rw [execAll_busRead, Device.dataLines_rest]
    exact ⟨rfl, rfl, rfl⟩

/-! ### The programs (R134) -/

/-- A readiness poll that succeeds changes no register and no pin; one that runs out comes to rest (R113, R226). -/
theorem poll_leads {K : Device → Prop} (hlag : ∀ d, K d → d.PinsLag)
    (hK : ∀ d rd dr, K d → K { d with ready := rd, draws := dr }) (n : Nat) : Leads K [.poll n] K := by
  intro d rest hd h hrest
  obtain ⟨rd, dr, ⟨m, _, hrun⟩ | hfail⟩ := poll_cases n d hd
  · rw [hrun.2 rest]
    exact hrest _ hrun.1 (hK d rd dr h)
  · obtain ⟨old, hp⟩ := hlag d h
    have hlag' : Device.PinsLag { d with ready := rd, draws := dr, status := .programFailed } :=
      ⟨old, hp.c, hp.a1, hp.a2⟩
    rw [hfail rest]
    exact .inl ⟨_, hlag'.coherent rfl, rfl⟩

theorem pollFirst_lag (p : Params) (v : Variant) : Leads Device.PinsLag (pollFirst p v) Device.PinsLag := by
  cases v with
  | readyPolled => exact poll_leads (fun _ h => h) (fun _ _ _ ⟨old, h⟩ => ⟨old, h.c, h.a1, h.a2⟩) _
  | fixed => exact Leads.straight rfl fun _ h => h

theorem pollFirst_shows (p : Params) (v : Variant) : Leads Device.PinsShow (pollFirst p v) Device.PinsShow := by
  cases v with
  | readyPolled => exact poll_leads (fun _ h => h.lag) (fun _ _ _ h => ⟨h.c, h.a1, h.a2⟩) _
  | fixed => exact Leads.straight rfl fun _ h => h

/-- A byte's program shows every register, once its first poll has succeeded (R160). -/
theorem programByte_shows (p : Params) (t : Half) (i : Fin 64) (v : Variant) :
    Leads Device.PinsLag (programByte p t i v) Device.PinsShow := by
  have unlock (a : Half) (x : Byte) : Leads Device.PinsLag (pollFirst p v ++ busWrite a x) Device.PinsShow :=
    (pollFirst_lag p v).append ((busWrite_shows a x).mono fun _ _ => trivial)
  have unlocks := ((unlock 0x0AAA#16 0xAA#8).append ((unlock 0x0555#16 0x55#8).mono fun _ h => h.lag)).append
    ((unlock 0x0AAA#16 0xA0#8).mono fun _ h => h.lag)
  have wait : Leads Device.PinsShow (waitAfter p v) Device.PinsShow := by
    cases v <;> exact Leads.straight rfl fun _ h => h
  have := (unlocks.append ((busWrite_driveBuf_shows t i).mono fun _ _ => trivial)).append wait
  simpa [programByte] using this

/-- WRITE's program leads to pins that show every register, or fails before that (R164). -/
theorem progChunk_shows (p : Params) (a : Half) (b : Nibble) (v : Variant) :
    Leads Device.PinsLag (progChunk p a b v) Device.PinsShow := by
  have bank : Leads Device.PinsLag [.loadBank b] Device.PinsLag :=
    Leads.straight rfl fun _ ⟨old, h⟩ => ⟨old, h.c, h.a1, h.a2⟩
  have byte (i : Fin 64) := programByte_shows p (chunkAddr a i.val) i v
  have bytes : Leads Device.PinsLag ((List.finRange 64).flatMap fun i => programByte p (chunkAddr a i.val) i v)
      Device.PinsShow := by
    rw [List.finRange_succ, List.flatMap_cons]
    exact (byte 0).append (Leads.flatMap (fun i => (byte i).mono fun _ h => h.lag) _)
  exact ((bank.append bytes).append (pollFirst_shows p v)).append (Leads.straight rfl fun _ h => ⟨h.c, h.a1, h.a2⟩)

/-- SETUP's common part shows every register (R190, R191). -/
theorem setupCommon_shows (b : Nibble) : Leads anyDevice (setupCommon b) Device.PinsShow :=
  (Leads.any rfl).append (busWrite_shows _ _)

theorem eraseCommand_shows (p : Params) (f : Half) (fd : Byte) :
    Leads anyDevice (eraseCommand p f fd) Device.PinsShow := by
  have hs : (eraseUnlock p.erasePrefix ++ busWrite p.erase80Addr 0x80#8 ++ busWrite 0x0AAA#16 0xAA#8 ++
      busWrite 0x0555#16 0x55#8).all Stmt.straight = true := by cases p.erasePrefix <;> rfl
  exact (Leads.any hs).append (busWrite_shows f fd)

/-- eraseWait's check completes the command, or changes nothing (R167). -/
theorem eraseCheck_shows : Leads Device.PinsShow [.eraseCheck] Device.PinsShow := by
  intro d rest hd h hrest
  rw [List.singleton_append, finalRun_eraseCheck rest d hd]
  split
  · have hshow : Device.PinsShow { d with status := .initialised } := ⟨h.c, h.a1, h.a2⟩
    exact .inl ⟨_, hshow.coherent, rfl⟩
  · exact hrest d hd h

theorem fail_shows (st : Status) : Leads Device.PinsShow [.fail st] Device.PinsShow := by
  intro d rest hd h _
  have hshow : (d.failWith st).PinsShow := ⟨h.c, h.a1, h.a2⟩
  rw [List.singleton_append, finalRun_fail st rest d hd]
  exact .inl ⟨_, hshow.coherent, rfl⟩

theorem erasePolls_shows (p : Params) (a : Half) (k : Nat) :
    Leads Device.PinsShow (erasePolls p a k) Device.PinsShow := by
  induction k with
  | zero => exact Leads.straight rfl fun _ h => h
  | succ k ih =>
    have poll : Leads Device.PinsShow (erasePoll p a) Device.PinsShow :=
      ((Leads.any rfl).append (busRead_shows p a)).append eraseCheck_shows
    exact poll.append ih

/-- An erase leads to pins that show every register, whichever way its polls end (R166, R167). -/
theorem erase_shows (p : Params) (b : Nibble) (a f : Half) (fd : Byte) :
    Leads anyDevice (setupCommon b ++ eraseCommand p f fd ++ eraseWait p a) Device.PinsShow :=
  ((setupCommon_shows b).append ((eraseCommand_shows p f fd).mono fun _ _ => trivial)).append
    ((erasePolls_shows p a _).append (fail_shows _))

/-- An identification or protection read, after its command sequence (R195 to R197). -/
theorem idRead_shows (p : Params) {l : List Stmt} (hs : l.all Stmt.straight = true) (a : Half) :
    Leads anyDevice (l ++ busRead p a ++ [.storeData]) Device.PinsShow :=
  ((Leads.any hs).append (busRead_shows p a)).append (Leads.straight rfl fun _ h => ⟨h.c, h.a1, h.a2⟩)

/-- A program that shows every register, whatever was shown before, comes to rest. -/
theorem Leads.atRest_of_shows {l : List Stmt} (h : Leads anyDevice l Device.PinsShow) {d : Device}
    (hd : d.dstate = .executing) : (d.withPos l).finalRun.1.AtRest :=
  h.atRest (fun _ hK => hK.coherent) hd trivial

/-- Every program comes to rest with the pins as R40 says. The bank on the pins may lag where the start step has written
over the status that says so, which it does for the requests that write the status alone. -/
theorem program_atRest (p : Params) (i : Instr) {d : Device} (hd : d.dstate = .executing) (hlag : d.PinsLag)
    (hc : requestWrites i ≠ some .status → d.Coherent) : (d.withPos (program p i)).finalRun.1.AtRest := by
  cases i with
  | getData | readFetch =>
    exact Leads.atRest (l := []) (Leads.straight rfl fun _ h => h) (fun _ h => h) hd (hc (by simp [requestWrites]))
  | setControl c x0 x1 =>
    have : Leads Device.PinsLag (progSetControl c) Device.PinsShow := Leads.straight rfl fun _ h => h.shiftControl c
    exact this.atRest (fun _ h => h.coherent) hd hlag
  | setAddress a b xh xl =>
    exact Leads.atRest_of_shows (l := progSetAddress a b) ((Leads.any rfl).append loadFull_shows) hd
  | setData v x0 x1 =>
    have : Leads Device.Coherent (progSetData v) Device.Coherent := Leads.straight rfl fun _ h => { h with }
    exact this.atRest (fun _ h => h) hd (hc (by simp [requestWrites]))
  | write a b xl => exact (progChunk_shows p a b _).atRest (fun _ h => h.coherent) hd hlag
  | writeFixed a sl b xl => exact (progChunk_shows p a b _).atRest (fun _ h => h.coherent) hd hlag
  | readArm a b xh xm =>
    obtain ⟨bytes, fl, dr, es, hr, _⟩ := Runs.readArm p d a (rsBank p b xm) hd
    rw [program, hr.finalRun]
    exact .inl ⟨_, (Device.shown_pinsShow _).coherent, rfl⟩
  | setupProbeReady a b xm =>
    have hready : Leads Device.PinsShow [.sampleReady, .storeReady] Device.PinsShow := Leads.straight rfl fun x h => by
      simp only [execAll_cons, execAll_nil, Stmt.exec]
      rw [Device.readyLine_rest]
      exact ⟨h.c, h.a1, h.a2⟩
    exact Leads.atRest_of_shows (l := progProbeReady _) ((setupCommon_shows _).append hready) hd
  | setupBeginRead a b xm =>
    exact Leads.atRest_of_shows (l := progBeginRead a _) ((Leads.any rfl).append loadFull_shows) hd
  | setupBeginWrite a b xm =>
    have hdir : Leads Device.PinsShow [.setDir .output] Device.PinsShow :=
      Leads.straight rfl fun _ h => ⟨h.c, h.a1, h.a2⟩
    exact Leads.atRest_of_shows (l := progBeginWrite a _)
      (((Leads.any rfl).append loadFull_shows).append (hdir.append (shiftFlag_shows .we true))) hd
  | setupIdManuf a b xm => exact Leads.atRest_of_shows (l := progIdManuf p _) (idRead_shows p rfl _) hd
  | setupIdDevice a b xm => exact Leads.atRest_of_shows (l := progIdDevice p _) (idRead_shows p rfl _) hd
  | setupVerifyProt a b xm => exact Leads.atRest_of_shows (l := progVerifyProt p a _) (idRead_shows p rfl _) hd
  | setupEraseChip a b xm => exact Leads.atRest_of_shows (erase_shows p _ a _ _) hd
  | setupEraseSector a b xm => exact Leads.atRest_of_shows (erase_shows p _ a _ _) hd
  | bootloader x0 x1 =>
    rw [program, progBootloader, finalRun_terminate d hd]
    exact .inr ⟨rfl, rfl⟩

end Sys2Proof.Machine
end

section
/-! SUPPORT. The state family, its invariant: it holds at reset and every step keeps it (R39, R40, R131, R135). -/

namespace Sys2Proof.Machine

open Sys2Proof

/-! ### Reset (R39) -/

/-- Settles O53: the power-on record, each flag of 0x03 deasserted and its unnamed bits 0. -/
theorem resetState : Obligations.ResetState := by
  have hflags : ∀ f, isAsserted f (0x03#8) = false := fun f => by cases f <;> decide
  have hbits : ∀ n, 4 ≤ n → (0x03#8).getLsbD n = false := fun n hn => by
    by_cases h : n < 8
    · interval_cases n <;> rfl
    · exact BitVec.getLsbD_of_ge _ n (by omega)
  have hbuf : ∀ n : Fin 64, State.reset.buf.get n = .unwritten := fun n => Vector.getElem_replicate n.isLt
  exact ⟨rfl, rfl, rfl, hflags, hbits, rfl, rfl, rfl, hbuf, rfl, rfl, rfl, rfl, rfl, rfl⟩

/-- Settles O58: at power-on DSP stands before its first IDLE, so only the clause about that says anything. -/
theorem invariantAtReset : Obligations.InvariantAtReset where
  memory := rfl
  between := by simp [State.reset]
  begin := fun _ => ⟨rfl, rfl, rfl, rfl, rfl, rfl, rfl⟩
  position := fun h => absurd rfl h
  idle := fun h => by cases h
  pending := fun h => by cases h
  pins := fun h => by obtain h | h := h <;> cases h

/-! ### The fixture's array over a run (R70) -/

theorem Device.latch_memWf {d : Device} (h : memWf d.fmem = true) : memWf d.latch.1.fmem = true := by
  unfold Device.latch
  split
  · simpa using memWf_fixtureEffect _ _ _ _ h
  · simpa using h

/-- A statement keeps the fixture's array canonical: only a latch has the fixture act (R71, R72). -/
theorem Stmt.exec_memWf (st : Stmt) {d : Device} (h : memWf d.fmem = true) : memWf (st.exec d).1.fmem = true := by
  cases st with
  | shiftControl => exact d.controlShifted.latch_memWf h
  | shiftFullAddress => exact d.fullShifted.latch_memWf h
  | shiftLowAddress => exact d.lowShifted.latch_memWf h
  | loadLowShift =>
    simp only [Stmt.exec]
    split
    · exact h
    · exact d.controlShifted.latch_memWf h
  | loadLowAssert => simp only [Stmt.exec]; split <;> exact h
  | eraseCheck => simp only [Stmt.exec]; split <;> exact h
  | poll k =>
    cases k with
    | zero => exact h
    | succ k => simp only [Stmt.exec, Device.pollSample]; split <;> simpa using h
  | _ => simpa [Stmt.exec] using h

theorem Device.finalRun_memWf {d : Device} (h : memWf d.fmem = true) : memWf d.finalRun.1.fmem = true := by
  have kept : Kept (fun _ => True) (fun x => memWf x.fmem = true) :=
    { withPos := fun _ _ hx => hx
      complete := fun _ hx => hx
      poll := fun _ _ => trivial
      exec := fun st _ _ hx => st.exec_memWf hx }
  exact kept.finalRun h fun _ _ => trivial

theorem Device.finalRun_dataPending (d : Device) : d.finalRun.1.dataPending = d.dataPending := by
  have kept : Kept (fun _ => True) (fun x => x.dataPending = d.dataPending) :=
    { withPos := fun _ _ hx => hx
      complete := fun _ hx => hx
      poll := fun _ _ => trivial
      exec := fun st x _ hx => (st.exec_mailbox x).2.1.trans hx }
  exact kept.finalRun rfl fun _ _ => trivial

/-! ### The invariant over a run -/

/-- The invariant speaks of the device alone. -/
theorem State.Inv.of_toDevice {s t : State} (h : s.Inv) (e : t.toDevice = s.toDevice) : t.Inv where
  memory := e ▸ h.memory
  between := e ▸ h.between
  begin := e ▸ h.begin
  position := e ▸ h.position
  idle := e ▸ h.idle
  pending := e ▸ h.pending
  pins := e ▸ h.pins

/-- A machine whose device has come to rest meets the invariant. -/
theorem State.Inv.of_atRest {s : State} (hm : memWf s.fmem = true) (hp : s.dataPending = 0)
    (hr : s.toDevice.AtRest) : s.Inv := by
  obtain ⟨x, hx, e⟩ | ⟨hd, hpos⟩ := hr
  · have hds : s.dstate = .idle := by rw [e]; rfl
    have hcmd : s.cmd = none := by rw [e]; rfl
    have hpos : s.pos = [] := by rw [e]; rfl
    exact
      { memory := hm
        between := by simp [hds]
        begin := by simp [hds]
        position := fun _ => hpos
        idle := fun _ => ⟨hcmd, hp⟩
        pending := by simp [hds]
        pins := fun _ => by rw [e]; exact { hx with } }
  · exact
      { memory := hm
        between := by simp [hd]
        begin := by simp [hd]
        position := fun _ => hpos
        idle := by simp [hd]
        pending := by simp [hd]
        pins := by simp [hd] }

/-- A run that comes to rest ends in the invariant, whatever RX does in between. -/
theorem State.runCommand_inv {s : State} (hm : memWf s.fmem = true) (hp : s.dataPending = 0)
    (hr : s.toDevice.finalRun.1.AtRest) : s.runCommand.Inv := by
  have e := (s.runCommand_device hp).1
  refine State.Inv.of_atRest ?_ ?_ ?_ <;> rw [e]
  · exact Device.finalRun_memWf hm
  · exact s.toDevice.finalRun_dataPending.trans hp
  · exact hr

/-! ### The initialisation (R262) -/

/-- Straight statements before others run in the initialisation as in a command. -/
theorem Device.finalRun_straight_before {l rest : List Stmt} (hs : l.all Stmt.straight = true) (hr : rest ≠ [])
    {d : Device} (hd : d.running = true) :
    (d.withPos (l ++ rest)).finalRun.1 = ((execAll l d).1.withPos rest).finalRun.1 := by
  induction l generalizing d with
  | nil => rfl
  | cons st t ih =>
    obtain ⟨hst, ht⟩ : st.straight = true ∧ t.all Stmt.straight = true := by simpa using hs
    have hstep : (d.withPos (st :: (t ++ rest))).statement.1 = (st.exec d).1.withPos (t ++ rest) := by
      rw [Device.statement_straight rfl hst (by simp [hr]), Stmt.exec_withPos st d _ hst]
      rfl
    have hrun : (st.exec d).1.running = true := by
      rw [Device.running, Stmt.exec_straight_dstate st d hst]
      exact hd
    rw [List.cons_append, Device.finalRun_step (d.withPos (st :: (t ++ rest))) hd, hstep]
    exact ih ht hrun

/-- The initialisation comes to rest: its shifts show every register, its last statement enters IDLE. -/
theorem Device.initialisation_atRest {d : Device} (hd : d.dstate = .initialising) (hp : d.pos = initProgram)
    (hals : isAsserted .als d.ctrl = false) : d.finalRun.1.AtRest := by
  have hrun : d.running = true := (Device.running_iff d).2 (.inl hd)
  have hself : d.withPos (initShifts ++ [.enterIdle]) = d := by
    rw [show initShifts ++ [.enterIdle] = d.pos from hp.symm]
    exact d.withPos_self
  have hshift := Device.finalRun_straight_before (l := initShifts) (rest := [.enterIdle]) rfl (by simp) hrun
  rw [hself, execAll_initShifts d _ rfl hals] at hshift
  rw [hshift]
  generalize hx : Device.shown _ = x
  have hshow : x.PinsShow := by rw [← hx]; exact Device.shown_pinsShow _
  have hxrun : (x.withPos [.enterIdle]).running = true := by rw [← hx]; exact hrun
  have hlast : (x.withPos [.enterIdle]).statement.1 = x.complete := rfl
  rw [Device.finalRun_step _ hxrun, hlast, Device.finalRun_done _ rfl]
  exact .inl ⟨x, hshow.coherent, rfl⟩

/-! ### The mailbox (R131 to R133) -/

/-- A command in the mailbox is what DSP decodes. -/
theorem Device.mail_ofHeader {d : Device} {i : Instr} (hc : d.cmd = some (Command.ofHeader (encode i)))
    (hdec : decode (encode i) = .ok i) : d.mail = some i := by
  simp [Device.mail, hc, Command.header_ofHeader, hdec]

/-- The machine waits for its next input or its start: what holds between RX's steps outside a run. -/
structure State.Waits (s : State) : Prop where
  inv : s.Inv
  resting : s.dstate = .idle ∨ s.dstate = .commandReceived

theorem State.Waits.of_toDevice {s t : State} (h : s.Waits) (e : t.toDevice = s.toDevice) : t.Waits where
  inv := h.inv.of_toDevice e
  resting := e ▸ h.resting

/-- Acceptance fills the mailbox with a command (R131). -/
theorem State.Waits.accept {s : State} (h : s.Waits) (hp : s.dataPending = 0) {i : Instr} (hq : i.isQuery = false)
    (hdec : decode (encode i) = .ok i) : (s.accept i).Waits where
  inv :=
    { memory := h.inv.memory
      between := by simp
      begin := by simp
      position := fun _ => h.inv.position (by obtain e | e := h.resting <;> simp [e])
      idle := by simp
      pending := fun _ => ⟨i, Device.mail_ofHeader rfl hdec, hq, fun hne => by
        by_contra hw
        exact hne (by simp [hw, hp])⟩
      pins := fun _ => { h.inv.pins h.resting with } }
  resting := .inr rfl

/-- RX on a command outside a run accepts it or drops it (R131, R132). -/
theorem State.Waits.rxCommand {s : State} (h : s.Waits) (hp : s.dataPending = 0) {i : Instr} (hq : i.isQuery = false)
    (hdec : decode (encode i) = .ok i) : (s.rxCommand i).Waits := by
  have hacc := h.accept hp hq hdec
  obtain hd | hd := h.resting
  · simpa [State.rxCommand, hd] using hacc
  · simp only [State.rxCommand, hd, State.raceCommand]
    split
    · exact hacc.of_toDevice rfl
    · exact h.of_toDevice rfl

theorem State.Waits.rxHeader {s : State} (h : s.Waits) (hp : s.dataPending = 0) (hh : Header) :
    (s.rxHeader hh).Waits := by
  unfold State.rxHeader
  cases hdec : decode hh with
  | unsupported => exact h.of_toDevice rfl
  | refused r => exact h.of_toDevice rfl
  | ok i =>
    by_cases hq : i.isQuery = true
    · exact h.of_toDevice (State.rxInstr_query hq s)
    · rw [Bool.not_eq_true] at hq
      simp only [State.rxInstr_command hq]
      exact h.rxCommand hp hq (decode_encode_of_decode hdec)

/-- What the buffer holds and how much of a data phase is still owed concern a pending WRITE alone. -/
theorem State.Waits.withData {s : State} (h : s.Waits) (bf : Vector Slot 64) {dp : Fin 65}
    (hdp : dp ≠ 0 → s.dataPending ≠ 0) : State.Waits { s with buf := bf, dataPending := dp } where
  inv :=
    { memory := h.inv.memory
      between := h.inv.between
      begin := fun hd => by obtain e | e := h.resting <;> rw [e] at hd <;> cases hd
      position := h.inv.position
      idle := fun hd => ⟨(h.inv.idle hd).1, by_contra fun hne => hdp hne (h.inv.idle hd).2⟩
      pending := fun hd => by
        obtain ⟨i, hmail, hq, hw⟩ := h.inv.pending hd
        exact ⟨i, hmail, hq, fun hne => hw (hdp hne)⟩
      pins := fun hd => { h.inv.pins hd with } }
  resting := h.resting

/-- RX on a data segment outside a run (R133). -/
theorem State.Waits.rxData {s : State} (h : s.Waits) (seg : List Byte) : (s.rxData seg).Waits := by
  have howed : (s.toDevice.dataSegment seg).dataPending ≠ 0 → s.dataPending ≠ 0 := by
    intro hne h0
    rw [Device.dataSegment_none _ seg h0] at hne
    exact hne h0
  exact (h.withData (s.toDevice.dataSegment seg).buf howed).of_toDevice (s.toDevice.dataSegment_rest seg)

/-- An RX step outside a run, where the input has a move (R130). -/
theorem State.Waits.rxStep {s : State} (h : s.Waits) (hm : s.InputMoves) : s.rxStep.Waits := by
  cases hl : s.link with
  | nil => exact h.of_toDevice (by simp [State.rxStep, hl])
  | cons a rest =>
    have hrest : State.Waits { s with link := rest } := h.of_toDevice rfl
    rw [State.rxStep_cons hl]
    cases hi : a.input with
    | data seg => exact hrest.rxData seg
    | header hh => exact hrest.rxHeader (hm a rest hh hl hi) hh

/-- Where RX moves before a pending command's start, the input has a move. -/
theorem State.inputMoves_of_rxMoves {s : State} (hm : s.rxMoves = true) (hd : s.dstate = .commandReceived) :
    s.InputMoves := by
  intro a rest hh hl hi
  by_contra hp
  simp [State.rxMoves, hl, hd, hp, hi] at hm

theorem State.Waits.takeInputs (n : Nat) {s : State} (h : s.Waits) : (State.takeInputs n s).Waits := by
  induction n generalizing s with
  | zero => exact h
  | succ n ih =>
    unfold State.takeInputs
    split
    · rename_i hm
      obtain ⟨hm, hd⟩ : s.rxMoves = true ∧ s.dstate = .commandReceived := by simpa using hm
      exact ih (h.rxStep (State.inputMoves_of_rxMoves hm hd))
    · exact h

/-! ### From the start step to the end (R134, R135) -/

/-- A pending command's program comes to rest from the start step on. -/
theorem State.Waits.start_atRest {s : State} (h : s.Waits) (hd : s.dstate = .commandReceived) :
    s.toDevice.start.finalRun.1.AtRest := by
  obtain ⟨i, hmail, _⟩ := h.inv.pending hd
  have hstart : s.toDevice.start = s.toDevice.startWith i := by simp [Device.start, hmail]
  have hpins := h.inv.pins h.resting
  obtain ⟨old, hlag⟩ := hpins.lag
  have hcoh : requestWrites i ≠ some .status → (s.toDevice.startWith i).Coherent := fun hw => by
    have hst : startStatus s.status i = s.status := startStatus_eq hw s.status
    exact { hpins with control := by simpa [hst] using hpins.control }
  rw [hstart]
  exact program_atRest s.params i (d := s.toDevice.startWith i) rfl ⟨old, hlag.c, hlag.a1, hlag.a2⟩ hcoh

/-- From a waiting machine the agents move to a state between steps. -/
theorem State.Waits.settle {s : State} (h : s.Waits) : s.settle.Inv := by
  have hw := h.takeInputs s.link.length
  unfold State.settle
  generalize State.takeInputs s.link.length s = u at hw
  dsimp only
  split
  · rename_i hst
    obtain ⟨hd, hp⟩ : u.dstate = .commandReceived ∧ u.dataPending = 0 := by simpa [Device.startable] using hst
    have hstep : u.dspMove.toDevice = u.toDevice.start := by
      simp [Device.dspStep, Device.running, Device.startable, hd, hp]
    have hfr : u.toDevice.start.fmem = u.fmem ∧ u.toDevice.start.dataPending = u.dataPending := by
      unfold Device.start; split <;> exact ⟨rfl, rfl⟩
    refine State.runCommand_inv ?_ ?_ ?_ <;> rw [hstep]
    · rw [hfr.1]; exact hw.inv.memory
    · rw [hfr.2, hp]
    · exact hw.start_atRest hd
  · exact hw.inv

/-- Settles O59: the initialisation and every program come to rest with the pins as R40 says, and RX's steps keep what
a waiting machine holds. -/
theorem stepKeepsInvariant : Obligations.StepKeepsInvariant := by
  intro s t hs h
  obtain ⟨hd, rfl⟩ | ⟨hd, rfl⟩ | ⟨hd, hm, ht⟩ := step_next h
  · obtain hd | hd := hd
    · obtain ⟨hpos, _, hp, _, _, _, hctrl⟩ := hs.begin hd
      have hals : isAsserted .als s.ctrl = false := by rw [hctrl]; decide
      exact State.runCommand_inv hs.memory hp (Device.initialisation_atRest hd hpos hals)
    · exact absurd hd hs.between
  · exact State.Waits.settle ⟨hs, .inr hd⟩
  · have hrx : s.rxStep.Waits := State.Waits.rxStep ⟨hs, hd⟩ hm
    obtain rfl | ⟨_, rfl⟩ := ht
    · exact hrx.inv
    · exact hrx.settle

end Sys2Proof.Machine
end

section
/-! SUPPORT. The memory family, the fixture's command sequences: the sector of an address, and what the write events of
the preamble, the identification entry, an erase command and a programmed byte make of the fixture (R70 to R73). -/

namespace Sys2Proof.Machine

open Sys2Proof

/-! ### Addresses (R50, R51) -/

theorem addr20_toNat (b : Nibble) (a : Half) : (addr20 b a).toNat = b.toNat * 0x10000 + a.toNat := by
  rw [addr20, BitVec.toNat_append, ← Nat.shiftLeft_add_eq_or_of_lt a.isLt, Nat.shiftLeft_eq]

/-- A command cycle is matched on the main address, in every bank (R71). -/
@[simp] theorem eventA16_addr20 (b : Nibble) (a : Half) : eventA16 (addr20 b a) = a :=
  BitVec.extractLsb'_append_eq_right

/-- A bank is a sector of the fixture (R70). -/
theorem addr20_sector (b : Nibble) (a : Half) : (addr20 b a).toNat / fixtureSector = b.toNat := by
  have ha := a.isLt
  rw [addr20_toNat, fixtureSector]
  omega

theorem addr20_offset (b : Nibble) (a : Half) : (addr20 b a).toNat % fixtureSector = a.toNat := by
  have ha := a.isLt
  rw [addr20_toNat, fixtureSector]
  omega

/-! ### One write event (R72) -/

/-- 0xF0 brings the fixture to READ from every state. -/
@[simp] theorem fixtureNext_reset (f : FState) (a : Addr20) : fixtureNext f a 0xF0#8 = .read := by
  simp [fixtureNext]

/-- An erase command's last write ends it, whatever it is. -/
@[simp] theorem fixtureNext_e3 (a : Addr20) (v : Byte) : fixtureNext .e3 a v = .read := by
  simp [fixtureNext]

/-- 0xF0 changes no byte, unless it comes as the byte to program. -/
theorem fixtureEffect_reset {f : FState} (hf : f ≠ .p3) (m : List Host.Cell) (a : Addr20) :
    fixtureEffect f m a 0xF0#8 = m := by
  simp [fixtureEffect, hf]

theorem memRead_reset_other (f : FState) (m : List Host.Cell) {a : Addr20} {x : Nat} (hx : x ≠ a.toNat) :
    memRead (fixtureEffect f m a 0xF0#8) x = memRead m x := by
  by_cases hf : f = .p3
  · subst hf
    exact memRead_memWrite_other _ _ _ _ hx
  · rw [fixtureEffect_reset hf]

/-- The write that erases the whole array. -/
theorem fixtureEffect_eraseChip (m : List Host.Cell) (b : Nibble) :
    fixtureEffect .e3 m (addr20 b 0x0AAA#16) 0x10#8 = [] := by
  simp [fixtureEffect]

/-- The write that erases a sector. -/
theorem fixtureEffect_eraseSector (m : List Host.Cell) (a : Addr20) :
    fixtureEffect .e3 m a 0x30#8 = memEraseSector m a.toNat := by
  simp [fixtureEffect]

/-! ### The command sequences (R160, R166, R168, R191) -/

theorem fixtureWrites_preamble (b : Nibble) (f : FState) (m : List Host.Cell) :
    fixtureWrites (preambleWrites b) (f, m) = (.read, fixtureEffect f m (addr20 b 0x000F#16) 0xF0#8) := by
  simp [preambleWrites, fixtureWrites]

theorem fixtureWrites_idWrites (b : Nibble) (m : List Host.Cell) :
    fixtureWrites (idWrites b) (.read, m) = (.idMode, m) := by
  simp [idWrites, fixtureWrites, fixtureNext, fixtureEffect]

/-- An erase command reaches its last write from READ, whichever ERASE_PREFIX is, where the 0x80 write is at
0x0AAA. -/
theorem fixtureWrites_eraseWrites {p : Params} (h : p.erase80Addr = 0x0AAA#16) (b : Nibble) (f : Half) (fd : Byte)
    (m : List Host.Cell) :
    fixtureWrites (eraseWrites p b f fd) (.read, m) = (.read, fixtureEffect .e3 m (addr20 b f) fd) := by
  have hlast : ∀ ws, fixtureWrites ws (.read, m) = (.e3, m) →
      fixtureWrites (ws ++ [(addr20 b f, fd)]) (.read, m) = (.read, fixtureEffect .e3 m (addr20 b f) fd) := by
    intro ws hws
    rw [fixtureWrites_append, hws, fixtureWrites, fixtureNext_e3, fixtureWrites]
  unfold eraseWrites
  rw [h]
  cases p.erasePrefix with
  | doc4 =>
    exact hlast [(addr20 b 0x0AAA#16, 0x80#8), (addr20 b 0x0AAA#16, 0xAA#8), (addr20 b 0x0555#16, 0x55#8)]
      (by simp [fixtureWrites, fixtureNext, fixtureEffect])
  | jedec6 =>
    exact hlast [(addr20 b 0x0AAA#16, 0xAA#8), (addr20 b 0x0555#16, 0x55#8), (addr20 b 0x0AAA#16, 0x80#8),
      (addr20 b 0x0AAA#16, 0xAA#8), (addr20 b 0x0555#16, 0x55#8)] (by simp [fixtureWrites, fixtureNext, fixtureEffect])

/-- From READ, one programmed byte leaves the AND of what stood there and the byte sent (R160, R72). -/
theorem fixtureWrites_programWrites (b : Nibble) (t : Half) (v : Byte) (m : List Host.Cell) :
    fixtureWrites (programWrites b t v) (.read, m) = (.read, fixtureEffect .p3 m (addr20 b t) v) := by
  simp [programWrites, fixtureWrites, fixtureNext, fixtureEffect]

end Sys2Proof.Machine
end

section
/-! SUPPORT. The memory family, reads and erases: READ_ARM, the identification modes and the two erase modes with the
fixture answering (R72, R73, R165 to R168, R195 to R199). -/

namespace Sys2Proof.Machine

open Sys2Proof

/-- A command other than WRITE that a ready controller takes ends as DSP leaves the device its program started from. -/
theorem State.Ready.exec {s : State} (hs : s.Ready) {i : Instr} (hq : i.isQuery = false) (hw : i.isWrite = false)
    (hdec : decode (encode i) = .ok i) :
    ∃ t, Machine.exec i s = .next t ∧ t.toDevice = ((s.launching i).withPos (program s.params i)).finalRun.1 := by
  refine ⟨s.command i, ?_, (s.command_ready i hs hdec hw).1⟩
  rw [exec_command hq, hs.onHeader]

/-- Settles O25: the 64 bytes READ_ARM samples are the fixture's answers, which its state decides. -/
theorem readArmFromFixture : Obligations.ReadArmFromFixture := by
  intro s a n xh xm hs _ hf
  obtain ⟨bytes, fl, dr, es, hrun, _, hbytes⟩ :=
    Runs.readArm s.params (s.launching (.readArm a n xh xm)) a (rsBank s.params n xm) rfl
  obtain ⟨t, ht, hdev, _⟩ := Runs.command (i := .readArm a n xh xm) hs (decode_encode rfl) rfl hrun
  refine ⟨t, ht, fun k => ?_⟩
  have hbuf : t.buf = bytes.map .byte := by rw [hdev]; rfl
  have hget : t.buf.get k = .byte (bytes.get k) := by rw [hbuf]; exact Vector.getElem_map ..
  rw [hget, (hbytes hf).2 k]
  rfl

/-! ### Write cycles and the fixture -/

/-- The fixture sees write cycles in order (R71). -/
theorem Device.writtenAll_fixture (ws : List (Half × Byte)) : ∀ d : Device,
    (d.writtenAll ws).fstate = d.fstateAfter (ws.map fun w => (addr20 d.bank w.1, w.2)) ∧
      (d.writtenAll ws).fmem = d.fmemAfter (ws.map fun w => (addr20 d.bank w.1, w.2)) := by
  induction ws with
  | nil => exact fun d => ⟨rfl, rfl⟩
  | cons w ws ih => exact fun d => ih (d.written w.1 w.2)

/-- Who answers samples stays as it was over write cycles. -/
theorem Device.writtenAll_sources (ws : List (Half × Byte)) : ∀ d : Device,
    (d.writtenAll ws).flash = d.flash ∧ (d.writtenAll ws).ready = d.ready := by
  induction ws with
  | nil => exact fun d => ⟨rfl, rfl⟩
  | cons w ws ih => exact fun d => ih (d.written w.1 w.2)

/-- A write cycle ends with write-enable deasserted on the pins (R115). -/
theorem Device.writtenAll_pinOn_we {ws : List (Half × Byte)} (h : ws ≠ []) : ∀ d : Device,
    (d.writtenAll ws).pinOn .we = false := by
  induction ws with
  | nil => exact absurd rfl h
  | cons w ws ih =>
    intro d
    by_cases hws : ws = []
    · subst hws
      exact d.written_pinOn_we w.1 w.2
    · exact ih hws (d.written w.1 w.2)

/-- A SETUP mode's write cycles, bank first, leave the fixture what their write events make of it (R71, R190). -/
theorem Runs.loadBank_writes_fixture {d : Device} (b : Nibble) {ws : List (Half × Byte)} (hne : ws ≠ [])
    (h : d.dstate = .executing) (hw : d.weShown) :
    ∃ d' es, Runs ([.loadBank b] ++ Machine.busWrites ws) d d' es ∧ d'.bank = b ∧ d'.flash = d.flash ∧
      d'.pinOn .we = false ∧ d'.fstate = d.fstateAfter (ws.map fun w => (addr20 b w.1, w.2)) ∧
      d'.fmem = d.fmemAfter (ws.map fun w => (addr20 b w.1, w.2)) := by
  obtain ⟨es, hr, _⟩ := Runs.loadBank_writes b ws h hw
  obtain ⟨hstate, hmem⟩ := Device.writtenAll_fixture ws { d with bank := b }
  obtain ⟨hflash, _⟩ := Device.writtenAll_sources ws { d with bank := b }
  obtain ⟨_, hbank, _⟩ := Device.writtenAll_frame ws { d with bank := b }
  exact ⟨_, es, hr, hbank, hflash, Device.writtenAll_pinOn_we hne _, hstate, hmem⟩

/-- A read cycle with write-enable deasserted on the pins leaves the fixture as it is, and reads its answer. -/
theorem Runs.busRead_fixture {d : Device} (p : Params) (a : Half) (h : d.dstate = .executing) (hf : d.flash = .fixture)
    (hw : d.pinOn .we = false) :
    ∃ d' es, Runs (Machine.busRead p a) d d' es ∧ d'.fstate = d.fstate ∧ d'.fmem = d.fmem ∧
      d'.localV = fixtureAnswer d.fstate d.fmem (addr20 d.bank a) := by
  obtain ⟨es, hr, _⟩ := Runs.busRead p a h
  rw [d.reading_fixture a hf] at hr
  have hst : d.strayWrites = [] := d.strayWrites_of hw
  have hstate : (d.reading a).fstate = d.fstate := congrArg d.fstateAfter hst
  have hmem : (d.reading a).fmem = d.fmem := congrArg d.fmemAfter hst
  rw [hstate, hmem] at hr
  exact ⟨_, es, hr, hstate, hmem, rfl⟩

/-! ### Identification (R168, R195, R196) -/

/-- An identification request is a command whose program reads offset 0 or 2 after the preamble and the entry. -/
theorem AsksId.program {p : Params} {i : Instr} {b : Nibble} {off : Half} (h : AsksId p i b off) :
    i.isQuery = false ∧ i.isWrite = false ∧ decode (encode i) = .ok i ∧ (off = 0x0000#16 ∨ off = 0x0002#16) ∧
      Machine.program p i = [.loadBank b] ++ busWrites idCycles ++ busRead p off ++ [.storeData] := by
  obtain ⟨a, n, xm, rfl, ⟨rfl, rfl⟩ | ⟨rfl, rfl⟩⟩ := h
  · exact ⟨rfl, rfl, decode_encode rfl, .inl rfl, rfl⟩
  · exact ⟨rfl, rfl, decode_encode rfl, .inr rfl, rfl⟩

theorem idCycles_writes (b : Nibble) :
    (idCycles.map fun w => (addr20 b w.1, w.2)) = preambleWrites b ++ idWrites b := rfl

/-- The preamble and the entry bring the fixture to ID mode from every state (R191, R168). -/
theorem fixtureWrites_identify (b : Nibble) (f : FState) (m : List Host.Cell) :
    fixtureWrites (preambleWrites b ++ idWrites b) (f, m) =
      (.idMode, fixtureEffect f m (addr20 b 0x000F#16) 0xF0#8) := by
  rw [fixtureWrites_append, fixtureWrites_preamble, fixtureWrites_idWrites]

/-- What the fixture answers in ID mode at offsets 0 and 2 of any sector (R73). -/
theorem fixtureId_addr20 (b : Nibble) {off : Half} (h : off = 0x0000#16 ∨ off = 0x0002#16) :
    fixtureId (addr20 b off) = if off = 0x0000#16 then fixtureMfrId else fixtureDevId := by
  rw [fixtureId, addr20_offset]
  obtain rfl | rfl := h <;> rfl

/-- Settles O31: the write cycles bring the fixture to ID mode, where the read gives the constant of its offset. -/
theorem identifyFixture : Obligations.IdentifyFixture := by
  intro s i b off hi hs hw hf
  obtain ⟨hq, hnw, hdec, hoff, hprog⟩ := hi.program
  obtain ⟨x, es, hwrites, hbank, hflash, hwe, hstate, hmem⟩ :=
    Runs.loadBank_writes_fixture (d := s.launching i) b (ws := idCycles) (by decide) rfl hw
  rw [idCycles_writes] at hstate hmem
  obtain ⟨y, es', hread, hstate', hmem', hv⟩ :=
    Runs.busRead_fixture s.params off hwrites.1 (hflash.trans hf) hwe
  have hstore : Runs [.storeData] y { y with data := .byte y.localV } [] := Runs.of_execAll hread.1 rfl rfl
  have hrun := ((hwrites.append hread).append hstore).finalRun
  have hseq := fixtureWrites_identify b s.fstate s.fmem
  have hid : x.fstate = .idMode := hstate.trans (congrArg Prod.fst hseq)
  have hkept : x.fmem = fixtureEffect s.fstate s.fmem (addr20 b 0x000F#16) 0xF0#8 := hmem.trans (congrArg Prod.snd hseq)
  obtain ⟨t, ht, hdev⟩ := hs.exec hq hnw hdec
  rw [hprog, hrun] at hdev
  refine ⟨t, ht, ?_, ?_, fun hp => ?_⟩
  · rw [hdev]
    exact hstate'.trans hid
  · have hdata : t.data = .byte y.localV := by rw [hdev]; rfl
    rw [hdata, hv, hid, hbank, fixtureAnswer, if_pos rfl, fixtureId_addr20 b hoff]
  · have hfm : t.fmem = y.fmem := by rw [hdev]; rfl
    rw [hfm, hmem', hkept, fixtureEffect_reset hp]

/-! ### Erase (R166, R167, R198, R199) -/

/-- An erase request is a command whose program polls after the preamble and the erase command. -/
theorem AsksErase.program {p : Params} {i : Instr} {a : Half} {b : Nibble} {f : Half} {fd : Byte}
    (h : AsksErase p i a b f fd) :
    i.isQuery = false ∧ i.isWrite = false ∧ decode (encode i) = .ok i ∧
      Machine.program p i = ([.loadBank b] ++ busWrites (eraseCycles p f fd)) ++ eraseWait p a := by
  rw [← setupCommon_eraseCommand]
  obtain ⟨n, xm, rfl, ⟨rfl, rfl, rfl⟩ | ⟨rfl, rfl, rfl⟩⟩ := h
  · exact ⟨rfl, rfl, decode_encode rfl, rfl⟩
  · exact ⟨rfl, rfl, decode_encode rfl, rfl⟩

theorem eraseCycles_writes (p : Params) (b : Nibble) (f : Half) (fd : Byte) :
    ((eraseCycles p f fd).map fun w => (addr20 b w.1, w.2)) = preambleWrites b ++ eraseWrites p b f fd := by
  unfold eraseCycles eraseWrites
  cases p.erasePrefix <;> rfl

/-- The array an erase command leaves: the preamble's 0xF0 first, then the erase command's last write. -/
def erasedArray (f0 : FState) (m : List Host.Cell) (b : Nibble) (f : Half) (fd : Byte) : List Host.Cell :=
  fixtureEffect .e3 (fixtureEffect f0 m (addr20 b 0x000F#16) 0xF0#8) (addr20 b f) fd

/-- The preamble and an erase command from every state of the fixture (R191, R166). -/
theorem fixtureWrites_erase {p : Params} (h : p.erase80Addr = 0x0AAA#16) (b : Nibble) (f : Half) (fd : Byte)
    (f0 : FState) (m : List Host.Cell) :
    fixtureWrites (preambleWrites b ++ eraseWrites p b f fd) (f0, m) = (.read, erasedArray f0 m b f fd) := by
  rw [fixtureWrites_append, fixtureWrites_preamble, fixtureWrites_eraseWrites h, erasedArray]

/-- An erase whose poll address reads 0xFF afterwards succeeds at its first poll, and leaves the array erased. -/
theorem AsksErase.fixture {s : State} {i : Instr} {a : Half} {b : Nibble} {f : Half} {fd : Byte}
    (hi : AsksErase s.params i a b f fd) (hs : s.Ready) (hw : s.weShown) (hf : s.flash = .fixture)
    (h80 : s.params.erase80Addr = 0x0AAA#16) (hretry : 0 < s.params.erasePollRetries)
    (hff : memRead (erasedArray s.fstate s.fmem b f fd) (addr20 b a).toNat = 0xFF#8) :
    ∃ t, exec i s = .next t ∧ t.status = .initialised ∧ t.fmem = erasedArray s.fstate s.fmem b f fd := by
  obtain ⟨hq, hnw, hdec, hprog⟩ := hi.program
  obtain ⟨x, es, hwrites, hbank, hflash, hwe, hstate, hmem⟩ :=
    Runs.loadBank_writes_fixture (d := s.launching i) b (ws := eraseCycles s.params f fd) (by simp [eraseCycles]) rfl hw
  rw [eraseCycles_writes] at hstate hmem
  have hseq := fixtureWrites_erase h80 b f fd s.fstate s.fmem
  have hread : x.fstate = .read := hstate.trans (congrArg Prod.fst hseq)
  have harray : x.fmem = erasedArray s.fstate s.fmem b f fd := hmem.trans (congrArg Prod.snd hseq)
  obtain ⟨vs, fl, dr, es', hlen, _, hall, hrun, _, hanswers⟩ :=
    finalRun_eraseWait s.params a s.params.erasePollRetries x hwrites.1 hwe
  have hvs : ∀ v ∈ vs, v = 0xFF#8 := fun v hv => by
    rw [hanswers (hflash.trans hf) v hv, hread, hbank, fixtureAnswer, if_neg (by decide), harray, hff]
  have hlast : vs.getLast? = some 0xFF#8 := by
    by_contra hne
    have hpos : vs ≠ [] := List.ne_nil_of_length_pos (by rw [hall hne]; exact hretry)
    exact hne (by rw [List.getLast?_eq_some_getLast hpos, hvs _ (List.getLast_mem hpos)])
  have hpolled : (x.polled a vs fl dr).fmem = x.fmem := by
    unfold Device.polled
    split <;> rfl
  obtain ⟨t, ht, hdev⟩ := hs.exec hq hnw hdec
  rw [hprog, hwrites.2, eraseWait, hrun, hlast] at hdev
  refine ⟨t, ht, by rw [hdev]; rfl, ?_⟩
  have hfm : t.fmem = (x.polled a vs fl dr).fmem := by rw [hdev]; rfl
  rw [hfm, hpolled, harray]

theorem erasedArray_chip (f0 : FState) (m : List Host.Cell) (b : Nibble) : erasedArray f0 m b 0x0AAA#16 0x10#8 = [] :=
  fixtureEffect_eraseChip _ b

/-- The preamble may program a byte of its bank, and the sector erase takes that back. -/
theorem memRead_erasedArray_sector (f0 : FState) (m : List Host.Cell) (b : Nibble) (a : Half) (x : Nat) :
    memRead (erasedArray f0 m b a 0x30#8) x = if x / fixtureSector = b.toNat then 0xFF#8 else memRead m x := by
  rw [erasedArray, fixtureEffect_eraseSector, memRead_memEraseSector, addr20_sector]
  split
  · rfl
  · rename_i hx
    refine memRead_reset_other _ _ fun h => hx ?_
    rw [h, addr20_sector]

/-- Settles O33: the erase command takes the array from every state of the fixture, and the first poll reads 0xFF. -/
theorem eraseFixture : Obligations.EraseFixture := by
  intro s a n xm hs hw hf h80 hretry
  constructor
  · have hi : AsksErase s.params (.setupEraseChip a n xm) a (rsBank s.params n xm) 0x0AAA#16 0x10#8 :=
      ⟨n, xm, rfl, .inl ⟨rfl, rfl, rfl⟩⟩
    obtain ⟨t, ht, hst, hm⟩ := hi.fixture hs hw hf h80 hretry (by rw [erasedArray_chip]; rfl)
    refine ⟨t, ht, hst, fun x => ?_⟩
    rw [hm, erasedArray_chip]
    rfl
  · have hi : AsksErase s.params (.setupEraseSector a n xm) a (rsBank s.params n xm) a 0x30#8 :=
      ⟨n, xm, rfl, .inr ⟨rfl, rfl, rfl⟩⟩
    obtain ⟨t, ht, hst, hm⟩ := hi.fixture hs hw hf h80 hretry
      (by rw [memRead_erasedArray_sector, if_pos (addr20_sector _ _)])
    refine ⟨t, ht, hst, fun x => ?_⟩
    rw [hm, memRead_erasedArray_sector]
    rfl

end Sys2Proof.Machine
end

section
/-! SUPPORT. The memory family, writes: the data phase in the buffer, a WRITE whose polls pass as one block, and the
chunk's bytes in the fixture's array (R76, R133, R160 to R164). -/

namespace Sys2Proof.Machine

open Sys2Proof

/-! ### The data phase in the buffer (R133) -/

/-- A segment fills the buffer from the first entry owed on; the bytes beyond the last entry are dropped. -/
theorem Device.dataSegment_buf (seg : List Byte) : ∀ d : Device,
    (d.dataSegment seg).buf = writeBufs d.buf (((List.finRange 64).drop (64 - d.dataPending.val)).zip seg) := by
  induction seg with
  | nil => intro d; rw [List.zip_nil_right]; rfl
  | cons v seg ih =>
    intro d
    by_cases hp : d.dataPending.val = 0
    · rw [d.dataSegment_none _ (Fin.ext hp), hp]
      rfl
    · have hn : 64 - d.dataPending.val < (List.finRange 64).length := by simp; omega
      have hrest : 64 - (d.dataPending.val - 1) = 64 - d.dataPending.val + 1 := by omega
      have hstep : d.dataSegment (v :: seg) = (d.dataByte v).dataSegment seg := rfl
      rw [hstep, ih, d.dataByte_owed, List.drop_eq_getElem_cons hn, List.zip_cons_cons, writeBufs, hrest,
        Device.dataByte, dif_neg hp]
      simp

/-- A whole data phase leaves its bytes in the buffer and nothing owed. -/
theorem Device.dataSegment_phase {d : Device} (h : d.dataPending = 64) (bytes : Vector Byte 64) :
    d.dataSegment bytes.toList = { d with buf := bytes.map .byte, dataPending := 0 } := by
  have hbuf : (d.dataSegment bytes.toList).buf = bytes.map .byte := by
    rw [Device.dataSegment_buf, h]
    exact writeBufs_all d.buf bytes
  have howed : (d.dataSegment bytes.toList).dataPending = 0 := Fin.ext (by rw [Device.dataSegment_owed, h]; simp)
  rw [Device.dataSegment_rest, hbuf, howed]

/-- A WRITE's statements start from the accepted device with the data phase in its buffer (R131, R133, R134). -/
theorem State.launchedWrite_eq (s : State) (i : Instr) (bytes : Vector Byte 64) :
    s.launchedWrite i bytes.toList =
      Device.withPos { s.launching i with buf := bytes.map .byte } (program s.params i) := by
  rw [State.launchedWrite, Device.dataSegment_phase rfl]
  rfl

/-- A WRITE that a ready controller takes with its data phase ends as DSP leaves the device its program started from. -/
theorem State.ReadyWrite.exec {s : State} {delays : List Nat} {segs : List (List Byte)} {rest : List Arrival}
    (hs : s.ReadyWrite delays segs rest) {i : Instr} (hq : i.isQuery = false) (hw : i.isWrite = true)
    (hdec : decode (encode i) = .ok i) {bytes : Vector Byte 64} (hb : segs.flatten = bytes.toList) :
    ∃ t, Machine.exec i s = .next t ∧ t.toDevice =
      (Device.withPos { s.launching i with buf := bytes.map .byte } (program s.params i)).finalRun.1 := by
  refine ⟨s.command i, ?_, ?_⟩
  · rw [exec_command hq, s.onHeader_ready _ (by simp [hs.idle]) (by simp [hs.idle]) hs.noData]
  · rw [(s.command_readyWrite i delays segs rest hs hdec hw).1, hb, State.launchedWrite_eq]

/-! ### A WRITE whose polls pass (R160 to R164) -/

/-- Every poll of the variant passes at its first sample: there is none, or the readiness line is always true. -/
def Device.PollsPass (d : Device) (p : Params) (v : Variant) : Prop :=
  v = .fixed ∨ (d.ready = .fake [] true ∧ 0 < p.readySpinBound)

theorem Runs.pollFirst {d : Device} {p : Params} {v : Variant} (h : d.dstate = .executing) (hp : d.PollsPass p v) :
    ∃ es, Runs (Machine.pollFirst p v) d d es := by
  cases v with
  | fixed => exact ⟨[], Runs.nil h⟩
  | readyPolled =>
    obtain hv | ⟨hr, hpos⟩ := hp
    · cases hv
    obtain ⟨k, hk⟩ := Nat.exists_eq_succ_of_ne_zero hpos.ne'
    have hline : d.readyLine = (true, d) := by rw [Device.readyLine, hr]
    refine ⟨[.sampleReady true], h, fun rest => ?_⟩
    rw [Machine.pollFirst, hk, List.singleton_append, finalRun_poll_succ k rest d h, hline]
    rfl

theorem Runs.waitAfter {d : Device} (p : Params) (v : Variant) (h : d.dstate = .executing) :
    ∃ es, Runs (Machine.waitAfter p v) d d es := by
  cases v with
  | readyPolled => exact ⟨[], Runs.nil h⟩
  | fixed => exact ⟨_, Runs.of_execAll h rfl rfl⟩

/-- A write cycle after a poll that passes. -/
theorem Runs.polledWrite {d : Device} {p : Params} {v : Variant} (a : Half) (x : Byte) (h : d.dstate = .executing)
    (hw : d.weShown) (hp : d.PollsPass p v) :
    ∃ es, Runs (Machine.pollFirst p v ++ Machine.busWrite a x) d (d.written a x) es := by
  obtain ⟨es, hr⟩ := Runs.pollFirst h hp
  exact ⟨_, hr.append (Runs.busWrite a x h hw)⟩

/-- The write cycles of one programmed byte (R160). -/
def byteCycles (t : Half) (x : Byte) : List (Half × Byte) :=
  [(0x0AAA#16, 0xAA#8), (0x0555#16, 0x55#8), (0x0AAA#16, 0xA0#8), (t, x)]

theorem Runs.programByte {d : Device} {p : Params} {v : Variant} (t : Half) {i : Fin 64} {x : Byte}
    (h : d.dstate = .executing) (hw : d.weShown) (hp : d.PollsPass p v) (hb : d.buf.get i = .byte x) :
    ∃ es, Runs (Machine.programByte p t i v) d (d.writtenAll (byteCycles t x)) es := by
  obtain ⟨es1, h1⟩ := Runs.polledWrite (p := p) (v := v) 0x0AAA#16 0xAA#8 h hw hp
  obtain ⟨es2, h2⟩ := Runs.polledWrite (p := p) (v := v) 0x0555#16 0x55#8 h1.1 (Device.written_weShown _ _ _) hp
  obtain ⟨es3, h3⟩ := Runs.polledWrite (p := p) (v := v) 0x0AAA#16 0xA0#8 h2.1 (Device.written_weShown _ _ _) hp
  have h4 := Runs.of_execAll h3.1 (busWriteVia_straight t i)
    (execAll_busWrite_buf _ t i x (Device.written_weShown _ _ _) hb)
  obtain ⟨es5, h5⟩ := Runs.waitAfter p v h4.1
  have hrun := (((h1.append h2).append h3).append h4).append h5
  simp only [← List.append_assoc] at hrun
  exact ⟨_, hrun⟩

/-- The write cycles of the bytes numbered by `L` of a chunk (R160, R163). -/
def chunkCycles (a : Half) (bytes : Vector Byte 64) (L : List (Fin 64)) : List (Half × Byte) :=
  L.flatMap fun i => byteCycles (chunkAddr a i.val) (bytes.get i)

theorem Runs.programBytes {p : Params} {v : Variant} (a : Half) (bytes : Vector Byte 64) (L : List (Fin 64)) :
    ∀ {d : Device}, d.dstate = .executing → d.weShown → d.PollsPass p v → d.buf = bytes.map .byte →
      ∃ es, Runs (L.flatMap fun i => Machine.programByte p (chunkAddr a i.val) i v) d
        (d.writtenAll (chunkCycles a bytes L)) es := by
  induction L with
  | nil => exact fun h _ _ _ => ⟨[], Runs.nil h⟩
  | cons i L ih =>
    intro d h hw hp hb
    have hget : d.buf.get i = .byte (bytes.get i) := by rw [hb]; exact Vector.getElem_map ..
    obtain ⟨es1, h1⟩ := Runs.programByte (chunkAddr a i.val) h hw hp hget
    obtain ⟨es2, h2⟩ := ih h1.1 (Device.written_weShown _ _ _) hp hb
    exact ⟨_, h1.append h2⟩

/-- A WRITE's program where every poll passes: all the write cycles of the chunk, then INITIALISED (R164). -/
theorem Runs.progChunk {d : Device} {p : Params} {v : Variant} (a : Half) (b : Nibble) {bytes : Vector Byte 64}
    (h : d.dstate = .executing) (hw : d.weShown) (hp : d.PollsPass p v) (hb : d.buf = bytes.map .byte) :
    ∃ es, Runs (Machine.progChunk p a b v) d
      { Device.writtenAll { d with bank := b } (chunkCycles a bytes (List.finRange 64)) with
        status := .initialised } es := by
  have h1 : Runs [.loadBank b] d { d with bank := b } [] := Runs.of_execAll h rfl rfl
  obtain ⟨es2, h2⟩ := Runs.programBytes a bytes (List.finRange 64) h1.1 hw hp hb
  obtain ⟨_, hready⟩ := Device.writtenAll_sources (chunkCycles a bytes (List.finRange 64)) { d with bank := b }
  obtain ⟨es3, h3⟩ := Runs.pollFirst h2.1 (hp.imp_right fun hp => ⟨hready.trans hp.1, hp.2⟩)
  have h4 : Runs [.setStatus .initialised] _ _ [] := Runs.of_execAll h3.1 rfl rfl
  exact ⟨_, ((h1.append h2).append h3).append h4⟩

theorem AsksFixedDelay.program {p : Params} {i : Instr} {a : Half} {b : Nibble} (h : AsksFixedDelay p i a b) :
    i.isQuery = false ∧ i.isWrite = true ∧ decode (encode i) = .ok i ∧
      Machine.program p i = Machine.progChunk p a b .fixed := by
  obtain ⟨hp, sl, xl, hsl, rfl⟩ | ⟨hp, xl, rfl⟩ := h
  · exact ⟨rfl, rfl, decode_encode (by simpa [Instr.wellFormed, slowByteOk] using hsl),
      by simp [Machine.program, progWriteFixed, writeVariant, hp, hsl]⟩
  · exact ⟨rfl, rfl, decode_encode rfl, by simp [Machine.program, progWrite, writeVariant, hp]⟩

theorem AsksReadyPolled.program {p : Params} {i : Instr} {a : Half} {b : Nibble} (h : AsksReadyPolled p i a b) :
    i.isQuery = false ∧ i.isWrite = true ∧ decode (encode i) = .ok i ∧
      Machine.program p i = Machine.progChunk p a b .readyPolled := by
  obtain ⟨hp, xl, rfl⟩ | ⟨hp, sl, xl, hsl, rfl⟩ := h
  · exact ⟨rfl, rfl, decode_encode rfl, by simp [Machine.program, progWrite, writeVariant, hp]⟩
  · exact ⟨rfl, rfl, decode_encode (by simpa [Instr.wellFormed, slowByteOk] using hsl),
      by simp [Machine.program, progWriteFixed, writeVariant, hp, hsl]⟩

/-! ### Programmed bytes in the fixture's array (R72, R76) -/

/-- The array after bytes programmed one after another. -/
def programBytes (m : List Host.Cell) (ws : List (Addr20 × Byte)) : List Host.Cell :=
  ws.foldl (fun m w => fixtureEffect .p3 m w.1 w.2) m

theorem memRead_programBytes_other (ws : List (Addr20 × Byte)) {x : Nat} (hx : ∀ w ∈ ws, x ≠ w.1.toNat) :
    ∀ m : List Host.Cell, memRead (programBytes m ws) x = memRead m x := by
  induction ws with
  | nil => exact fun _ => rfl
  | cons w ws ih =>
    intro m
    obtain ⟨hw, hws⟩ := List.forall_mem_cons.1 hx
    exact (ih hws _).trans (memRead_memWrite_other _ _ _ _ hw)

/-- Of different addresses each holds, in the end, the AND of its old byte and the byte programmed there. -/
theorem memRead_programBytes_mem {ws : List (Addr20 × Byte)} (hnd : (ws.map Prod.fst).Nodup) {a : Addr20} {v : Byte}
    (hmem : (a, v) ∈ ws) : ∀ {m : List Host.Cell}, memWf m = true →
    memRead (programBytes m ws) a.toNat = memRead m a.toNat &&& v := by
  induction ws with
  | nil => cases hmem
  | cons w ws ih =>
    intro m hm
    obtain ⟨hw, hws⟩ := List.nodup_cons.1 hnd
    have hne : ∀ u ∈ ws, w.1.toNat ≠ u.1.toNat := fun u hu h =>
      hw (BitVec.eq_of_toNat_eq h ▸ List.mem_map_of_mem hu)
    obtain rfl | hmem := List.mem_cons.1 hmem
    · exact (memRead_programBytes_other ws hne _).trans (memRead_memWrite_same m 0 _ _ hm)
    · refine (ih hws hmem (memWf_fixtureEffect .p3 m w.1 w.2 hm)).trans ?_
      exact congrArg (· &&& v) (memRead_memWrite_other _ _ _ _ (hne _ hmem).symm)

/-- The addresses and bytes of a chunk (R163). -/
def chunkTargets (b : Nibble) (a : Half) (bytes : Vector Byte 64) : List (Addr20 × Byte) :=
  (List.finRange 64).map fun i => (addr20 b (chunkAddr a i.val), bytes.get i)

/-- The chunk's addresses are 64 different ones (R163). -/
theorem chunkAddr_injective (a : Half) : Function.Injective fun n : Fin 64 => chunkAddr a n.val := by
  intro m n h
  have hlo := congrArg loByte h
  simp only [chunkAddr, addr16, loByte_append, BitVec.add_right_inj] at hlo
  have hval := congrArg BitVec.toNat hlo
  simp only [BitVec.toNat_ofNat] at hval
  exact Fin.ext (by omega)

theorem chunkTargets_nodup (b : Nibble) (a : Half) (bytes : Vector Byte 64) :
    ((chunkTargets b a bytes).map Prod.fst).Nodup := by
  rw [chunkTargets, List.map_map]
  refine (List.nodup_finRange 64).map fun m n h => chunkAddr_injective a ?_
  exact (eventA16_addr20 b _).symm.trans ((congrArg eventA16 h).trans (eventA16_addr20 b _))

theorem chunkCycles_writes (b : Nibble) (a : Half) (bytes : Vector Byte 64) :
    ((chunkCycles a bytes (List.finRange 64)).map fun w => (addr20 b w.1, w.2)) = chunkWrites b a bytes := by
  rw [chunkCycles, List.map_flatMap]
  rfl

/-- From READ the fixture programs the chunk's bytes in order and is back in READ (R76, R160). -/
theorem fixtureWrites_chunkWrites (b : Nibble) (a : Half) (bytes : Vector Byte 64) (m : List Host.Cell) :
    fixtureWrites (chunkWrites b a bytes) (.read, m) = (.read, programBytes m (chunkTargets b a bytes)) := by
  unfold chunkWrites chunkTargets
  induction List.finRange 64 generalizing m with
  | nil => rfl
  | cons i L ih =>
    rw [List.flatMap_cons, fixtureWrites_append, fixtureWrites_programWrites, ih]
    rfl

/-- A WRITE whose polls pass, with the fixture in READ, ends with the chunk's bytes programmed. -/
theorem State.ReadyWrite.programs {s : State} {delays : List Nat} {segs : List (List Byte)} {rest : List Arrival}
    (hs : s.ReadyWrite delays segs rest) {i : Instr} (hq : i.isQuery = false) (hwr : i.isWrite = true)
    (hdec : decode (encode i) = .ok i) {a : Half} {b : Nibble} {v : Variant}
    (hprog : program s.params i = progChunk s.params a b v) (hp : s.toDevice.PollsPass s.params v)
    {bytes : Vector Byte 64} (hb : segs.flatten = bytes.toList) (hw : s.weShown) (hf : s.fstate = .read) :
    ∃ t, Machine.exec i s = .next t ∧ t.status = .initialised ∧ t.fstate = .read ∧
      t.fmem = programBytes s.fmem (chunkTargets b a bytes) := by
  obtain ⟨t, ht, hdev⟩ := hs.exec hq hwr hdec hb
  obtain ⟨es, hrun⟩ := Runs.progChunk (d := { s.launching i with buf := bytes.map .byte }) a b rfl hw hp rfl
  rw [hprog, hrun.finalRun] at hdev
  obtain ⟨hstate, hmem⟩ := Device.writtenAll_fixture (chunkCycles a bytes (List.finRange 64))
    { s.launching i with buf := bytes.map .byte, bank := b }
  rw [chunkCycles_writes] at hstate hmem
  have hseq : fixtureWrites (chunkWrites b a bytes) (s.fstate, s.fmem) =
      (.read, programBytes s.fmem (chunkTargets b a bytes)) := by rw [hf, fixtureWrites_chunkWrites]
  -- with the chunk's lists as variables no comparison below computes their 64 entries
  generalize chunkCycles a bytes (List.finRange 64) = cs at hdev hstate hmem
  generalize chunkWrites b a bytes = ws at hstate hmem hseq
  generalize programBytes s.fmem (chunkTargets b a bytes) = m at hseq ⊢
  refine ⟨t, ht, ?_, ?_, ?_⟩ <;> rw [hdev]
  · rfl
  · exact hstate.trans (congrArg Prod.fst hseq)
  · exact hmem.trans (congrArg Prod.snd hseq)

/-- Settles O22: a WRITE that succeeds programs the chunk's 64 different addresses, each once. -/
theorem writeRoundTrip : Obligations.WriteRoundTrip := by
  intro s i a b delays segs rest bytes hasks hs hb hw hf hm
  obtain ⟨t, ht, hst, hfs, hfm⟩ : ∃ t, exec i s = .next t ∧ t.status = .initialised ∧ t.fstate = .read ∧
      t.fmem = programBytes s.fmem (chunkTargets b a bytes) := by
    obtain hi | ⟨hi, hready, hpos⟩ := hasks
    · obtain ⟨hq, hwr, hdec, hprog⟩ := hi.program
      exact hs.programs hq hwr hdec hprog (.inl rfl) hb hw hf
    · obtain ⟨hq, hwr, hdec, hprog⟩ := hi.program
      exact hs.programs hq hwr hdec hprog (.inr ⟨hready, hpos⟩) hb hw hf
  have htarget : ∀ n : Fin 64, memRead t.fmem (addr20 b (chunkAddr a n.val)).toNat =
      memRead s.fmem (addr20 b (chunkAddr a n.val)).toNat &&& bytes.get n := fun n => by
    rw [hfm]
    exact memRead_programBytes_mem (chunkTargets_nodup b a bytes) (List.mem_map_of_mem (List.mem_finRange n)) hm
  refine ⟨t, ht, hst, hfs, ?_, htarget, fun n hn => ?_, fun x hx => ?_⟩
  · have hwf := memWf_fixtureWrites (chunkWrites b a bytes) (.read, s.fmem) hm
    rwa [fixtureWrites_chunkWrites, ← hfm] at hwf
  · rw [htarget, hn]
    exact BitVec.allOnes_and
  · rw [hfm]
    refine memRead_programBytes_other _ (fun w hw' => ?_) _
    obtain ⟨n, _, rfl⟩ := List.mem_map.1 hw'
    exact hx n

end Sys2Proof.Machine
end

section
/-! SUPPORT. The encoding family: the classes of a header in R84's order, and what RX and a step in IDLE do with one
that has no meaning (R88, R144, R246). -/

namespace Sys2Proof

/-! ### Decoding and encoding (R80 to R87) -/

/-- Settles O1: each operand is a field of the header's concatenations, and reads back from it. -/
theorem decodeOfEncode : Obligations.DecodeOfEncode := fun _ h => decode_encode h

/-- What a header decodes to stands for a row of the opcode table: WRITE's two rows part on the slow byte. -/
theorem wellFormed_of_decode {h : Header} {i : Instr} (hd : decode h = .ok i) : i.wellFormed = true := by
  obtain hw | ⟨a, b, xl, rfl⟩ := wellFormed_or i
  · exact hw
  · have hwrite : decode (encode (.writeFixed a 0#8 b xl)) = .ok (.write a b xl) :=
      decode_encode (i := .write a b xl) rfl
    rw [decode_encode_of_decode hd] at hwrite
    cases hwrite

/-- Settles O2: every decoded operand is put back where it was read. -/
theorem encodeOfDecode : Obligations.EncodeOfDecode := fun _ _ hd => ⟨wellFormed_of_decode hd, encode_of_decode hd⟩

/-- A table word that is the header of a well-formed instruction decodes to that instruction. -/
theorem decodeTableWord_of_encode {nbits w : Nat} {i : Instr} (he : headerOfTable nbits w = encode i)
    (hw : i.wellFormed = true) : decodeTableWord nbits w = some i := by
  rw [decodeTableWord, he, decode_encode hw]

/-- Settles O4: six words are the headers of their requests, the other four have no meaning. -/
theorem wordsOfTheSpec : Obligations.WordsOfTheSpec :=
  ⟨decodeTableWord_of_encode (by decide) rfl, decodeTableWord_of_encode (by decide) rfl,
    decodeTableWord_of_encode (by decide) rfl, decodeTableWord_of_encode (by decide) rfl,
    decodeTableWord_of_encode (by decide) rfl, decodeTableWord_of_encode (by decide) rfl,
    by decide, by decide, by decide, by decide⟩

/-! ### The classes of a header (R84) -/

section
variable {h : Header} {o : Opc}

theorem opcOfNibble_of_nib (e : opc o = h.nib) : opcOfNibble h.nib = some o := by rw [← e, opcOfNibble_opc]

theorem decode_unsupported (hn : ∀ o, opc o ≠ h.nib) : decode h = .unsupported := by
  simp [decode, opcOfNibble_eq_none.2 hn]

theorem decode_read (e : opc .read = h.nib) : decode h = decodeRead h := by
  simp [decode, opcOfNibble_of_nib e]

theorem decode_subNonzero (ho : o ≠ .read) (e : opc o = h.nib) (hs : h.sub ≠ 0#4) :
    decode h = .refused .subNonzero := by
  cases o with
  | read => exact absurd rfl ho
  | _ => simp [decode, opcOfNibble_of_nib e, requireSub0, hs]

theorem decode_setup (e : opc .setup = h.nib) (hs : h.sub = 0#4) : decode h = decodeSetup h := by
  simp [decode, opcOfNibble_of_nib e, requireSub0, hs]

/-- Of the commands with sub-selector 0 only SETUP can still be refused. -/
theorem decode_command (hr : o ≠ .read) (hset : o ≠ .setup) (e : opc o = h.nib) (hs : h.sub = 0#4) :
    ∃ i, decode h = .ok i := by
  cases o with
  | read => exact absurd rfl hr
  | setup => exact absurd rfl hset
  | _ => simp [decode, opcOfNibble_of_nib e, requireSub0, hs]

/-- Each mode has its request. -/
theorem decodeSetup_mode {m : Mode} (hm : modeOfByte (hiByte h.p1) = some m) : ∃ i, decodeSetup h = .ok i := by
  cases m <;> simp [decodeSetup, hm]

theorem decodeSetup_refused (hm : ∀ m, modeCode m ≠ hiByte h.p1) : decodeSetup h = .refused .setupMode := by
  simp [decodeSetup, modeOfByte_eq_none.2 hm]

end

end Sys2Proof

namespace Sys2Proof.Machine

open Sys2Proof

theorem State.rxHeader_unsupported {h : Header} (hd : decode h = .unsupported) (s : State) :
    s.rxHeader h = s.respond h .notSupported := by
  simp [State.rxHeader, hd]

theorem State.rxHeader_refused {h : Header} {r : RefuseReason} (hd : decode h = .refused r) (s : State) :
    s.rxHeader h = s.refuse := by
  simp [State.rxHeader, hd]

/-- Settles O3: one lemma for each class; a request that decodes has the opcode and the mode of its header, which it
encodes back to. -/
theorem headerClasses : Obligations.HeaderClasses := by
  intro h s
  have refused {r : RefuseReason} (hd : decode h = .refused r) : decode h = .refused r ∧ s.rxHeader h = s.refuse :=
    ⟨hd, State.rxHeader_refused hd s⟩
  refine ⟨fun hn => ?_, fun hn => ?_, ?_, fun hn hs hm => ?_, fun o hr hset hn hs => ?_, fun m hn hs hm => ?_⟩
  · exact ⟨decode_unsupported hn, State.rxHeader_unsupported (decode_unsupported hn) s⟩
  · have hread : decode h = decodeRead h := decode_read hn.symm
    refine ⟨fun h0 => ?_, fun h1 => ?_, fun h0 h1 => refused ?_⟩
    · exact ⟨_, _, _, _, by rw [hread, decodeRead, if_pos h0]⟩
    · exact ⟨_, _, by rw [hread, decodeRead, h1]; rfl⟩
    · rw [hread, decodeRead, if_neg h0, if_neg h1]
  · rintro ⟨o, hr, hn⟩ hs
    exact refused (decode_subNonzero hr hn hs)
  · exact refused (by rw [decode_setup hn.symm hs, decodeSetup_refused hm])
  · obtain ⟨i, hd⟩ := decode_command hr hset hn hs
    exact ⟨i, hd, by rw [encode_of_decode hd, hn]⟩
  · obtain ⟨i, hd⟩ := decodeSetup_mode (h := h) (m := m) (by rw [← hm, modeOfByte_modeCode])
    rw [← decode_setup hn.symm hs] at hd
    exact ⟨i, hd, by rw [encode_of_decode hd, hn], by rw [encode_of_decode hd, hm]⟩

/-! ### Headers without meaning (R88, R144, R246) -/

theorem State.Answering.onHeader {s : State} (hs : s.Answering) (t : State) : s.onHeader t = .next t :=
  s.onHeader_ready t hs.begun hs.going hs.noData

/-- A header that heads the link in IDLE is taken from it and handled. -/
theorem step_header {s : State} {dl : Nat} {h : Header} {rest : List Arrival} (hi : s.dstate = .idle)
    (hl : s.link = { delay := dl, input := .header h } :: rest) :
    step s = State.stepHeader { s with link := rest } h := by
  simp [step, hi, State.stepInput, hl]

/-- Settles O38: RX answers or marks such a header and hands nothing on, in a step of the machine as alone. -/
theorem headersWithoutMeaning : Obligations.HeadersWithoutMeaning := by
  intro s h hs
  refine ⟨fun hd => ?_, fun r hd => State.rxHeader_refused hd s, fun dl rest hi hl => ?_⟩
  · rw [State.rxHeader_unsupported hd]
    exact ⟨rfl, rfl, rfl⟩
  · have hrest : State.Answering { s with link := rest } := ⟨hs.begun, hs.going, hs.noData⟩
    rw [step_header hi hl]
    refine ⟨fun hd => ?_, fun r hd => ?_⟩ <;> rw [State.stepHeader, hd] <;> exact hrest.onHeader _

end Sys2Proof.Machine
end

section
/-! SUPPORT. The encoding family: a command sent alone is answered with its ack and nothing else (R89, R131, R134). -/

namespace Sys2Proof.Machine

open Sys2Proof

/-! ### What DSP adds to the trace is no answer -/

theorem Device.dspStep_no_answers (d : Device) : ∀ e ∈ d.dspStep.2, e.isRespond = false := by
  unfold Device.dspStep
  split
  · exact d.statement_no_answers
  · split <;> simp

theorem State.answers_congr {s t : State} (e : t.trace = s.trace) : t.answers = s.answers := by
  rw [State.answers, State.events, e]
  rfl

theorem State.answers_respond (s : State) (h : Header) (x : Response) :
    (s.respond h x).answers = s.answers ++ [.respond h x] := by
  simp [State.answers, State.events, Event.isRespond]

theorem State.dspMove_answers (s : State) : s.dspMove.answers = s.answers := by
  have hnone : s.toDevice.dspStep.2.filter Event.isRespond = [] :=
    List.filter_eq_nil_iff.2 fun e he => by simp [s.toDevice.dspStep_no_answers e he]
  simp [State.answers, State.events, List.filter_append, hnone]

/-! ### A command alone (R131) -/

section
variable {s t : State} {i : Instr}

/-- With nothing on the link RX has no step. -/
theorem State.AckedAlone.rxStep (h : s.AckedAlone t i) : s.AckedAlone t.rxStep i := by
  rw [State.rxStep, h.link]
  exact h

theorem State.AckedAlone.dspMove (h : s.AckedAlone t i) : s.AckedAlone t.dspMove i where
  answers := t.dspMove_answers.trans h.answers
  refused := h.refused
  draws := h.draws
  link := by rw [State.dspMove_link, h.link]; rfl

/-- Once the inputs before the start are taken, the start and the run keep it. -/
theorem State.AckedAlone.settle (h : s.AckedAlone (State.takeInputs t.link.length t) i) : s.AckedAlone t.settle i := by
  unfold State.settle
  dsimp only
  split
  · exact State.runTicks_keeps (P := fun u => s.AckedAlone u i) (fun _ hu => hu.rxStep) (fun _ hu => hu.dspMove) _
      h.dspMove
  · exact h

/-- After acceptance the ack is the one new answer, whatever the data phase has made of the device. -/
theorem State.ackedAlone_accept (i : Instr) (d : Device) :
    s.AckedAlone { s.accept i with toDevice := d, link := [] } i where
  answers := (State.answers_congr (s := s.accept i) rfl).trans ((s.intoMailbox i).answers_respond (encode i) .ack)
  refused := rfl
  draws := rfl
  link := rfl

/-- A command other than WRITE, with nothing after it. -/
theorem State.ackedAlone_command (hi : s.dstate = .idle) (hl : s.link = []) : s.AckedAlone (s.command i) i := by
  have hacc : s.accept i = { s.accept i with link := [] } := by rw [← hl]; rfl
  have htake : State.takeInputs (s.accept i).link.length (s.accept i) = s.accept i := by
    rw [State.accept_link, hl]; rfl
  rw [State.command_idle hi]
  refine State.AckedAlone.settle ?_
  rw [htake, hacc]
  exact State.ackedAlone_accept i _

/-- A WRITE takes its data phase from the link, and nothing stands after that. -/
theorem State.ReadyWrite.ackedAlone {delays : List Nat} {segs : List (List Byte)} (hs : s.ReadyWrite delays segs [])
    (hw : i.isWrite = true) : s.AckedAlone (s.command i) i := by
  have howed : (s.accept i).dataPending.val = segs.flatten.length := by
    have hlen : segs.flatten.length = 64 := by simpa [isPhase] using hs.phase
    simp [hw, hlen]
  have hfuel : segs.length ≤ (s.accept i).link.length := by
    rw [State.accept_link, hs.link]
    simp [hs.sized]
  rw [State.command_idle hs.idle]
  refine State.AckedAlone.settle ?_
  rw [State.takeInputs_phase [] rfl segs delays (s.accept i) _ hs.sized hs.some rfl howed hs.link hfuel]
  exact State.ackedAlone_accept i _

end

/-- Settles O34: acceptance gives the ack, the data phase is taken without an answer, and DSP gives none. -/
theorem commandAcknowledged : Obligations.CommandAcknowledged := by
  intro s i hq
  rw [exec_command hq]
  refine ⟨fun _ hs hl => ⟨_, hs.onHeader _, State.ackedAlone_command hs.idle hl⟩, fun delays segs hw hs => ?_⟩
  exact ⟨_, s.onHeader_ready _ (by simp [hs.idle]) (by simp [hs.idle]) hs.noData, hs.ackedAlone hw⟩

end Sys2Proof.Machine
end

section
/-! SUPPORT. The encoding family: the ignored bits (R85, R87). A request means its program and its status at the start,
which the named bits decide, and no statement reads the mailbox, which alone holds the others. -/

namespace Sys2Proof.Machine

open Sys2Proof

/-! ### What the named bits decide (R85) -/

section
variable (p : Params) (i : Instr)

/-- The bank operand is the named nibble of the two. -/
theorem rsBank_rsFields (b xm : Nibble) : rsBank p (rsFields p b xm).1 (rsFields p b xm).2 = rsBank p b xm := by
  unfold rsBank rsFields
  cases p.bankShiftRs <;> rfl

theorem program_clearIgnored : program p (clearIgnored p i) = program p i := by
  cases i <;> simp only [clearIgnored, program, rsBank_rsFields]

theorem startStatus_clearIgnored (st : Status) : startStatus st (clearIgnored p i) = startStatus st i := by
  cases i <;> rfl

theorem isWrite_clearIgnored : (clearIgnored p i).isWrite = i.isWrite := by cases i <;> rfl

theorem isQuery_clearIgnored : (clearIgnored p i).isQuery = i.isQuery := by cases i <;> rfl

end

/-- A query's answer is the same for every query with its named bits (R140, R141). -/
theorem State.rxInstr_sameQuery (s : State) {i : Instr} (hq : i.isQuery = true) :
    ∃ x n, ∀ j, clearIgnored s.params i = clearIgnored s.params j →
      s.rxInstr j = { s with trace := .respond (encode j) x :: s.trace, rxDraws := n } := by
  cases i with
  | getData x0 x1 =>
    refine ⟨s.dataAnswer, s.rxDraws + 1, fun j hj => ?_⟩
    cases j with
    | getData => rfl
    | _ => cases hj
  | readFetch x0 x1 =>
    refine ⟨s.bufferAnswer, s.rxDraws + 64, fun j hj => ?_⟩
    cases j with
    | readFetch => rfl
    | _ => cases hj
  | _ => cases hq

/-! ### The mailbox does not matter to what a statement does (R134) -/

/-- The device with another mailbox. -/
def Device.withCmd (d : Device) (c : Option Command) : Device := { d with cmd := c }

section
variable (d : Device) (c : Option Command)

theorem Device.readSlot_withCmd (x : Slot) :
    (d.withCmd c).readSlot x = ((d.readSlot x).1, (d.readSlot x).2.withCmd c) := by cases x <;> rfl

theorem Device.writeData_withCmd : (d.withCmd c).writeData = (d.writeData.1, d.writeData.2.withCmd c) := by
  have hdir : (d.withCmd c).portDir = d.portDir := rfl
  unfold Device.writeData
  rw [hdir]
  split
  · exact d.readSlot_withCmd c _
  · rfl

theorem Device.latch_withCmd : (d.withCmd c).latch = (d.latch.1.withCmd c, d.latch.2) := by
  have hrise : (d.withCmd c).weRises = d.weRises := rfl
  unfold Device.latch
  rw [hrise, Device.writeData_withCmd]
  split <;> rfl

theorem Device.shiftControl_withCmd : (d.withCmd c).shiftControl = (d.shiftControl.1.withCmd c, d.shiftControl.2) := by
  have h : (d.withCmd c).controlShifted.latch = (d.controlShifted.latch.1.withCmd c, d.controlShifted.latch.2) :=
    d.controlShifted.latch_withCmd c
  rw [Device.shiftControl, h]
  rfl

theorem Device.shiftFullAddress_withCmd :
    (d.withCmd c).shiftFullAddress = (d.shiftFullAddress.1.withCmd c, d.shiftFullAddress.2) := by
  have h : (d.withCmd c).fullShifted.latch = (d.fullShifted.latch.1.withCmd c, d.fullShifted.latch.2) :=
    d.fullShifted.latch_withCmd c
  rw [Device.shiftFullAddress, h]
  rfl

theorem Device.shiftLowAddress_withCmd :
    (d.withCmd c).shiftLowAddress = (d.shiftLowAddress.1.withCmd c, d.shiftLowAddress.2) := by
  have h : (d.withCmd c).lowShifted.latch = (d.lowShifted.latch.1.withCmd c, d.lowShifted.latch.2) :=
    d.lowShifted.latch_withCmd c
  rw [Device.shiftLowAddress, h]
  rfl

theorem Device.dataLines_withCmd : (d.withCmd c).dataLines = (d.dataLines.1, d.dataLines.2.withCmd c) := by
  have hdrives : (d.withCmd c).flashDrives = d.flashDrives := rfl
  have hflash : (d.withCmd c).flash = d.flash := rfl
  unfold Device.dataLines
  rw [hdrives, hflash]
  split
  · split <;> rfl
  · rfl

theorem Device.readyLine_withCmd : (d.withCmd c).readyLine = (d.readyLine.1, d.readyLine.2.withCmd c) := by
  have hready : (d.withCmd c).ready = d.ready := rfl
  unfold Device.readyLine
  rw [hready]
  split <;> rfl

/-- A statement does the same whatever the mailbox holds, and leaves the mailbox alone. -/
theorem Stmt.exec_withCmd (st : Stmt) : st.exec (d.withCmd c) = ((st.exec d).1.withCmd c, (st.exec d).2) := by
  have hpin : ∀ f, (d.withCmd c).pinOn f = d.pinOn f := fun _ => rfl
  have haddr : (d.withCmd c).pinAddr = d.pinAddr := rfl
  have hbuf : (d.withCmd c).buf = d.buf := rfl
  have hv : (d.withCmd c).localV = d.localV := rfl
  cases st with
  | shiftControl => exact d.shiftControl_withCmd c
  | shiftFullAddress => exact d.shiftFullAddress_withCmd c
  | shiftLowAddress => exact d.shiftLowAddress_withCmd c
  | loadLowAssert => simp only [Stmt.exec, hpin]; split <;> rfl
  | loadLowShift =>
    simp only [Stmt.exec, hpin]
    split
    · rfl
    · exact d.shiftControl_withCmd c
  | driveBuf i => simp only [Stmt.exec, hbuf, Device.readSlot_withCmd]; rfl
  | sampleData => simp only [Stmt.exec, Device.sampleEvents, Device.dataLines_withCmd, haddr]; rfl
  | sampleBuf i => simp only [Stmt.exec, Device.sampleEvents, Device.dataLines_withCmd, haddr]; rfl
  | sampleReady => simp only [Stmt.exec, Device.readyLine_withCmd]; rfl
  | poll k =>
    cases k with
    | zero => rfl
    | succ k => simp only [Stmt.exec, Device.pollSample, Device.readyLine_withCmd]; split <;> rfl
  | eraseCheck => simp only [Stmt.exec, hv]; split <;> rfl
  | _ => rfl

theorem Device.finish_withCmd : ∃ c', (d.withCmd c).finish = d.finish.withCmd c' := by
  have hpos : (d.withCmd c).pos = d.pos := rfl
  have hds : (d.withCmd c).dstate = d.dstate := rfl
  unfold Device.finish
  rw [hpos, hds]
  split
  · exact ⟨none, rfl⟩
  · exact ⟨c, rfl⟩

theorem Device.statement_withCmd :
    ∃ c', (d.withCmd c).statement = (d.statement.1.withCmd c', d.statement.2) := by
  have hpos : (d.withCmd c).pos = d.pos := rfl
  unfold Device.statement
  rw [hpos]
  split
  · exact ⟨none, rfl⟩
  · rename_i st rest _
    have hexec := Stmt.exec_withCmd (d.withPos rest) c st
    obtain ⟨c', hfin⟩ := Device.finish_withCmd (st.exec (d.withPos rest)).1 c
    have hself : (d.withCmd c).withPos rest = (d.withPos rest).withCmd c := rfl
    exact ⟨c', by rw [hself, hexec, hfin]⟩

end

theorem Device.runN_withCmd (n : Nat) (d : Device) (c : Option Command) :
    ∃ c', (d.withCmd c).runN n = ((d.runN n).1.withCmd c', (d.runN n).2) := by
  induction n generalizing d c with
  | zero => exact ⟨c, rfl⟩
  | succ n ih =>
    have hrun : (d.withCmd c).running = d.running := rfl
    obtain ⟨c1, h1⟩ := d.statement_withCmd c
    obtain ⟨c2, h2⟩ := ih d.statement.1 c1
    simp only [Device.runN, hrun]
    split
    · exact ⟨c2, by rw [h1, h2]⟩
    · exact ⟨c, rfl⟩

/-- A run does the same whatever the mailbox holds. -/
theorem Device.finalRun_withCmd (d : Device) (c : Option Command) :
    ∃ c', (d.withCmd c).finalRun = (d.finalRun.1.withCmd c', d.finalRun.2) :=
  d.runN_withCmd _ c

/-! ### How a command ends (R135, R142) -/

/-- A command still runs, or it has completed, which emptied the mailbox, or it has terminated. -/
def Device.RunsOrEnded (d : Device) : Prop :=
  d.dstate = .executing ∨ (d.dstate = .idle ∧ d.cmd = none) ∨ d.dstate = .terminated

/-- Only the statement that enters IDLE leaves a running device there, and it stands last. -/
theorem Stmt.exec_idle (st : Stmt) {d : Device} (hd : d.dstate = .executing) (h : (st.exec d).1.dstate = .idle) :
    (st.exec d).1.pos = [] := by
  cases st with
  | enterIdle => rfl
  | poll k =>
    cases k with
    | zero => rfl
    | succ k =>
      simp only [Stmt.exec, Device.pollSample] at h
      split at h <;> simp [hd] at h
  | loadLowAssert => simp only [Stmt.exec] at h; split at h <;> simp [hd] at h
  | loadLowShift => simp only [Stmt.exec] at h; split at h <;> simp [hd] at h
  | eraseCheck => simp only [Stmt.exec] at h; split at h <;> simp [hd] at h
  | _ => simp [Stmt.exec, hd] at h

theorem Device.statement_runsOrEnded {d : Device} (hd : d.dstate = .executing) : d.statement.1.RunsOrEnded := by
  unfold Device.statement
  split
  · exact .inr (.inl ⟨rfl, rfl⟩)
  · rename_i st rest _
    obtain ⟨_, _, hfin⟩ | ⟨hend, hfin⟩ := (st.exec (d.withPos rest)).1.finish_cases
    · dsimp only
      rw [hfin]
      exact .inr (.inl ⟨rfl, rfl⟩)
    · dsimp only
      rw [hfin]
      obtain h | h | h := st.exec_dstate (d.withPos rest)
      · exact .inl (h.trans hd)
      · obtain hne | hne := hend
        · exact absurd (st.exec_idle (d := d.withPos rest) hd h) hne
        · rw [h] at hne; cases hne
      · exact .inr (.inr h)

theorem Device.RunsOrEnded.runN (n : Nat) {d : Device} (h : d.RunsOrEnded) : (d.runN n).1.RunsOrEnded := by
  induction n generalizing d with
  | zero => exact h
  | succ n ih =>
    simp only [Device.runN]
    split
    · rename_i hrun
      refine ih (Device.statement_runsOrEnded ?_)
      obtain h | ⟨h, _⟩ | h := h
      · exact h
      · simp [Device.running, h] at hrun
      · simp [Device.running, h] at hrun
    · exact h

/-- A command's run ends in IDLE with the mailbox empty, or in TERMINATED. -/
theorem Device.finalRun_ended {d : Device} (hd : d.dstate = .executing) :
    (d.finalRun.1.dstate = .idle ∧ d.finalRun.1.cmd = none) ∨ d.finalRun.1.dstate = .terminated := by
  have hrun : d.finalRun.1.RunsOrEnded := Device.RunsOrEnded.runN _ (.inl hd)
  obtain h | h := hrun
  · have hstop := d.finalRun_stopped
    simp [Device.running, h] at hstop
  · exact h

/-! ### From the request to its run -/

theorem State.Takes.answering {s : State} {i : Instr} (h : s.Takes i) : s.Answering := by
  have hp : s.dataPending = 0 := by obtain ⟨_, hs⟩ | ⟨_, _, _, _, hs⟩ := h <;> exact hs.noData
  exact ⟨by simp [h.idle], by simp [h.idle], hp⟩

/-- What DSP decodes from a request's mailbox runs as the request itself: WRITE.FIXED with slow byte 0 as WRITE. -/
theorem exists_decoded (i : Instr) : ∃ j : Instr, decode (encode j) = .ok j ∧ encode j = encode i ∧
    j.isWrite = i.isWrite ∧ (∀ p, program p j = program p i) ∧ ∀ st, startStatus st j = startStatus st i := by
  obtain h | ⟨a, b, xl, rfl⟩ := wellFormed_or i
  · exact ⟨i, decode_encode h, rfl, rfl, fun _ => rfl, fun _ => rfl⟩
  · exact ⟨.write a b xl, decode_encode rfl, rfl, rfl, fun _ => rfl, fun _ => rfl⟩

/-- The device a command's statements start from, with the buffer its data phase leaves. -/
def State.launchingWith (s : State) (bf : Vector Slot 64) (i : Instr) : Device :=
  Device.withPos { s.launching i with buf := bf } (program s.params i)

/-- Where one request is taken, every decoded request with as much data owed runs its program, from one and the same
buffer. -/
theorem State.Takes.command_decoded {s : State} {i : Instr} (hs : s.Takes i) :
    ∃ bf, ∀ k : Instr, k.isWrite = i.isWrite → decode (encode k) = .ok k →
      (s.command k).toDevice = (s.launchingWith bf k).finalRun.1 ∧
        (s.command k).busEvents = s.busEvents ++ (s.launchingWith bf k).finalRun.2 := by
  obtain ⟨hw, hr⟩ | ⟨hw, delays, segs, rest, hr⟩ := hs
  · exact ⟨s.buf, fun k hk hdec => s.command_ready k hr hdec (hk.trans hw)⟩
  · have hlen : segs.flatten.toArray.size = 64 := by simpa [isPhase] using hr.phase
    refine ⟨Vector.map .byte ⟨segs.flatten.toArray, hlen⟩, fun k hk hdec => ?_⟩
    rw [State.launchingWith, ← State.launchedWrite_eq]
    exact s.command_readyWrite k delays segs rest hr hdec (hk.trans hw)

/-- The same of every request, whether its term or another with its header is what decodes. -/
theorem State.Takes.command {s : State} {i : Instr} (hs : s.Takes i) :
    ∃ bf, ∀ j : Instr, j.isWrite = i.isWrite →
      (s.command j).toDevice = (s.launchingWith bf j).finalRun.1 ∧
        (s.command j).busEvents = s.busEvents ++ (s.launchingWith bf j).finalRun.2 := by
  obtain ⟨bf, hrun⟩ := hs.command_decoded
  refine ⟨bf, fun j hj => ?_⟩
  obtain ⟨k, hdec, henc, hw, hprog, hst⟩ := exists_decoded j
  have hcmd : s.command k = s.command j := by
    rw [State.command_idle hs.idle, State.command_idle hs.idle]
    simp only [State.accept, State.intoMailbox, henc, hw]
  have hlaunch : s.launchingWith bf k = s.launchingWith bf j := by
    simp only [State.launchingWith, State.launching, henc, hprog, hst]
  rw [← hcmd, ← hlaunch]
  exact hrun k (hw.trans hj) hdec

/-- Two requests equal but for their ignored bits start from devices that differ in the mailbox alone. -/
theorem State.launchingWith_sameNamed {s : State} {i j : Instr} (bf : Vector Slot 64)
    (hij : clearIgnored s.params i = clearIgnored s.params j) :
    s.launchingWith bf i = (s.launchingWith bf j).withCmd (some (Command.ofHeader (encode i))) := by
  have hprog : program s.params i = program s.params j := by
    rw [← program_clearIgnored, hij, program_clearIgnored]
  have hst : startStatus s.status i = startStatus s.status j := by
    rw [← startStatus_clearIgnored s.params, hij, startStatus_clearIgnored]
  simp only [State.launchingWith, State.launching, hprog, hst]
  rfl

/-- Two commands equal but for their ignored bits run the same, and only a terminated run leaves a mailbox. -/
theorem State.Takes.sameCommand {s : State} {i j : Instr} (hs : s.Takes i)
    (hij : clearIgnored s.params i = clearIgnored s.params j) :
    (s.command i).busEvents = (s.command j).busEvents ∧
      (s.command i).toDevice = { (s.command j).toDevice with cmd := (s.command i).cmd } ∧
      ((s.command i).dstate ≠ .terminated → (s.command i).cmd = (s.command j).cmd) := by
  have hw : j.isWrite = i.isWrite := by rw [← isWrite_clearIgnored s.params, ← hij, isWrite_clearIgnored]
  obtain ⟨bf, hrun⟩ := hs.command
  obtain ⟨hdevi, hbusi⟩ := hrun i rfl
  obtain ⟨hdevj, hbusj⟩ := hrun j hw
  obtain ⟨c, hc⟩ := (s.launchingWith bf j).finalRun_withCmd (some (Command.ofHeader (encode i)))
  have hcmdi := Device.finalRun_ended (d := s.launchingWith bf i) rfl
  have hcmdj := Device.finalRun_ended (d := s.launchingWith bf j) rfl
  rw [← hdevi] at hcmdi
  rw [← hdevj] at hcmdj
  rw [State.launchingWith_sameNamed bf hij, hc] at hdevi hbusi
  have hsame : (s.command i).toDevice = (s.command j).toDevice.withCmd c := by rw [hdevi, hdevj]
  refine ⟨hbusi.trans hbusj.symm, by rw [hsame]; rfl, fun hnt => ?_⟩
  have hntj : (s.command j).dstate ≠ .terminated := by rwa [hsame] at hnt
  obtain ⟨_, hi⟩ := hcmdi.resolve_right hnt
  obtain ⟨_, hj⟩ := hcmdj.resolve_right hntj
  rw [hi, hj]

/-- Settles O5: the named bits decide a command's program and status and a query's answer; the mailbox, which holds the
rest, is read by no statement. -/
theorem ignoredBitsHaveNoEffect : Obligations.IgnoredBitsHaveNoEffect := by
  intro s i j hij
  have hqj : j.isQuery = i.isQuery := by rw [← isQuery_clearIgnored s.params, ← hij, isQuery_clearIgnored]
  have answered (hq : i.isQuery = true) (hs : s.Answering) :
      ∃ x n, exec i s = .next { s with trace := .respond (encode i) x :: s.trace, rxDraws := n } ∧
        exec j s = .next { s with trace := .respond (encode j) x :: s.trace, rxDraws := n } := by
    obtain ⟨x, n, hx⟩ := s.rxInstr_sameQuery hq
    rw [exec_query hq, exec_query (hqj.trans hq), hs.onHeader, hs.onHeader, hx i rfl, hx j hij]
    exact ⟨x, n, rfl, rfl⟩
  refine ⟨fun ht => ?_, answered⟩
  have hs : s.Answering := ht.answering
  by_cases hq : i.isQuery = true
  · obtain ⟨x, n, hi, hj⟩ := answered hq hs
    refine ⟨_, _, hi, hj, ?_, rfl, fun _ => rfl⟩
    exact (State.busEvents_of_trace _ _ rfl).trans (State.busEvents_of_trace (s := s) _ _ rfl).symm
  · rw [Bool.not_eq_true] at hq
    rw [exec_command hq, exec_command (hqj.trans hq), hs.onHeader, hs.onHeader]
    exact ⟨_, _, rfl, rfl, ht.sameCommand hij⟩

end Sys2Proof.Machine
end

section
/-! SUPPORT. The bus driver family (40_bus_driver.md), its lines: a line write that makes no edge moves the line alone
(R104), and what each of the three edges makes of the chain (R101 to R103) and of the bus (R117). -/

namespace Sys2Proof.Machine

open Sys2Proof

/-! ### One line write (R104) -/

/-- The device with one line driven to a level, no edge made. -/
def Device.lineAt (d : Device) (x : Line) (b : Bool) : Device := { d with lines := d.lines.put x b }

section
variable {d : Device} {x : Line} {b : Bool}

/-- A line raised from low makes its edge. -/
theorem Device.setLine_rise (h : d.lines.level x = false) :
    d.setLine x true = (((d.lineAt x true).edge x).1, .set x true :: ((d.lineAt x true).edge x).2) := by
  simp only [Device.setLine, h, Bool.not_false, Bool.and_true, if_true]
  rfl

/-- Any other line write makes none. -/
theorem Device.setLine_still (h : ¬(b = true ∧ d.lines.level x = false)) :
    d.setLine x b = (d.lineAt x b, [.set x b]) := by
  have hedge : (b && !d.lines.level x) = false := by simpa using h
  simp only [Device.setLine, hedge]
  rfl

/-- What only the rise of one line changes, every other line write leaves. -/
theorem Device.setLine_same {α : Type} {f : Device → α} {y : Line} (hline : ∀ d x b, f (Device.lineAt d x b) = f d)
    (hedge : ∀ x, x ≠ y → ∀ d : Device, f (d.edge x).1 = f d) (h : ¬(x = y ∧ b = true ∧ d.lines.level y = false)) :
    f (d.setLine x b).1 = f d := by
  by_cases hr : b = true ∧ d.lines.level x = false
  · obtain ⟨rfl, hl⟩ := hr
    have hxy : x ≠ y := by rintro rfl; exact h ⟨rfl, rfl, hl⟩
    rw [Device.setLine_rise hl, hedge x hxy, hline]
  · rw [Device.setLine_still hr, hline]

end

/-! ### The clock edges (R101, R102) -/

/-- A stage that shifts takes the serial input into bit 0. -/
theorem getLsbD_shiftIn_zero (s : Byte) (b : Bool) : (shiftIn s b).getLsbD 0 = b := by
  simp [shiftIn_eq_shiftConcat]

/-- A stage that shifts moves every other bit up by one. -/
theorem getLsbD_shiftIn_succ (s : Byte) (b : Bool) {n : Nat} (hn : n < 7) :
    (shiftIn s b).getLsbD (n + 1) = s.getLsbD n := by
  rw [shiftIn_eq_shiftConcat, BitVec.getLsbD_shiftConcat_eq_decide]
  simp [show n + 1 < 8 by omega]

/-- Only CCLK's edge moves C's shift stage. -/
theorem Device.edge_control_stage (x : Line) (hx : x ≠ .cclk) (d : Device) : (d.edge x).1.c.S = d.c.S := by
  cases x with
  | cclk => exact absurd rfl hx
  | latch => simp [Device.edge]
  | cdat | aclk | adat => rfl

/-- Settles O9: CCLK's rise is one `shiftIn` of CDAT, and no other edge moves C's shift stage. -/
theorem controlEdge : Obligations.ControlEdge := by
  refine fun d => ⟨fun h => ?_, fun l b h => ?_⟩
  · rw [Device.setLine_rise (x := .cclk) h]
    exact ⟨rfl, getLsbD_shiftIn_zero _ _, fun n hn => getLsbD_shiftIn_succ _ _ hn⟩
  · exact Device.setLine_same (f := fun d => d.c.S) (fun _ _ _ => rfl) Device.edge_control_stage h

/-- Settles O10: ACLK's rise is one `shiftIn` of ADAT, and one of A1's outgoing bit where ALS lets it through. -/
theorem addressEdge : Obligations.AddressEdge := by
  intro d h
  have ha2 : (d.setLine .aclk true).1.a2.S =
      if isAsserted .als d.c.Q = true then d.a2.S else shiftIn d.a2.S (d.a1.S.getLsbD 7) := by
    rw [Device.setLine_rise (x := .aclk) h]
    rfl
  have ha1 : (d.setLine .aclk true).1.a1.S = shiftIn d.a1.S d.lines.adat := by
    rw [Device.setLine_rise (x := .aclk) h]
    rfl
  rw [ha1, ha2]
  refine ⟨getLsbD_shiftIn_zero _ _, fun n hn => getLsbD_shiftIn_succ _ _ hn, fun hals => if_pos hals, fun hals => ?_⟩
  rw [if_neg (by simp [hals])]
  exact ⟨getLsbD_shiftIn_zero _ _, fun n hn => getLsbD_shiftIn_succ _ _ hn⟩

/-! ### The latch edge (R103, R117) -/

/-- The three output stages of the chain. -/
def Device.outputs (d : Device) : Byte × Byte × Byte := (d.c.Q, d.a1.Q, d.a2.Q)

/-- Only LATCH's edge changes an output stage (R103). -/
theorem Device.edge_outputs (x : Line) (hx : x ≠ .latch) (d : Device) : (d.edge x).1.outputs = d.outputs := by
  cases x with
  | latch => exact absurd rfl hx
  | cclk | cdat | aclk | adat => rfl

/-- Settles O11: LATCH's rise loads the three output stages, its fall makes no edge, and no other edge changes an
output stage. -/
theorem latchEdge : Obligations.LatchEdge := by
  refine fun d => ⟨fun h => ?_, ?_, fun l b h => ?_⟩
  · rw [Device.setLine_latch_rises d h]
    exact ⟨by simp [Device.latchAt, ShiftReg.latched], by simp [Device.latchAt, ShiftReg.latched],
      by simp [Device.latchAt, ShiftReg.latched]⟩
  · rw [Device.setLine_still (by simp)]
    rfl
  · have hout := Device.setLine_same (f := Device.outputs) (fun _ _ _ => rfl) Device.edge_outputs h
    simpa [Device.outputs] using hout

/-- A latch's write event, where write-enable rises, is at the pins' address before it (R117). -/
theorem Device.latch_event (d : Device) :
    d.latch.2 = if d.weRises then [.busWrite d.pinAddr d.writeData.1] else [] := by
  unfold Device.latch
  split <;> rfl

theorem Device.weRises_iff (d : Device) :
    d.weRises = true ↔ isAsserted .we d.c.Q = true ∧ isAsserted .we d.c.S = false := by
  simp [Device.weRises]

/-- What a write event carries where the port drives a written byte (R117). -/
theorem Device.writeData_output {d : Device} {b : Byte} (hdir : d.portDir = .output) (hout : d.portOut = .byte b) :
    d.writeData.1 = b := by
  simp [Device.writeData, hdir, hout, Device.readSlot]

/-- With the port an input the data of a write event is a draw (R117). -/
theorem Device.writeData_input {d : Device} (hdir : d.portDir = .input) :
    d.writeData.1 = Config.drawByte d.draws := by
  simp [Device.writeData, hdir, Device.draw]

/-- Settles O12: LATCH's rise makes the latch's own event, which there is exactly where write-enable rises. -/
theorem latchWriteEvent : Obligations.LatchWriteEvent := by
  intro d h
  have hwe : (d.latchAt true).weRises = true ↔ isAsserted .we d.c.Q = true ∧ isAsserted .we d.c.S = false :=
    Device.weRises_iff _
  rw [Device.setLine_latch_rises d h, Device.latch_event, ← hwe]
  have hout : ∀ b, d.portDir = .output → d.portOut = .byte b → (d.latchAt true).writeData.1 = b :=
    fun _ hdir hb => Device.writeData_output (d := d.latchAt true) hdir hb
  have hin : d.portDir = .input → (d.latchAt true).writeData.1 = Config.drawByte d.draws :=
    fun hdir => Device.writeData_input (d := d.latchAt true) hdir
  refine ⟨fun hrise => ⟨(d.latchAt true).writeData.1, ?_, hout, hin⟩, fun hno => ?_⟩
  · rw [if_pos hrise]
    rfl
  · rw [if_neg hno]

end Sys2Proof.Machine
end

section
/-! SUPPORT. The bus driver family, contention (R119, R272): between any two statements of a request but the raw pokes
the port is an input, or output-enable is deasserted in the control register and in both stages of C. -/

namespace Sys2Proof.Machine

open Sys2Proof

/-! ### The port and output-enable between two statements -/

/-- Output-enable is deasserted in the control register and in both stages of C. -/
def Device.OeOff (d : Device) : Prop :=
  isAsserted .oe d.ctrl = false ∧ isAsserted .oe d.c.S = false ∧ isAsserted .oe d.c.Q = false

/-- The port is an input, or output-enable is off. -/
def Device.Apart (d : Device) : Prop := d.portDir = .input ∨ d.OeOff

theorem Device.Apart.contention {d : Device} (h : d.Apart) : d.contention = false := by
  obtain hin | ⟨_, _, hpin⟩ := h
  · simp [Device.contention, hin]
  · simp [Device.contention, Device.pinOn, hpin]

/-- Where the pins show the control register, no contention means output-enable is off everywhere (R40, R119). -/
theorem Device.Coherent.apart {d : Device} (h : d.Coherent) (hno : d.contention = false) : d.Apart := by
  cases hdir : d.portDir with
  | input => exact .inl hdir
  | output =>
    have hpin : isAsserted .oe d.c.Q = false := by simpa [Device.contention, hdir, Device.pinOn] using hno
    have hctrl : isAsserted .oe d.c.Q = isAsserted .oe d.ctrl := by
      obtain e | ⟨_, old, e⟩ := h.control <;> rw [e, isAsserted_ctrlByte]
    exact .inr ⟨hctrl ▸ hpin, h.c ▸ hpin, hpin⟩

/-- What a program has made sure of, at one of its positions, about the port and output-enable. -/
inductive Guard
  /-- No more than `Apart`, which the other guards give too. -/
  | apart
  /-- The port is an input. -/
  | input
  /-- Output-enable is deasserted in the control register, and still to be shifted out. -/
  | deasserted
  /-- Output-enable is off, on the pins too. -/
  | off

/-- The guard holds of a device. -/
def Guard.Holds (d : Device) : Guard → Prop
  | .apart => d.Apart
  | .input => d.portDir = .input
  | .deasserted => isAsserted .oe d.ctrl = false ∧ d.Apart
  | .off => d.OeOff

theorem Guard.Holds.apart {d : Device} {g : Guard} (h : g.Holds d) : d.Apart := by
  cases g with
  | apart => exact h
  | input => exact .inl h
  | deasserted => exact h.2
  | off => exact .inr h

/-- A guard asks after the port, the control register's output-enable and `OeOff` alone. -/
theorem Guard.Holds.of_same {d e : Device} {g : Guard} (h : g.Holds d) (hdir : e.portDir = d.portDir)
    (hctrl : isAsserted .oe e.ctrl = isAsserted .oe d.ctrl) (hoff : d.OeOff → e.OeOff) : g.Holds e := by
  have hapart : d.Apart → e.Apart := Or.imp hdir.trans hoff
  cases g with
  | apart => exact hapart h
  | input => exact hdir.trans h
  | deasserted => exact ⟨hctrl.trans h.1, hapart h.2⟩
  | off => exact hoff h

/-- The guard after a statement; none where the statement asks for more than the guard before it gives: the port turns
to output with output-enable off, and output-enable is asserted with the port an input. -/
def Stmt.guard : Stmt → Guard → Option Guard
  | .setDir .input, _ => some .input
  | .setDir .output, .off => some .off
  | .setDir .output, _ => none
  | .setFlag .oe false, _ => some .deasserted
  | .setFlag .oe true, .input => some .input
  | .setFlag .oe true, _ => none
  | .shiftControl, .deasserted => some .off
  | .loadCtrl _, _ => none
  | _, g => some g

/-- A control shift leaves output-enable as the control register has it. -/
theorem Device.shiftControl_oeOff {d : Device} (h : isAsserted .oe d.ctrl = false) : d.shiftControl.1.OeOff := by
  simp [Device.OeOff, h]

/-- A statement makes sure of the guard after it. -/
theorem Stmt.exec_guard (st : Stmt) {g g' : Guard} {d : Device} (hst : st.guard g = some g') (h : g.Holds d) :
    g'.Holds (st.exec d).1 := by
  cases st with
  | setDir p =>
    cases p with
    | input => cases hst; exact rfl
    | output => cases g <;> cases hst; exact h
  | setFlag f on =>
    cases f with
    | oe =>
      cases on with
      | false =>
        cases hst
        have hctrl : isAsserted .oe (writeFlag .oe false d.ctrl) = false := by simp
        exact ⟨hctrl, h.apart.imp_right fun ⟨_, hS, hQ⟩ => ⟨hctrl, hS, hQ⟩⟩
      | true => cases g <;> cases hst; exact h
    | we | als | led => cases hst; exact h.of_same rfl (by simp [Stmt.exec]) (by simp [Stmt.exec, Device.OeOff])
  | loadCtrl c => cases hst
  | shiftControl =>
    have hkeep : g.Holds (Stmt.exec .shiftControl d).1 :=
      h.of_same (by simp [Stmt.exec]) (by simp [Stmt.exec]) fun hoff => Device.shiftControl_oeOff hoff.1
    cases g with
    | deasserted => cases hst; exact Device.shiftControl_oeOff h.1
    | apart | input | off => cases hst; exact hkeep
  | loadLowShift =>
    cases hst
    simp only [Stmt.exec]
    split
    · exact h
    · exact h.of_same (by simp) (by simp) fun hoff => Device.shiftControl_oeOff hoff.1
  | loadLowAssert =>
    cases hst
    simp only [Stmt.exec]
    split
    · exact h
    · exact h.of_same rfl (by simp) (by simp [Device.OeOff])
  | poll k =>
    cases hst
    cases k with
    | zero => exact h.of_same rfl rfl id
    | succ k =>
      simp only [Stmt.exec, Device.pollSample]
      split <;> exact h.of_same (by simp) (by simp) (by simp [Device.OeOff])
  | eraseCheck => cases hst; simp only [Stmt.exec]; split <;> exact h.of_same rfl rfl id
  | _ =>
    cases hst
    exact h.of_same (by simp [Stmt.exec]) (by simp [Stmt.exec]) (by simp +contextual [Stmt.exec, Device.OeOff])

/-! ### A guarded run -/

/-- The statements, from a guard, ask for no more than the guards give. -/
def guarded (l : List Stmt) (g : Guard) : Bool := (l.foldlM (fun g st => Stmt.guard st g) g).isSome

/-- DSP stands where a guard holds under which the rest of its statements are guarded. -/
def Device.Guarded (d : Device) : Prop := ∃ g : Guard, g.Holds d ∧ guarded d.pos g = true

theorem guarded_cons (st : Stmt) (l : List Stmt) (g : Guard) :
    guarded (st :: l) g = true ↔ ∃ g', st.guard g = some g' ∧ guarded l g' = true := by
  simp only [guarded, List.foldlM_cons]
  cases st.guard g <;> simp

theorem Device.Guarded.finish {d : Device} (h : d.Guarded) : d.finish.Guarded := by
  obtain ⟨_, _, e⟩ | ⟨_, e⟩ := d.finish_cases <;> rw [e]
  · obtain ⟨g, hg, _⟩ := h
    exact ⟨g, hg.of_same rfl rfl id, rfl⟩
  · exact h

theorem Device.Guarded.statement {d : Device} (h : d.Guarded) : d.statement.1.Guarded := by
  obtain ⟨g, hg, hl⟩ := h
  unfold Device.statement
  split
  · exact ⟨g, hg.of_same rfl rfl id, rfl⟩
  · rename_i st rest hp
    rw [hp, guarded_cons] at hl
    obtain ⟨g', hst, hrest⟩ := hl
    have hx : g'.Holds (st.exec (d.withPos rest)).1 := st.exec_guard hst (hg.of_same rfl rfl id)
    refine Device.Guarded.finish ⟨g', hx, ?_⟩
    obtain e | e | ⟨k, _, e⟩ := st.exec_pos (d.withPos rest) <;> rw [e]
    · rfl
    · exact hrest
    · exact (guarded_cons _ _ _).2 ⟨g', rfl, hrest⟩

theorem Device.Guarded.runN (n : Nat) {d : Device} (h : d.Guarded) : (d.runN n).1.Guarded := by
  induction n generalizing d with
  | zero => exact h
  | succ n ih =>
    simp only [Device.runN]
    split
    · exact ih h.statement
    · exact h

/-! ### Every program but the raw pokes' is guarded -/

/-- The statements are guarded from every guard: each bus cycle is, for it settles output-enable and the port itself. -/
def SelfGuarded (l : List Stmt) : Prop := ∀ g, guarded l g = true

theorem SelfGuarded.append {l1 l2 : List Stmt} (h1 : SelfGuarded l1) (h2 : SelfGuarded l2) :
    SelfGuarded (l1 ++ l2) := by
  intro g
  obtain ⟨g', hg'⟩ := Option.isSome_iff_exists.1 (h1 g)
  rw [guarded, List.foldlM_append, hg']
  exact h2 g'

theorem SelfGuarded.flatMap {α : Type} {f : α → List Stmt} (h : ∀ x, SelfGuarded (f x)) (xs : List α) :
    SelfGuarded (xs.flatMap f) := by
  induction xs with
  | nil => exact fun _ => rfl
  | cons x xs ih => exact (h x).append ih

theorem busWrite_selfGuarded (a : Half) (v : Byte) : SelfGuarded (busWrite a v) := fun g => by cases g <;> rfl

theorem busRead_selfGuarded (p : Params) (a : Half) : SelfGuarded (busRead p a) := fun g => by cases g <;> rfl

theorem setupCommon_selfGuarded (b : Nibble) : SelfGuarded (setupCommon b) := fun g => by cases g <;> rfl

theorem programByte_selfGuarded (p : Params) (t : Half) (i : Fin 64) (v : Variant) :
    SelfGuarded (programByte p t i v) := fun g => by cases v <;> cases g <;> rfl

theorem progChunk_selfGuarded (p : Params) (a : Half) (b : Nibble) (v : Variant) : SelfGuarded (progChunk p a b v) := by
  have hbank : SelfGuarded [.loadBank b] := fun _ => rfl
  have hpoll : SelfGuarded (pollFirst p v) := fun _ => by cases v <;> rfl
  have hstatus : SelfGuarded [.setStatus .initialised] := fun _ => rfl
  exact ((hbank.append (SelfGuarded.flatMap (fun i => programByte_selfGuarded p _ i v) _)).append hpoll).append hstatus

theorem progReadArm_selfGuarded (p : Params) (a : Half) (b : Nibble) : SelfGuarded (progReadArm p a b) := by
  have hbank : SelfGuarded [.loadBank b] := fun _ => rfl
  have hstore : SelfGuarded [.storeBuf 0] := fun _ => rfl
  have hnext : ∀ i, SelfGuarded (readNext p i) := fun i g => by cases g <;> rfl
  exact ((hbank.append (busRead_selfGuarded p a)).append hstore).append (SelfGuarded.flatMap hnext _)

theorem idRead_selfGuarded (p : Params) (b : Nibble) {l : List Stmt} (hl : SelfGuarded l) (a : Half) :
    SelfGuarded (setupCommon b ++ idEntry ++ l ++ busRead p a ++ [.storeData]) := by
  have hentry : SelfGuarded idEntry := fun g => by cases g <;> rfl
  have hstore : SelfGuarded [.storeData] := fun _ => rfl
  exact ((((setupCommon_selfGuarded b).append hentry).append hl).append (busRead_selfGuarded p a)).append hstore

theorem erasePolls_selfGuarded (p : Params) (a : Half) (k : Nat) : SelfGuarded (erasePolls p a k) := by
  induction k with
  | zero => exact fun _ => rfl
  | succ k ih =>
    have hpoll : SelfGuarded (erasePoll p a) := fun g => by cases g <;> rfl
    exact hpoll.append ih

theorem erase_selfGuarded (p : Params) (b : Nibble) (f a : Half) (fd : Byte) :
    SelfGuarded (setupCommon b ++ eraseCommand p f fd ++ eraseWait p a) := by
  have hunlock : SelfGuarded (eraseUnlock p.erasePrefix) := fun g => by cases p.erasePrefix <;> cases g <;> rfl
  have hcommand : SelfGuarded (eraseCommand p f fd) :=
    (((hunlock.append (busWrite_selfGuarded _ _)).append (busWrite_selfGuarded _ _)).append
      (busWrite_selfGuarded _ _)).append (busWrite_selfGuarded _ _)
  have hfail : SelfGuarded [.fail .eraseFailed] := fun _ => rfl
  exact ((setupCommon_selfGuarded b).append hcommand).append ((erasePolls_selfGuarded p a _).append hfail)

/-- Every program but SET_CONTROL's and SET_DATA's is guarded, whatever it starts from. -/
theorem program_selfGuarded (p : Params) {i : Instr} (hctrl : ∀ c x0 x1, i ≠ .setControl c x0 x1)
    (hdata : ∀ d x0 x1, i ≠ .setData d x0 x1) : SelfGuarded (program p i) := by
  cases i with
  | setControl c x0 x1 => exact absurd rfl (hctrl c x0 x1)
  | setData d x0 x1 => exact absurd rfl (hdata d x0 x1)
  | write a b xl => exact progChunk_selfGuarded p a b _
  | writeFixed a sl b xl => exact progChunk_selfGuarded p a b _
  | readArm a b xh xm => exact progReadArm_selfGuarded p a _
  | setupEraseChip a b xm => exact erase_selfGuarded p _ _ a _
  | setupEraseSector a b xm => exact erase_selfGuarded p _ _ a _
  | _ => exact fun g => by cases g <;> rfl

/-- Settles O52: DSP runs a guarded program from a device whose port and output-enable are apart, so they stay so
between any two of its statements, wherever the run ends; a query leaves the device alone. -/
theorem noContentionFromCycles : Obligations.NoContentionFromCycles := by
  intro s t i hs hcoh hno hctrl hdata h
  by_cases hq : i.isQuery = true
  · rw [exec_query hq] at h
    rw [(State.onHeader_next h).1, State.rxInstr_query hq]
    exact hno
  · rw [exec_command (by simpa using hq)] at h
    obtain ⟨bf, hrun⟩ := hs.command
    have hstart : Guard.apart.Holds (s.launchingWith bf i) :=
      Guard.Holds.of_same (g := .apart) (hcoh.apart hno) rfl rfl id
    have hguarded : (s.launchingWith bf i).Guarded := ⟨.apart, hstart, program_selfGuarded s.params hctrl hdata _⟩
    obtain ⟨g, hg, _⟩ : (s.launchingWith bf i).finalRun.1.Guarded := hguarded.runN _
    rw [(State.onHeader_next h).1, (hrun i rfl).1]
    exact hg.apart.contention

end Sys2Proof.Machine
end

section
/-! SUPPORT. The dispatcher family (41_dispatcher.md), RX: what a header's arrival comes to in each dispatcher state, the
two queries, the race, and the data phase (R130 to R133, R140, R141). -/

namespace Sys2Proof.Machine

open Sys2Proof

/-! ### A header's arrival in each dispatcher state (R130) -/

/-- Whatever a request does, it does where its header has a move. -/
theorem exec_onHeader (i : Instr) (s : State) : ∃ t, exec i s = s.onHeader t := by
  by_cases hq : i.isQuery = true
  · exact ⟨_, exec_query hq s⟩
  · exact ⟨_, exec_command (by simpa using hq) s⟩

theorem exec_initialising {s : State} (h : s.dstate = .initialising) (i : Instr) :
    exec i s = .fault .headerBeforeIdle := by
  obtain ⟨t, ht⟩ := exec_onHeader i s
  rw [ht, State.onHeader, h]

theorem exec_terminated {s : State} (h : s.dstate = .terminated) (i : Instr) : exec i s = .fault .terminated := by
  obtain ⟨t, ht⟩ := exec_onHeader i s
  rw [ht, State.onHeader, h]

theorem exec_owed {s : State} (hi : s.dstate ≠ .initialising) (ht : s.dstate ≠ .terminated) (hp : s.dataPending ≠ 0)
    (i : Instr) : exec i s = .fault .headerInDataPhase := by
  obtain ⟨t, he⟩ := exec_onHeader i s
  rw [he, State.onHeader]
  cases hd : s.dstate with
  | initialising => exact absurd hd hi
  | terminated => exact absurd hd ht
  | idle | commandReceived | executing => exact if_neg hp

/-- Settles O39: `onHeader`, through which every request goes, has one answer in each of the three cases. -/
theorem headerWithoutMove : Obligations.HeaderWithoutMove := fun _ i =>
  ⟨fun h => exec_initialising h i, fun h => exec_terminated h i, fun hi ht hp => exec_owed hi ht hp i⟩

/-- Outside IDLE a command's arrival is RX's one step (R132). -/
theorem exec_busy {s : State} {i : Instr} (hq : i.isQuery = false) (hs : s.Answering) (hd : s.dstate ≠ .idle) :
    exec i s = .next (s.rxCommand i) := by
  rw [exec_command hq, hs.onHeader, State.command_busy hd]

/-- Settles O36: RX drops the command with its ack. -/
theorem commandDroppedWhileExecuting : Obligations.CommandDroppedWhileExecuting := by
  intro s i hq hd hp
  rw [exec_busy hq ⟨by simp [hd], by simp [hd], hp⟩ (by simp [hd]), s.rxCommand_executing i hd]
  rfl

/-- Settles O37: the race is a drop or an acceptance, and both give the ack. -/
theorem overlapRace : Obligations.OverlapRace := by
  intro s i hq hd hp
  have hrx : s.rxCommand i = s.raceCommand i := by rw [State.rxCommand, hd]
  rw [exec_busy hq ⟨by simp [hd], by simp [hd], hp⟩ (by simp [hd]), hrx]
  refine ⟨_, rfl, ?_⟩
  unfold State.raceCommand
  split
  · refine ⟨rfl, rfl, rfl, .inr ?_⟩
    rw [State.accept_toDevice, hp, ← hd]
    rfl
  · exact ⟨rfl, rfl, rfl, .inl rfl⟩

/-! ### The queries (R140, R141) -/

/-- Settles O16: the data byte of the answer is `rxByte` of the slot. -/
theorem getDataAnswer : Obligations.GetDataAnswer := by
  intro s x0 x1 hs
  refine ⟨rxByte s.rxDraws s.data, fun b hb => by rw [hb]; rfl, fun hu => by rw [hu]; rfl, ?_⟩
  rw [exec_query rfl, hs.onHeader]
  rfl

/-- READ_FETCH's 64 bytes as a vector. -/
def State.fetched (s : State) : Vector Byte 64 := Vector.ofFn fun i => rxByte (s.rxDraws + i.val) (s.buf.get i)

theorem State.fetched_get (s : State) (n : Fin 64) : s.fetched.get n = rxByte (s.rxDraws + n.val) (s.buf.get n) := by
  simp [State.fetched]

theorem State.bufferAnswer_fetched (s : State) : s.bufferAnswer = .buffer s.fetched.toList := by
  rw [State.fetched, Vector.toList_ofFn, List.ofFn_eq_map]
  rfl

/-- Settles O17: entry `n` of the answer is `rxByte` of slot `n`. -/
theorem readFetchAnswer : Obligations.ReadFetchAnswer := by
  intro s x0 x1 hs
  refine ⟨s.fetched, fun n b hb => ?_, fun n hu => ?_, ?_⟩
  · rw [State.fetched_get, hb]; rfl
  · rw [State.fetched_get, hu]; rfl
  · rw [exec_query rfl, hs.onHeader, ← State.bufferAnswer_fetched]
    rfl

/-! ### Data segments (R133) -/

/-- Segments one after another are one long segment. -/
theorem State.foldl_rxData (segs : List (List Byte)) (s : State) :
    segs.foldl State.rxData s = s.rxData segs.flatten := by
  induction segs generalizing s with
  | nil => rfl
  | cons seg segs ih =>
    rw [List.foldl_cons, ih, List.flatten_cons]
    simp only [State.rxData, Device.dataSegment_append]

/-- Settles O40: the segments are one, whose first 64 bytes fill the buffer, and after them nothing is owed. -/
theorem dataPhaseFillsBuffer : Obligations.DataPhaseFillsBuffer := by
  intro s segs bytes extra hp hflat
  rw [State.foldl_rxData, hflat, State.rxData, Device.dataSegment_append, Device.dataSegment_phase hp,
    Device.dataSegment_none _ extra rfl]

theorem State.rxData_unowed {s : State} (h : s.dataPending = 0) (seg : List Byte) : s.rxData seg = s := by
  rw [State.rxData, Device.dataSegment_none _ seg h]

/-- Settles O41: RX drops the segment, and where it is due RX moves before DSP. -/
theorem strayDataDropped : Obligations.StrayDataDropped := by
  intro s seg dl rest hp hl
  have hdrop : State.rxData { s with link := rest } seg = { s with link := rest } :=
    State.rxData_unowed (s := { s with link := rest }) hp seg
  have hrx : s.rxStep = { s with link := rest } := by rw [State.rxStep_cons hl]; exact hdrop
  have hinput : s.stepInput = .next { s with link := rest } := by simp [State.stepInput, hl, hdrop]
  refine ⟨hrx, fun hd => ?_, fun hd hdl => ?_, fun hd hdl => ?_⟩
  · simp [step, hd, hinput]
  · have hmoves : s.rxMoves = true := by simp [State.rxMoves, hl, hd, hp, hdl]
    simp [step, hd, hmoves, hinput]
  · have hmoves : s.rxMoves = true := by simp [State.rxMoves, hl, hd, hdl]
    rw [State.tick, if_pos hmoves, hrx]

/-! ### The head of the link (R130, R134) -/

/-- Settles O55: the header leaves the link, decodes, and its request runs. -/
theorem stepRunsRequest : Obligations.StepRunsRequest := by
  intro s hd
  refine ⟨fun h i dl rest hdec hl => ?_, fun hl => ?_⟩
  · rw [step_header hd hl, State.stepHeader, hdec]
  · simp [step, hd, State.stepInput, hl]

theorem decode_of_decodeTableWord {nbits w : Nat} {i : Instr} (h : decodeTableWord nbits w = some i) :
    decode (headerOfTable nbits w) = .ok i := by
  unfold decodeTableWord at h
  cases hd : decode (headerOfTable nbits w) with
  | unsupported | refused => simp [hd] at h
  | ok j => simpa [hd] using h

/-- Settles O57: the placed word heads the link of a machine in IDLE, with nothing but its data phase after it. -/
theorem fetchedWordRuns : Obligations.FetchedWordRuns := by
  intro s w i hw
  have hdec := decode_of_decodeTableWord hw
  refine ⟨{ s.withFetchWord 40 w with link := dataPhaseOf (headerOfTable 40 w) }, ?_, rfl, rfl, ?_⟩
  · exact (stepRunsRequest (s.withFetchWord 40 w) rfl).1 _ i 0 _ hdec rfl
  · simp only [dataPhaseOf, hdec]

theorem isQuery_of_isWrite {i : Instr} (h : i.isWrite = true) : i.isQuery = false := by
  cases i with
  | write | writeFixed => rfl
  | _ => cases h

/-- Settles O35: with 64 bytes owed DSP cannot start, and with nothing on the link RX has no step. -/
theorem writeWaitsForItsData : Obligations.WriteWaitsForItsData := by
  intro s i hw hd hp hl
  have hstart : (s.accept i).startable = false := by simp [Device.startable, hw]
  have hlink : (s.accept i).link = [] := hl
  have hrest : (s.accept i).settle = s.accept i := by
    simp only [State.settle, hlink, List.length_nil, State.takeInputs, hstart, Bool.false_eq_true, if_false]
  refine ⟨s.accept i, ?_, ?_, State.busEvents_of_trace _ _ rfl, ?_⟩
  · rw [exec_command (isQuery_of_isWrite hw), State.onHeader_ready _ _ (by simp [hd]) (by simp [hd]) hp,
      State.command_idle hd, hrest]
  · rw [State.accept_toDevice, if_pos hw]
    rfl
  · rw [step, show (s.accept i).dstate = .commandReceived from rfl]
    simp only [hstart, Bool.false_and, Bool.false_eq_true, if_false, State.stepInput, hlink]

end Sys2Proof.Machine
end

section
/-! SUPPORT. The dispatcher family, the register requests (R137 to R139, R142): each program is a straight block from the
launched device, or BOOTLOADER's one statement. -/

namespace Sys2Proof.Machine

open Sys2Proof

/-! ### From the launched device to the result -/

/-- The device running the request of a header, its registers as they stood (R131, R134). -/
def Device.taking (d : Device) (h : Header) : Device :=
  { d with cmd := some (Command.ofHeader h), dstate := .executing }

/-- A request that owes no data and writes no status starts from the registers as they stand. -/
theorem State.Ready.launching_eq {s : State} (hs : s.Ready) {i : Instr} (hw : requestWrites i ≠ some .status) :
    s.launching i = s.toDevice.taking (encode i) := by
  rw [State.launching, startStatus_eq hw, ← hs.noData]
  rfl

theorem isWrite_of_requestWrites {i : Instr} (h : requestWrites i ≠ some .status) : i.isWrite = false := by
  cases i with
  | write | writeFixed => exact absurd rfl h
  | _ => rfl

/-- A straight program answers with what its statements make of the registers and of the bus. -/
theorem State.Ready.exec_straight {s : State} (hs : s.Ready) {i : Instr} (hq : i.isQuery = false)
    (hdec : decode (encode i) = .ok i) (hw : requestWrites i ≠ some .status)
    (hl : (program s.params i).all Stmt.straight = true) {d' : Device} {es : List Event}
    (he : execAll (program s.params i) (s.toDevice.taking (encode i)) = (d', es)) :
    ∃ t, Machine.exec i s = .next t ∧ t.toDevice = d'.complete ∧ t.busEvents = s.busEvents ++ es := by
  rw [exec_command hq]
  refine Runs.command hs hdec (isWrite_of_requestWrites hw) ?_
  rw [hs.launching_eq hw]
  exact Runs.of_execAll rfl hl he

/-! ### SET_CONTROL (R137) -/

theorem Device.riseWrites_eq (d : Device) (c : Byte) :
    d.riseWrites c = if d.pinOn .we && !isAsserted .we c then [(d.pinAddr, d.eventData)] else [] := by
  rw [Device.riseWrites, Device.writeData_eq]

theorem Device.riseDraws_eq (d : Device) (c : Byte) :
    d.riseDraws c = if d.pinOn .we && !isAsserted .we c then d.eventDraws else d.draws := by
  rw [Device.riseDraws, Device.writeData_eq]

theorem Device.riseWrites_taking (d : Device) (h : Header) (c : Byte) :
    (d.taking h).riseWrites c = d.riseWrites c := by
  rw [Device.riseWrites_eq, Device.riseWrites_eq]
  rfl

theorem Device.riseDraws_taking (d : Device) (h : Header) (c : Byte) : (d.taking h).riseDraws c = d.riseDraws c := by
  rw [Device.riseDraws_eq, Device.riseDraws_eq]
  rfl

/-- A control shift of a new control byte, its write event told by the pins and that byte (R108, R117). -/
theorem Device.shiftControl_loaded (d : Device) (c : Byte) :
    Device.shiftControl { d with ctrl := c } =
      ({ d with
          ctrl := c
          c := { S := ctrlByte c d.bank, Q := ctrlByte c d.bank }
          a1 := d.a1.latched
          a2 := d.a2.latched
          lines := { d.lines with cclk := true, cdat := (ctrlByte c d.bank).getLsbD 0, latch := true }
          fstate := d.fstateAfter (d.riseWrites c)
          fmem := d.fmemAfter (d.riseWrites c)
          draws := d.riseDraws c },
        shiftEvents .cclk .cdat (msbFirst (ctrlByte c d.bank)) ++ riseEvents (d.riseWrites c)) := by
  have hfalls : Device.weFalls { d with ctrl := c } = (d.pinOn .we && !isAsserted .we c) := rfl
  rw [Device.shiftControl_eq, Device.riseWrites_eq, Device.riseDraws_eq]
  simp only [Device.nextFstate, Device.nextFmem, Device.nextDraws, Device.eventOf, hfalls]
  cases d.pinOn .we && !isAsserted .we c <;> rfl

/-- A control shift shows 26 line writes and its write event (R108, R285). -/
theorem log_controlShift (v : Byte) (ws : List (Addr20 × Byte)) :
    BusLog.of (shiftEvents .cclk .cdat (msbFirst v) ++ riseEvents ws) =
      { events := riseEvents ws, lineWrites := 26 } := by
  have hrise : BusLog.of (riseEvents ws) = { events := riseEvents ws } :=
    BusLog.of_noSets fun e he => by
      obtain ⟨w, _, rfl⟩ := List.mem_map.1 he
      rfl
  rw [BusLog.of_append, BusLog.of_shiftEvents, hrise, msbFirst_length]
  simp [BusLog.append]

theorem execAll_setControl (d : Device) (c : Byte) :
    execAll (progSetControl c) d = Device.shiftControl { d with ctrl := c } := by
  simp only [progSetControl, execAll_cons, execAll_nil, Stmt.exec, List.nil_append, List.append_nil]

/-- Settles O13: the program is one control shift of the new byte. -/
theorem setControlResult : Obligations.SetControlResult := by
  intro s c x0 x1 hs
  obtain ⟨t, ht, hdev, hbus⟩ := hs.exec_straight (i := .setControl c x0 x1) rfl (decode_encode rfl)
    (by simp [requestWrites]) rfl ((execAll_setControl _ c).trans (Device.shiftControl_loaded _ c))
  rw [Device.riseWrites_taking] at hdev hbus
  rw [Device.riseDraws_taking] at hdev
  exact ⟨t, ht, hdev, _, hbus, log_controlShift _ _⟩

/-! ### SET_ADDRESS (R138) -/

/-- The program in closed form: with write-enable shown on the pins its shifts make no event. -/
theorem execAll_setAddress {d : Device} (a : Half) (b : Nibble) (hwe : d.weShown) :
    execAll (progSetAddress a b) d =
      (Device.shown
        { d with bank := b, addrHi := hiByte a, addrLo := loByte a, ctrl := writeFlag .als false d.ctrl },
        shiftEvents .cclk .cdat (msbFirst (ctrlByte (writeFlag .als false d.ctrl) b)) ++
          shiftEvents .aclk .adat (msbFirst a)) := by
  have hload : execAll ([.loadBank b] ++ loadAddr a) d =
      ({ d with bank := b, addrHi := hiByte a, addrLo := loByte a }, []) := rfl
  have hfalls : Device.weFalls { d with bank := b, addrHi := hiByte a, addrLo := loByte a } = false :=
    Device.weFalls_shown hwe
  rw [progSetAddress, execAll_append, hload, execAll_loadFull]
  simp only [Device.nextFstate, Device.nextFmem, Device.nextDraws, Device.eventOf, hfalls, Bool.false_eq_true, if_false,
    addr16_hi_lo, List.append_nil, List.nil_append]

/-- Settles O14: the chain shows the loaded registers, so the pins hold the address. -/
theorem setAddressResult : Obligations.SetAddressResult := by
  intro s a b xh xl hs hwe
  obtain ⟨t, ht, hdev, hbus⟩ := hs.exec_straight (i := .setAddress a b xh xl) rfl (decode_encode rfl)
    (by simp [requestWrites]) rfl (execAll_setAddress (d := s.toDevice.taking _) a b hwe)
  refine ⟨t, ht, hdev, ?_, _, hbus, ?_⟩
  · rw [hdev]
    exact (Device.pinAddr_shown _).trans (congrArg (addr20 b) (addr16_hi_lo a))
  · rw [BusLog.of_append, BusLog.of_shiftEvents, BusLog.of_shiftEvents, msbFirst_length, msbFirst_length]
    rfl

/-! ### SET_DATA and BOOTLOADER (R139, R142) -/

/-- Settles O15: the program's three statements, each one write. -/
theorem setDataResult : Obligations.SetDataResult := fun s d x0 x1 hs =>
  hs.exec_straight (i := .setData d x0 x1) rfl (decode_encode rfl) (by simp [requestWrites]) rfl
    (d' := { s.toDevice.taking _ with data := .byte d, portDir := .output, portOut := .byte d }) rfl

/-- Settles O18: the one statement ends the run without completing it, and TERMINATED has no step and no arrival. -/
theorem bootloaderTerminates : Obligations.BootloaderTerminates := by
  intro s x0 x1 hs
  have hrun : (s.launched (.bootloader x0 x1)).finalRun =
      ({ (s.toDevice.taking (encode (.bootloader x0 x1))).withPos [] with dstate := .terminated }, []) := by
    rw [State.launched_eq, hs.launching_eq (by simp [requestWrites])]
    exact finalRun_terminate _ rfl
  obtain ⟨hdev, hbus⟩ := s.command_ready (.bootloader x0 x1) hs (decode_encode rfl) rfl
  rw [hrun] at hdev hbus
  have hterm : (s.command (.bootloader x0 x1)).dstate = .terminated := by rw [hdev]
  refine ⟨_, by rw [exec_command rfl, hs.onHeader], hdev, ⟨[], hbus, rfl⟩, ?_, exec_terminated hterm⟩
  rw [step, hterm]

end Sys2Proof.Machine
end

section
/-! SUPPORT. The dispatcher family, runs: a step is a number of atomic steps (R136, R228), and a running command comes to
rest whatever the host sends (R135, R143, R145). -/

namespace Sys2Proof.Machine

open Sys2Proof

/-! ### A running command (R135, R143) -/

theorem step_executing {s : State} (h : s.dstate = .executing) : step s = .next s.runCommand := by
  rw [step, h]

/-- Settles O42: the run is DSP's own, of the device alone. -/
theorem runningCommandUndisturbed : Obligations.RunningCommandUndisturbed := by
  intro s1 s2 hdev hd hp
  obtain ⟨hdev1, hbus1⟩ := s1.runCommand_device hp
  obtain ⟨hdev2, hbus2⟩ := s2.runCommand_device (hdev ▸ hp)
  rw [← hdev] at hdev2 hbus2
  exact ⟨_, _, _, step_executing hd, step_executing (hdev ▸ hd), hdev1.trans hdev2.symm, hbus1, hbus2⟩

/-- A command's run has a last statement, which DSP executes (R135, R145). -/
theorem Device.finalRun_last {d : Device} (hd : d.dstate = .executing) :
    ∃ e : Device, e.dstate = .executing ∧ d.finalRun.1 = e.statement.1 := by
  induction hn : stepBound d.pos using Nat.strong_induction_on generalizing d with
  | _ n ih =>
    have hstep : d.finalRun.1 = d.statement.1.finalRun.1 := by
      rw [d.finalRun_step (Device.running_executing hd)]
    by_cases hrun : d.statement.1.running = true
    · have hcost := d.statement_cost.resolve_left (by simp [hrun])
      have hexec : d.statement.1.dstate = .executing := by
        obtain h | h | h := d.statement_dstate hd
        · exact h
        · simp [Device.running, h] at hrun
        · simp [Device.running, h] at hrun
      rw [hstep]
      exact ih _ (hn ▸ hcost) hexec rfl
    · exact ⟨d, hd, by rw [hstep, Device.finalRun_done _ (by simpa using hrun)]⟩

/-- A statement that leads from EXECUTING to IDLE leaves nothing to run. -/
theorem Device.statement_idle_pos {d : Device} (hd : d.dstate = .executing) (h : d.statement.1.dstate = .idle) :
    d.statement.1.pos = [] := by
  unfold Device.statement at h ⊢
  split at h <;> rename_i hpos
  · rfl
  · rename_i st rest
    dsimp only at h ⊢
    obtain ⟨_, _, hfin⟩ | ⟨_, hfin⟩ := (st.exec (d.withPos rest)).1.finish_cases <;> rw [hfin] at h ⊢
    · rfl
    · exact st.exec_idle (d := d.withPos rest) hd h

/-- Settles O43: the run ends, and its last statement completes the command or terminates. -/
theorem commandComesToRest : Obligations.CommandComesToRest := by
  intro s hd hp
  obtain ⟨hdev, _⟩ := s.runCommand_device hp
  obtain ⟨e, he, hlast⟩ := Device.finalRun_last hd
  refine ⟨_, step_executing hd, ?_, ?_⟩ <;> rw [hdev]
  · exact s.toDevice.finalRun_dataPending.trans hp
  · refine (Device.finalRun_ended hd).imp_left fun ⟨hidle, hcmd⟩ => ⟨hidle, hcmd, ?_⟩
    rw [hlast] at hidle ⊢
    exact Device.statement_idle_pos he hidle

/-! ### A step as atomic steps (R136, R228) -/

/-- Some number of atomic steps leads from one state to the other. -/
def State.Reaches (s t : State) : Prop := ∃ n, t = State.atomicStep^[n] s

theorem State.Reaches.trans {s t u : State} (h1 : s.Reaches t) (h2 : t.Reaches u) : s.Reaches u := by
  obtain ⟨n, rfl⟩ := h1
  obtain ⟨m, rfl⟩ := h2
  exact ⟨m + n, (Function.iterate_add_apply _ m n s).symm⟩

theorem State.reaches_atomicStep (s : State) : s.Reaches s.atomicStep := ⟨1, rfl⟩

theorem State.atomicStep_rxMoves {s : State} (h : s.rxMoves = true) : s.atomicStep = s.rxStep := by
  have hd : s.dstate ≠ .idle := fun hd => by
    unfold State.rxMoves at h
    split at h <;> simp [hd] at h
  rw [State.atomicStep_busy hd, State.tick, if_pos h]

theorem State.atomicStep_dsp {s : State} (hd : s.dstate ≠ .idle) (h : s.rxMoves = false) : s.atomicStep = s.dspMove := by
  rw [State.atomicStep_busy hd, State.tick, if_neg (by simp [h])]

/-- RX's step takes one input from the link. -/
theorem State.rxStep_link {s : State} {a : Arrival} {rest : List Arrival} (h : s.link = a :: rest) :
    s.rxStep.link = rest := by
  rw [State.rxStep_cons h]
  cases a.input with
  | header hh => exact State.rxHeader_link _ hh
  | data seg => rfl

theorem State.rxMoves_link {s : State} (h : s.rxMoves = true) : ∃ a rest, s.link = a :: rest := by
  cases hl : s.link with
  | nil => simp [State.rxMoves, hl] at h
  | cons a rest => exact ⟨a, rest, rfl⟩

/-- After the inputs due before the start no other is due. -/
theorem State.takeInputs_rxMoves (n : Nat) {s : State} (hn : s.link.length ≤ n)
    (hd : (State.takeInputs n s).dstate = .commandReceived) : (State.takeInputs n s).rxMoves = false := by
  induction n generalizing s with
  | zero =>
    have hl : s.link = [] := List.length_eq_zero_iff.1 (Nat.le_zero.1 hn)
    simp [State.takeInputs, State.rxMoves, hl]
  | succ n ih =>
    unfold State.takeInputs at hd ⊢
    split at hd <;> rename_i hm
    · rw [if_pos hm]
      obtain ⟨hmoves, _⟩ : s.rxMoves = true ∧ s.dstate = .commandReceived := by simpa using hm
      obtain ⟨a, rest, hl⟩ := State.rxMoves_link hmoves
      have hlen : rest.length + 1 ≤ n + 1 := by simpa [hl] using hn
      exact ih (by rw [State.rxStep_link hl]; omega) hd
    · rw [if_neg hm]
      simpa [hd] using hm

/-- The inputs before a start, the start and the run are atomic steps. -/
theorem State.reaches_settle (s : State) : s.Reaches s.settle := by
  have htaken : s.Reaches (State.takeInputs s.link.length s) := State.takeInputs_atomic _ s
  have hquiet := State.takeInputs_rxMoves s.link.length (s := s) le_rfl
  unfold State.settle
  dsimp only
  generalize State.takeInputs s.link.length s = u at htaken hquiet
  split
  · rename_i hst
    obtain ⟨hd, _⟩ : u.dstate = .commandReceived ∧ u.dataPending = 0 := by simpa [Device.startable] using hst
    have hstart : u.atomicStep = u.dspMove := State.atomicStep_dsp (by simp [hd]) (hquiet hd)
    exact (htaken.trans (hstart ▸ u.reaches_atomicStep)).trans (State.runTicks_atomic _ _)
  · exact htaken

/-- Where DSP does not start, RX's step is an atomic step, or there is no input and it changes nothing. -/
theorem State.reaches_rxStep {s : State} (hd : s.dstate = .commandReceived) (hm : s.InputMoves)
    (hno : ¬(s.startable && !s.rxMoves) = true) : s.Reaches s.rxStep := by
  by_cases hmoves : s.rxMoves = true
  · exact State.atomicStep_rxMoves hmoves ▸ s.reaches_atomicStep
  · have howed : s.dataPending ≠ 0 := by simpa [Device.startable, hd, hmoves] using hno
    cases hl : s.link with
    | nil => exact ⟨0, by rw [State.rxStep, hl]; rfl⟩
    | cons a rest =>
      cases hi : a.input with
      | header h => exact absurd (hm a rest h hl hi) howed
      | data seg => exact absurd (by simp [State.rxMoves, hl, hi, hd, howed]) hmoves

/-- Settles O56: each form a step can take is made of atomic steps. -/
theorem stepIsAtomicSteps : Obligations.StepIsAtomicSteps := by
  intro s t h
  have hrun : s.Reaches s.runCommand := State.runTicks_atomic _ s
  unfold step at h
  cases hd : s.dstate <;> simp only [hd] at h
  case terminated => cases h
  case initialising => cases h; exact hrun
  case executing => cases h; exact hrun
  case idle =>
    have hrx : s.Reaches s.rxStep := State.atomicStep_idle hd ▸ s.reaches_atomicStep
    obtain ⟨_, rfl | ⟨_, rfl⟩⟩ := State.stepInput_next h
    · exact hrx
    · exact hrx.trans s.rxStep.reaches_settle
  case commandReceived =>
    split at h <;> rename_i hst
    · cases h
      exact s.reaches_settle
    · obtain ⟨hm, rfl | ⟨hi, _⟩⟩ := State.stepInput_next h
      · exact State.reaches_rxStep hd hm hst
      · rw [hd] at hi; cases hi

end Sys2Proof.Machine
end

section
/-! SUPPORT. The dispatcher family, the status a GET_DATA shows: the code of before up to the start step, the in-progress
code from it on (R134, R140, R143, R274). -/

namespace Sys2Proof.Machine

open Sys2Proof

/-! ### The start step (R134) -/

theorem startStatus_reportsProgress {i : Instr} {st : Status} (h : ReportsProgress i st) (old : Status) :
    startStatus old i = st := by
  obtain ⟨hw, rfl⟩ | ⟨⟨a, n, xm, rfl | rfl⟩, rfl⟩ := h
  · cases i with
    | write | writeFixed => rfl
    | _ => cases hw
  · rfl
  · rfl

theorem requestWrites_ne_status {i : Instr} (hw : i.isWrite = false) (he : ¬IsErase i) :
    requestWrites i ≠ some .status := by
  cases i with
  | write | writeFixed => cases hw
  | setupEraseChip a n xm => exact absurd ⟨a, n, xm, .inl rfl⟩ he
  | setupEraseSector a n xm => exact absurd ⟨a, n, xm, .inr rfl⟩ he
  | _ => simp [requestWrites]

/-- With a command in the mailbox and no data owed DSP's step is the start (R134). -/
theorem Device.dspStep_start {d : Device} (hd : d.dstate = .commandReceived) (hp : d.dataPending = 0) :
    d.dspStep = (d.start, []) := by
  simp [Device.dspStep, Device.running, Device.startable, hd, hp]

theorem Device.start_mail {d : Device} {i : Instr} (h : d.mail = some i) : d.start = d.startWith i := by
  rw [Device.start, h]

/-- DSP starts the request the mailbox holds, whether its term or another with its header is what decodes. -/
theorem Device.start_ofHeader {d : Device} {i : Instr} (hc : d.cmd = some (Command.ofHeader (encode i))) :
    d.start = d.startWith i := by
  obtain ⟨j, hdec, henc, _, hprog, hst⟩ := exists_decoded i
  rw [Device.start_mail (Device.mail_ofHeader (henc ▸ hc) hdec), Device.startWith, Device.startWith, hprog, hst]

/-! ### What RX leaves alone (R143) -/

/-- RX writes the mailbox, the dispatcher state and the buffer, and no other register. -/
theorem State.rxInput_device (s : State) (x : LinkInput) : ∃ c ds bf dp,
    (s.rxInput x).toDevice = { s.toDevice with cmd := c, dstate := ds, buf := bf, dataPending := dp } := by
  have same {t : State} (h : t.toDevice = s.toDevice) : ∃ c ds bf dp,
      t.toDevice = { s.toDevice with cmd := c, dstate := ds, buf := bf, dataPending := dp } := ⟨_, _, _, _, h⟩
  cases x with
  | data seg => exact ⟨_, _, _, _, s.toDevice.dataSegment_rest seg⟩
  | header h =>
    simp only [State.rxInput, State.rxHeader]
    cases decode h with
    | unsupported => exact same rfl
    | refused r => exact same rfl
    | ok i =>
      by_cases hq : i.isQuery = true
      · exact same (State.rxInstr_query hq s)
      · simp only [State.rxInstr_command (by simpa using hq), State.rxCommand]
        split
        · exact ⟨_, _, _, _, s.accept_toDevice i⟩
        · unfold State.raceCommand
          split
          · exact ⟨_, _, _, _, s.accept_toDevice i⟩
          · exact same rfl
        · exact same rfl
        · exact same rfl
        · exact same rfl

theorem State.rxStep_status (s : State) : s.rxStep.status = s.status := by
  cases hl : s.link with
  | nil => rw [State.rxStep, hl]
  | cons a rest =>
    obtain ⟨c, ds, bf, dp, h⟩ := State.rxInput_device { s with link := rest } a.input
    rw [State.rxStep_cons hl, h]

/-! ### The answer to a GET_DATA (R140) -/

/-- RX's step on a GET_DATA at the head of the link. -/
theorem State.rxStep_getData {s : State} {dl : Nat} {h : Header} {rest : List Arrival} {x0 x1 : Half}
    (hl : s.link = { delay := dl, input := .header h } :: rest) (hdec : decode h = .ok (.getData x0 x1)) :
    s.rxStep = State.rxGetData { s with link := rest } h := by
  rw [State.rxStep_cons hl]
  simp only [State.rxInput, State.rxHeader, hdec, State.rxInstr, encode_of_decode hdec]

/-- In every state a GET_DATA, from the link or arriving now, shows the code of the status as it stands. -/
theorem State.answersStatus (s : State) : s.AnswersStatus (statusCode s.params s.status) := by
  refine ⟨fun h x0 x1 hnow hdec => ?_, fun hs x0 x1 => ?_⟩
  · unfold State.headerNow at hnow
    split at hnow
    · rename_i hrx
      have hstep : s.atomicStep = s.rxStep := by
        obtain hd | hm : s.dstate = .idle ∨ s.rxMoves = true := by simpa using hrx
        · exact State.atomicStep_idle hd
        · exact State.atomicStep_rxMoves hm
      split at hnow
      · rename_i hl
        cases hnow
        exact ⟨_, by rw [hstep, State.rxStep_getData hl hdec, hl]; rfl⟩
      · cases hnow
      · cases hnow
    · cases hnow
  · obtain ⟨v, _, _, hv⟩ := getDataAnswer s x0 x1 hs
    exact ⟨v, hv⟩

/-! ### Before the start and while the command runs, step by step (R134, R274) -/

/-- An atomic step that leaves the pending command unstarted leaves the status. -/
theorem State.atomicStep_waiting {s : State} (hd : s.dstate = .commandReceived)
    (hx : s.atomicStep.dstate = .commandReceived) :
    s.atomicStep.status = s.status ∧ s.atomicStep.params = s.params := by
  by_cases hm : s.rxMoves = true
  · rw [State.atomicStep_rxMoves hm]
    exact ⟨s.rxStep_status, s.rxStep_params⟩
  · rw [State.atomicStep_dsp (by simp [hd]) (by simpa using hm)] at hx ⊢
    rw [State.dspMove_toDevice] at hx ⊢
    by_cases hp : s.dataPending = 0
    · rw [Device.dspStep_start hd hp] at hx
      unfold Device.start at hx
      split at hx <;> simp [Device.startWith] at hx
    · have hpoll : s.toDevice.dspStep = (s.toDevice, []) := by
        simp [Device.dspStep, Device.running, Device.startable, hd, hp]
      rw [hpoll]
      exact ⟨rfl, rfl⟩

/-- So do any number of them. -/
theorem State.iterate_waiting (n : Nat) {s : State}
    (hd : ∀ m, m ≤ n → (State.atomicStep^[m] s).dstate = .commandReceived) :
    (State.atomicStep^[n] s).status = s.status ∧ (State.atomicStep^[n] s).params = s.params := by
  induction n with
  | zero => exact ⟨rfl, rfl⟩
  | succ n ih =>
    obtain ⟨hst, hpar⟩ := ih fun m hm => hd m (by omega)
    have hnext := hd (n + 1) le_rfl
    rw [Function.iterate_succ_apply'] at hnext ⊢
    obtain ⟨h1, h2⟩ := State.atomicStep_waiting (hd n (by omega)) hnext
    exact ⟨h1.trans hst, h2.trans hpar⟩

/-- While a command that writes the status last runs on, its status stands. -/
theorem State.iterate_running (n : Nat) {s : State} (hp : s.dataPending = 0) (hl : StatusLast s.pos)
    (hd : ∀ m, m ≤ n → (State.atomicStep^[m] s).dstate = .executing) :
    (State.atomicStep^[n] s).status = s.status ∧ (State.atomicStep^[n] s).dataPending = 0 ∧
      (State.atomicStep^[n] s).params = s.params ∧ StatusLast (State.atomicStep^[n] s).pos := by
  induction n with
  | zero => exact ⟨rfl, hp, rfl, hl⟩
  | succ n ih =>
    obtain ⟨hst, hp', hpar, hl'⟩ := ih fun m hm => hd m (by omega)
    have hnext := hd (n + 1) le_rfl
    rw [Function.iterate_succ_apply'] at hnext ⊢
    obtain ⟨h1, h2, h3, h4⟩ := State.atomicStep_status _ (hd n (by omega)) hp' hl' hnext
    exact ⟨h1.trans hst, h2, h3.trans hpar, h4⟩

/-- From the start step of a WRITE or an erase on, as long as it runs: the in-progress status, and no data owed. -/
theorem State.iterate_started (n : Nat) {s : State} {i : Instr} {st : Status} (hmail : s.mail = some i)
    (hd : s.dstate = .commandReceived) (hp : s.dataPending = 0) (hst : ReportsProgress i st)
    (hexec : ∀ m, m ≤ n → (State.atomicStep^[m] s.dspMove).dstate = .executing) :
    (State.atomicStep^[n] s.dspMove).status = st ∧ (State.atomicStep^[n] s.dspMove).dataPending = 0 ∧
      (State.atomicStep^[n] s.dspMove).params = s.params := by
  have hdev : s.dspMove.toDevice = s.toDevice.startWith i := by
    rw [State.dspMove_toDevice, Device.dspStep_start hd hp, Device.start_mail hmail]
  have hlast : StatusLast s.dspMove.pos := by
    rw [hdev]
    exact program_statusLast _ _ (hst.imp And.left And.left)
  obtain ⟨hstatus, howed, hparams, _⟩ := State.iterate_running n (by rw [hdev]; exact hp) hlast hexec
  rw [hdev] at hstatus hparams
  exact ⟨hstatus.trans (startStatus_reportsProgress hst _), howed, hparams⟩

/-! ### Whole requests with one GET_DATA on the link (R143, R274) -/

/-- A GET_DATA that arrives after `n` more DSP steps. -/
def getDataAfter (n : Nat) (x0 x1 : Half) : Arrival := { delay := n, input := .header (encode (.getData x0 x1)) }

/-- `t` has nothing left on the link, and has answered what `s` has and then the GET_DATA, with the code. -/
structure State.Answered (s : State) (x0 x1 : Half) (code : Byte) (t : State) : Prop where
  link : t.link = []
  answers : ∃ v, t.answers = s.answers ++ [.respond (encode (.getData x0 x1)) (.dataStatus v code)]

section
variable {s t : State} {i : Instr} {x0 x1 : Half} {code : Byte}

theorem State.Answered.rxStep (h : s.Answered x0 x1 code t) : s.Answered x0 x1 code t.rxStep := by
  rw [State.rxStep, h.link]
  exact h

theorem State.Answered.dspMove (h : s.Answered x0 x1 code t) : s.Answered x0 x1 code t.dspMove where
  link := by rw [State.dspMove_link, h.link]; rfl
  answers := by rw [State.dspMove_answers]; exact h.answers

theorem State.Answered.runTicks (n : Nat) (h : s.Answered x0 x1 code t) :
    s.Answered x0 x1 code (State.runTicks n t) :=
  State.runTicks_keeps (P := s.Answered x0 x1 code) (fun _ hu => hu.rxStep) (fun _ hu => hu.dspMove) n h

theorem State.Answered.settle (h : s.Answered x0 x1 code t) : s.Answered x0 x1 code t.settle :=
  State.settle_keeps (P := s.Answered x0 x1 code) (fun _ hu => hu.rxStep) (fun _ hu => hu.dspMove) h

/-- RX answers the last GET_DATA with the status as it stands. -/
theorem State.answered_rxStep {n : Nat} (hl : s.link = [getDataAfter n x0 x1]) :
    s.Answered x0 x1 (statusCode s.params s.status) s.rxStep := by
  rw [State.rxStep_getData hl (decode_encode rfl)]
  exact ⟨rfl, _, State.answers_respond s _ s.dataAnswer⟩

/-- A GET_DATA due while the command runs is answered before the command goes on. -/
theorem State.answered_runCommand (hd : s.dstate = .executing) (hl : s.link = [getDataAfter 0 x0 x1]) :
    s.Answered x0 x1 (statusCode s.params s.status) s.runCommand := by
  have hrun : s.running = true := Device.running_executing hd
  have hmoves : s.rxMoves = true := by simp [State.rxMoves, hl, hd, getDataAfter]
  have hfuel : s.fuel = stepBound s.pos + 1 + 1 := by rw [State.fuel, hl]; rfl
  have htick : s.runCommand = State.runTicks (stepBound s.pos + 1) s.rxStep := by
    rw [State.runCommand, hfuel, State.runTicks, if_pos hrun, State.tick, if_pos hmoves]
  rw [htick]
  exact (State.answered_rxStep hl).runTicks _

/-- An input due before the start is RX's first step. -/
theorem State.settle_rxStep (hd : s.dstate = .commandReceived) (hm : s.rxMoves = true) : s.settle = s.rxStep.settle := by
  obtain ⟨a, rest, hl⟩ := State.rxMoves_link hm
  have htake : State.takeInputs s.link.length s = State.takeInputs s.rxStep.link.length s.rxStep := by
    rw [State.rxStep_link hl, hl, List.length_cons, State.takeInputs, hm, hd]
    rfl
  rw [State.settle, State.settle, htake]

/-- A GET_DATA due before the start is answered with the status of before. -/
theorem State.answered_beforeStart (hd : s.dstate = .commandReceived) (hp : s.dataPending = 0)
    (hl : s.link = [getDataAfter 0 x0 x1]) : s.Answered x0 x1 (statusCode s.params s.status) s.settle := by
  rw [State.settle_rxStep hd (by simp [State.rxMoves, hl, hd, hp, getDataAfter])]
  exact (State.answered_rxStep hl).settle

/-- A GET_DATA due one step later is answered after the start step, with the status that has written. -/
theorem State.answered_afterStart {w : State} (hw : State.takeInputs w.link.length w = s)
    (hd : s.dstate = .commandReceived) (hp : s.dataPending = 0) (hc : s.cmd = some (Command.ofHeader (encode i)))
    (hl : s.link = [getDataAfter 1 x0 x1]) :
    s.Answered x0 x1 (statusCode s.params (startStatus s.status i)) w.settle := by
  have hstart : s.startable = true := by simp [Device.startable, hd, hp]
  have hdev : s.dspMove.toDevice = s.toDevice.startWith i := by
    rw [State.dspMove_toDevice, Device.dspStep_start hd hp, Device.start_ofHeader hc]
  have hrun := State.answered_runCommand (s := s.dspMove) (x0 := x0) (x1 := x1) (by rw [hdev]; rfl)
    (by rw [State.dspMove_link, hl]; rfl)
  rw [hdev] at hrun
  rw [State.settle, hw, if_pos hstart]
  exact ⟨hrun.link, s.dspMove_answers ▸ hrun.answers⟩

/-- A command, its data phase and then a GET_DATA due after the start step. -/
theorem State.answered_command_afterStart (hi : s.dstate = .idle) {delays : List Nat} {segs : List (List Byte)}
    (hsized : delays.length = segs.length) (hsome : ∀ seg ∈ segs, seg ≠ [])
    (howed : (s.accept i).dataPending.val = segs.flatten.length)
    (hl : s.link = (delays.zip segs).map (fun p => { delay := p.1, input := .data p.2 }) ++ [getDataAfter 1 x0 x1]) :
    (s.accept i).Answered x0 x1 (statusCode s.params (startStatus s.status i)) (s.command i) := by
  have htake := State.takeInputs_phase [getDataAfter 1 x0 x1] rfl segs delays (s.accept i) (s.accept i).link.length
    hsized hsome rfl howed hl (by rw [State.accept_link, hl]; simp [hsized])
  have hrest := (s.accept i).toDevice.dataSegment_rest segs.flatten
  have hnone : ((s.accept i).toDevice.dataSegment segs.flatten).dataPending = 0 :=
    Fin.ext (by rw [Device.dataSegment_owed, howed]; simp)
  have h := State.answered_afterStart (i := i) (x0 := x0) (x1 := x1) htake (by rw [hrest]; rfl) hnone
    (by rw [hrest]; rfl) rfl
  rw [hrest] at h
  rw [State.command_idle hi]
  exact ⟨h.link, h.answers⟩

/-- A WRITE, its data phase in one segment and then a GET_DATA due before the start step. -/
theorem State.answered_write_beforeStart (hw : i.isWrite = true) (hi : s.dstate = .idle) {dl : Nat} {seg : List Byte}
    (hlen : seg.length = 64) (hl : s.link = [{ delay := dl, input := .data seg }, getDataAfter 0 x0 x1]) :
    (s.accept i).Answered x0 x1 (statusCode s.params s.status) (s.command i) := by
  have howed : (s.accept i).dataPending = 64 := by simp [hw]
  have hmoves : (s.accept i).rxMoves = true := by simp [State.rxMoves, hl, hw]
  have hstep : (s.accept i).rxStep = State.rxData { s.accept i with link := [getDataAfter 0 x0 x1] } seg :=
    State.rxStep_cons (s := s.accept i) hl
  have hdstate : ((s.accept i).toDevice.dataSegment seg).dstate = .commandReceived := by
    rw [Device.dataSegment_rest]
    rfl
  have hnone : ((s.accept i).toDevice.dataSegment seg).dataPending = 0 :=
    Fin.ext (by rw [Device.dataSegment_owed, howed, hlen]; rfl)
  have h := State.answered_beforeStart (s := (s.accept i).rxStep) (x0 := x0) (x1 := x1) (hstep ▸ hdstate)
    (hstep ▸ hnone) (hstep ▸ rfl)
  rw [State.rxStep_status, State.rxStep_params] at h
  rw [State.command_idle hi, State.settle_rxStep rfl hmoves]
  refine ⟨h.link, ?_⟩
  have hsame : (s.accept i).rxStep.answers = (s.accept i).answers := State.answers_congr (by rw [hstep]; rfl)
  exact hsame ▸ h.answers

/-- In IDLE the request answers with the ack and the GET_DATA's answer. -/
theorem State.Answered.exec (h : (s.accept i).Answered x0 x1 code (s.command i)) (hq : i.isQuery = false)
    (hi : s.dstate = .idle) (hp : s.dataPending = 0) :
    ∃ t v, Machine.exec i s = .next t ∧ t.answers = s.answers ++
      [.respond (encode i) .ack, .respond (encode (.getData x0 x1)) (.dataStatus v code)] := by
  obtain ⟨v, hv⟩ := h.answers
  have hack : (s.accept i).answers = s.answers ++ [.respond (encode i) .ack] :=
    (s.intoMailbox i).answers_respond (encode i) .ack
  refine ⟨s.command i, v, ?_, by rw [hv, hack]; simp⟩
  rw [exec_command hq, State.onHeader_ready _ _ (by simp [hi]) (by simp [hi]) hp]

end

/-- Settles O45: a GET_DATA shows the code of the status it finds, which the start step alone writes before a command's
last statement; for whole requests the link's delay says whether RX handles it before or after that step. -/
theorem startStepStatus : Obligations.StartStepStatus := by
  refine ⟨?_, ?_, ?_, ?_, ?_, ?_⟩
  · intro d i hmail hd hp
    rw [Device.dspStep_start hd hp, Device.start_mail hmail]
    exact ⟨rfl, fun hw => startStatus_reportsProgress (.inl ⟨hw, rfl⟩) _,
      fun he => startStatus_reportsProgress (.inr ⟨he, rfl⟩) _,
      fun hw he => startStatus_eq (requestWrites_ne_status hw he) _⟩
  · intro s u i st n hmail hd hp hst hexec hu
    obtain ⟨hstatus, howed, hparams⟩ := State.iterate_started n hmail hd hp hst hexec
    have hnow := hexec n le_rfl
    rw [← hu] at hstatus howed hparams hnow
    refine ⟨hstatus, ⟨by simp [hnow], by simp [hnow], howed⟩, ?_⟩
    rw [← hstatus, ← hparams]
    exact u.answersStatus
  · intro s u i n hq hi hp hwait hu
    obtain ⟨hstatus, hparams⟩ := State.iterate_waiting n hwait
    rw [← hu] at hstatus hparams
    have hanswers := u.answersStatus
    rw [hstatus, hparams] at hanswers
    exact ⟨hstatus, hanswers⟩
  · intro s i x0 x1 delays segs hw hs
    have hlen : segs.flatten.length = 64 := by simpa [isPhase] using hs.phase
    have h := State.answered_command_afterStart (i := i) hs.idle hs.sized hs.some (by simp [hw, hlen]) hs.link
    rw [startStatus_reportsProgress (.inl ⟨hw, rfl⟩)] at h
    exact h.exec (isQuery_of_isWrite hw) hs.idle hs.noData
  · intro s i x0 x1 dl seg hw hi hp hlen hl
    exact (State.answered_write_beforeStart hw hi hlen hl).exec (isQuery_of_isWrite hw) hi hp
  · intro s i x0 x1 he hi hp
    obtain ⟨hw, hq⟩ : i.isWrite = false ∧ i.isQuery = false := by
      obtain ⟨a, n, xm, rfl | rfl⟩ := he <;> exact ⟨rfl, rfl⟩
    have hnone : (s.accept i).dataPending = 0 := by simp [hw, hp]
    refine ⟨fun hl => ?_, fun hl => ?_⟩
    · have h := State.answered_command_afterStart (i := i) (delays := []) (segs := []) hi rfl (by simp)
        (by rw [hnone]; rfl) hl
      rw [startStatus_reportsProgress (.inr ⟨he, rfl⟩)] at h
      exact h.exec hq hi hp
    · have h := State.answered_beforeStart (s := s.accept i) rfl hnone hl
      rw [← State.command_idle hi] at h
      exact h.exec hq hi hp

end Sys2Proof.Machine
end

section
/-! SUPPORT. The flash algorithm family (42_flash_algorithm.md): what a request that a ready controller takes leaves and
shows, told by the run of its program; the addresses of a chunk (R163) and READ sub-0 (R165). -/

namespace Sys2Proof.Machine

open Sys2Proof

/-! ### From the run of a program to the result of its request (R131 to R135) -/

/-- A command other than WRITE leaves what its program's run leaves, and shows the log of that run's events. -/
theorem State.Ready.exec_shows {s : State} (hs : s.Ready) {i : Instr} (hq : i.isQuery = false) (hw : i.isWrite = false)
    (hdec : decode (encode i) = .ok i) {d' : Device} {es : List Event} {log : BusLog}
    (hrun : ((s.launching i).withPos (program s.params i)).finalRun = (d', es)) (hlog : BusLog.of es = log) :
    ∃ t, Machine.exec i s = .next t ∧ t.toDevice = d' ∧ s.Shows t log := by
  obtain ⟨hdev, hbus⟩ := s.command_ready i hs hdec hw
  rw [State.launched_eq, hrun] at hdev hbus
  exact ⟨s.command i, by rw [exec_command hq, hs.onHeader], hdev, es, hbus, hlog⟩

/-- A WRITE with its data phase leaves what its program's run from the filled buffer leaves, and shows the log of that
run's events. -/
theorem State.ReadyWrite.exec_shows {s : State} {delays : List Nat} {segs : List (List Byte)} {rest : List Arrival}
    (hs : s.ReadyWrite delays segs rest) {i : Instr} (hq : i.isQuery = false) (hw : i.isWrite = true)
    (hdec : decode (encode i) = .ok i) {bytes : Vector Byte 64} (hb : segs.flatten = bytes.toList) {d' : Device}
    {es : List Event} {log : BusLog}
    (hrun : (Device.withPos { s.launching i with buf := bytes.map .byte } (program s.params i)).finalRun = (d', es))
    (hlog : BusLog.of es = log) :
    ∃ t, Machine.exec i s = .next t ∧ t.toDevice = d' ∧ s.Shows t log := by
  obtain ⟨hdev, hbus⟩ := s.command_readyWrite i delays segs rest hs hdec hw
  rw [hb, State.launchedWrite_eq, hrun] at hdev hbus
  refine ⟨s.command i, ?_, hdev, es, hbus, hlog⟩
  rw [exec_command hq, s.onHeader_ready _ (by simp [hs.idle]) (by simp [hs.idle]) hs.noData]

/-! ### The chunk's addresses (R163, R273) -/

/-- The bank and the main address of a flash address read back (R51). -/
@[simp] theorem bankOf_addr20 (b : Nibble) (a : Half) : bankOf (addr20 b a) = b := BitVec.extractLsb'_append_eq_left

@[simp] theorem mainOf_addr20 (b : Nibble) (a : Half) : mainOf (addr20 b a) = a := BitVec.extractLsb'_append_eq_right

theorem hiByte_chunkAddr (a : Half) (n : Nat) : hiByte (chunkAddr a n) = hiByte a := hiByte_append _ _

theorem loByte_chunkAddr (a : Half) (n : Nat) : loByte (chunkAddr a n) = loByte a + BitVec.ofNat 8 n :=
  loByte_append _ _

/-- A main address as a number: its page and its place in the page. -/
theorem half_toNat (a : Half) : a.toNat = (hiByte a).toNat * 256 + (loByte a).toNat := by
  conv_lhs => rw [← half_bytes a]
  rw [BitVec.toNat_append, ← Nat.shiftLeft_add_eq_or_of_lt (loByte a).isLt, Nat.shiftLeft_eq]

theorem loByte_chunkAddr_toNat (a : Half) (n : Nat) :
    (loByte (chunkAddr a n)).toNat = ((loByte a).toNat + n) % 256 := by
  rw [loByte_chunkAddr, BitVec.toNat_add, BitVec.toNat_ofNat, Nat.add_mod_mod]

/-- Settles O23: only the low byte of a chunk's address moves, and it moves mod 256. -/
theorem chunkAddresses : Obligations.ChunkAddresses := by
  intro b a
  refine ⟨fun n => ⟨bankOf_addr20 b _, hiByte_chunkAddr a n.val, loByte_chunkAddr_toNat a n.val⟩,
    fun m n h => chunkAddr_injective a h, fun n hn => ?_⟩
  have hlo := loByte_chunkAddr_toNat a n.val
  rw [Nat.mod_eq_of_lt hn] at hlo
  rw [addr20_toNat, addr20_toNat, half_toNat (chunkAddr a n.val), half_toNat a, hiByte_chunkAddr, hlo]
  omega

/-! ### READ sub-0 (R165) -/

/-- Settles O24: the 64 samples are the run of the whole program, from the registers as they stand. -/
theorem readArmResult : Obligations.ReadArmResult := by
  intro s a n xh xm hs _
  obtain ⟨bytes, fl, dr, es, hrun, hlog, _⟩ :=
    Runs.readArm s.params (s.launching (.readArm a n xh xm)) a (rsBank s.params n xm) rfl
  obtain ⟨t, ht, hdev, hshows⟩ :=
    hs.exec_shows (i := .readArm a n xh xm) rfl rfl (decode_encode rfl) hrun.finalRun hlog
  have hflash : t.flash = fl := congrArg Device.flash hdev
  have hdraws : t.draws = dr := congrArg Device.draws hdev
  refine ⟨t, bytes, ht, ?_, hshows⟩
  rw [hflash, hdraws, hdev, hs.launching_eq (by simp [requestWrites])]
  rfl

end Sys2Proof.Machine
end

section
/-! SUPPORT. The flash algorithm family, reads after command cycles: the device a row of write cycles leaves, and the
byte that an identification or a protection read then puts into `data` (R168, R195 to R197). -/

namespace Sys2Proof.Machine

open Sys2Proof

/-! ### After a row of write cycles -/

/-- The device after a SETUP mode's write cycles in bank `b`, the last of them `(a, v)`: what a read then starts from
(R115, R190). -/
def Device.wrote (d : Device) (b : Nibble) (ws : List (Addr20 × Byte)) (a : Half) (v : Byte) : Device :=
  Device.shown
    { d with
      bank := b
      addrHi := hiByte a
      addrLo := loByte a
      ctrl := writeCtrl d.ctrl
      portDir := .output
      portOut := .byte v
      fstate := d.fstateAfter ws
      fmem := d.fmemAfter ws }

theorem Device.wrote_pinOn_we (d : Device) (b : Nibble) (ws : List (Addr20 × Byte)) (a : Half) (v : Byte) :
    (d.wrote b ws a v).pinOn .we = false := by
  simp [Device.wrote, Device.pinOn, Device.shown, writeCtrl]

theorem Device.writtenAll_wrote (d : Device) (b : Nibble) (ws : List (Half × Byte)) (a : Half) (v : Byte) :
    Device.writtenAll { d with bank := b } (ws ++ [(a, v)]) =
      d.wrote b ((ws ++ [(a, v)]).map fun w => (addr20 b w.1, w.2)) a v :=
  Device.writtenAll_concat _ ws a v

/-- The bank, then write cycles whose last is `(a, v)`. -/
theorem Runs.wrote {d : Device} (b : Nibble) (ws : List (Half × Byte)) (a : Half) (v : Byte)
    (h : d.dstate = .executing) (hw : d.weShown) :
    ∃ es, Runs ([.loadBank b] ++ Machine.busWrites (ws ++ [(a, v)])) d
        (d.wrote b ((ws ++ [(a, v)]).map fun w => (addr20 b w.1, w.2)) a v) es ∧
      BusLog.of es =
        { events := writeCycles ((ws ++ [(a, v)]).map fun w => (addr20 b w.1, w.2))
          lineWrites := 128 * (ws.length + 1) } := by
  have hrun := Runs.loadBank_writes b (ws ++ [(a, v)]) h hw
  rwa [Device.writtenAll_wrote, List.length_append] at hrun

/-! ### A read into `data` (R195 to R197) -/

/-- A read cycle of `a` that begins with write-enable deasserted on the pins, and the byte read put into `data`. -/
theorem Runs.readData {d : Device} (p : Params) (a : Half) (h : d.dstate = .executing) (hwe : d.pinOn .we = false) :
    ∃ v fl dr es, Runs (Machine.busRead p a ++ [.storeData]) d
        (Device.shown
          { d with
            addrHi := hiByte a
            addrLo := loByte a
            ctrl := readCtrl d.ctrl
            data := .byte v
            portDir := .input
            localV := v
            flash := fl
            draws := dr }) es ∧
      BusLog.of es = { events := readCycle p (addr20 d.bank a) v, lineWrites := 76 } := by
  have hst := d.strayWrites_of hwe
  obtain ⟨es, hread, hlog⟩ := Runs.busRead p a h
  rw [Device.dataLines_rest] at hread
  generalize (d.reading a).dataLines.1 = v at hread hlog
  generalize (d.reading a).dataLines.2.flash = fl at hread
  generalize (d.reading a).dataLines.2.draws = dr at hread
  rw [Device.reading, hst] at hread
  rw [hst] at hlog
  have hstore : Runs [.storeData] _ _ [] := Runs.of_execAll hread.1 rfl rfl
  exact ⟨v, fl, dr, es ++ [], hread.append hstore, by rw [List.append_nil, hlog]; rfl⟩

/-! ### Identification and protection (R168, R195 to R197) -/

/-- The device after the preamble and the identification entry in bank `b` (R191, R168). -/
def Device.identified (d : Device) (b : Nibble) : Device :=
  d.wrote b (preambleWrites b ++ idWrites b) 0x0AAA#16 0x90#8

theorem Runs.identified {d : Device} (b : Nibble) (h : d.dstate = .executing) (hw : d.weShown) :
    ∃ es, Runs ([.loadBank b] ++ Machine.busWrites idCycles) d (d.identified b) es ∧
      BusLog.of es = { events := writeCycles (preambleWrites b ++ idWrites b), lineWrites := 512 } :=
  Runs.wrote b [(0x000F#16, 0xF0#8), (0x0AAA#16, 0xAA#8), (0x1555#16, 0x55#8)] 0x0AAA#16 0x90#8 h hw

/-- A SETUP request whose program enters identification in bank `b`, and reads `b' : off` into `data`. -/
theorem State.Ready.identifies {s : State} (hs : s.Ready) {i : Instr} (hq : i.isQuery = false)
    (hwr : requestWrites i ≠ some .status) (hdec : decode (encode i) = .ok i) {b b' : Nibble} {off : Half}
    {l : List Stmt} (hprog : program s.params i = l ++ (busRead s.params off ++ [.storeData])) {es : List Event}
    (hrun : Runs l (s.launching i) { (s.launching i).identified b with bank := b' } es)
    (hlog : BusLog.of es = { events := writeCycles (preambleWrites b ++ idWrites b), lineWrites := 512 }) :
    ∃ t v, Machine.exec i s = .next t ∧
      t.toDevice = Device.complete (Device.shown
        { s.toDevice with
          bank := b'
          addrHi := hiByte off
          addrLo := loByte off
          ctrl := readCtrl s.ctrl
          data := .byte v
          portDir := .input
          portOut := .byte 0x90#8
          localV := v
          flash := t.flash
          fstate := s.fstateAfter (preambleWrites b ++ idWrites b)
          fmem := s.fmemAfter (preambleWrites b ++ idWrites b)
          draws := t.draws }) ∧
      s.Shows t
        { events := writeCycles (preambleWrites b ++ idWrites b) ++ readCycle s.params (addr20 b' off) v
          lineWrites := 588 } := by
  have hwe : Device.pinOn { (s.launching i).identified b with bank := b' } .we = false :=
    (s.launching i).wrote_pinOn_we b (preambleWrites b ++ idWrites b) 0x0AAA#16 0x90#8
  obtain ⟨v, fl, dr, es', hread, hlog'⟩ := Runs.readData s.params off hrun.1 hwe
  have hall := (hrun.append hread).finalRun
  rw [← hprog] at hall
  have hshown : BusLog.of (es ++ es') =
      { events := writeCycles (preambleWrites b ++ idWrites b) ++ readCycle s.params (addr20 b' off) v
        lineWrites := 588 } := by
    rw [BusLog.of_append, hlog, hlog']
    rfl
  obtain ⟨t, ht, hdev, hshows⟩ := hs.exec_shows hq (isWrite_of_requestWrites hwr) hdec hall hshown
  have hflash : t.flash = fl := congrArg Device.flash hdev
  have hdraws : t.draws = dr := congrArg Device.draws hdev
  have hctrl : readCtrl ((s.launching i).identified b).ctrl = readCtrl s.ctrl := readCtrl_writeCtrl s.ctrl
  refine ⟨t, v, ht, ?_, hshows⟩
  rw [hflash, hdraws, hdev, hctrl, hs.launching_eq hwr]
  rfl

/-- Settles O29: the preamble and the entry, then one read, which begins with write-enable deasserted. -/
theorem identifyResult : Obligations.IdentifyResult := by
  intro s i b off hi hs hw
  obtain ⟨hq, _, hdec, _, hprog⟩ := hi.program
  have hwr : requestWrites i ≠ some .status := by
    obtain ⟨a, n, xm, _, ⟨rfl, _⟩ | ⟨rfl, _⟩⟩ := hi <;> simp [requestWrites]
  obtain ⟨es, hrun, hlog⟩ := Runs.identified (d := s.launching i) b rfl hw
  exact hs.identifies (b' := b) hq hwr hdec (by rw [hprog, List.append_assoc]) hrun hlog

/-- A flash address is its bank and its main address (R51). -/
theorem addr20_bankOf_mainOf (q : Addr20) : addr20 (bankOf q) (mainOf q) = q := by
  rw [addr20, bankOf, mainOf, BitVec.extractLsb'_append_extractLsb'_eq_extractLsb' (by rfl), BitVec.extractLsb'_eq_self]

/-- Settles O30: the entry in the bank given, then the bank and the main address of the 20-bit sum, read once. -/
theorem verifyProtectionResult : Obligations.VerifyProtectionResult := by
  intro s a n xm b q hs hw hb hq
  have hsum : protAddr b a = q := BitVec.eq_of_toNat_eq (by rw [protAddr, BitVec.toNat_add, hq]; rfl)
  obtain ⟨es, hrun, hlog⟩ := Runs.identified (d := s.launching (.setupVerifyProt a n xm)) b rfl hw
  have hload : Runs [.loadBank (bankOf q)] _ _ [] := Runs.of_execAll hrun.1 rfl rfl
  have hprog : program s.params (.setupVerifyProt a n xm) =
      ([.loadBank b] ++ busWrites idCycles ++ [.loadBank (bankOf q)]) ++
        (busRead s.params (mainOf q) ++ [.storeData]) := by
    rw [program, progVerifyProt, ← hb, hsum, setupCommon_idEntry, List.append_assoc _ (busRead _ _)]
  have h := hs.identifies (i := .setupVerifyProt a n xm) (b' := bankOf q) rfl (by simp [requestWrites])
    (decode_encode rfl) hprog (hrun.append hload) (by rw [List.append_nil, hlog])
  rwa [addr20_bankOf_mainOf] at h

end Sys2Proof.Machine
end

section
/-! SUPPORT. The flash algorithm family, erases: the erase polls from the device the command's write cycles leave
(R166, R167, R198, R199). -/

namespace Sys2Proof.Machine

open Sys2Proof

/-- An erase command's write cycles end with `(f, fd)`. -/
theorem eraseCycles_concat (p : Params) (f : Half) (fd : Byte) :
    ∃ ws, eraseCycles p f fd = ws ++ [(f, fd)] := by
  unfold eraseCycles
  cases p.erasePrefix
  · exact ⟨[(0x000F#16, 0xF0#8), (p.erase80Addr, 0x80#8), (0x0AAA#16, 0xAA#8), (0x0555#16, 0x55#8)], rfl⟩
  · exact ⟨[(0x000F#16, 0xF0#8), (0x0AAA#16, 0xAA#8), (0x0555#16, 0x55#8), (p.erase80Addr, 0x80#8),
      (0x0AAA#16, 0xAA#8), (0x0555#16, 0x55#8)], rfl⟩

/-- The preamble and an erase command in bank `b` (R191, R166). -/
theorem Runs.eraseCommanded {d : Device} (p : Params) (b : Nibble) (f : Half) (fd : Byte) (h : d.dstate = .executing)
    (hw : d.weShown) :
    ∃ es, Runs ([.loadBank b] ++ Machine.busWrites (eraseCycles p f fd)) d
        (d.wrote b (preambleWrites b ++ eraseWrites p b f fd) f fd) es ∧
      BusLog.of es =
        { events := writeCycles (preambleWrites b ++ eraseWrites p b f fd)
          lineWrites := 128 * (1 + (eraseWrites p b f fd).length) } := by
  obtain ⟨ws, hws⟩ := eraseCycles_concat p f fd
  obtain ⟨es, hrun, hlog⟩ := Runs.wrote b ws f fd h hw
  have hlen : ws.length + 1 = 1 + (eraseWrites p b f fd).length := by
    have h := congrArg List.length (eraseCycles_writes p b f fd)
    rw [hws, List.length_map, List.length_append, List.length_append] at h
    exact h
  rw [← hws, eraseCycles_writes] at hrun hlog
  exact ⟨es, hrun, by rw [hlog, hlen]⟩

/-- The erase polls start where the write cycles end: with no read the device stands as they left it, else it stands as
the last read leaves it (R167). -/
theorem Device.wrote_polled (d : Device) (b : Nibble) (ws : List (Addr20 × Byte)) (f : Half) (fd : Byte) (a : Half)
    (vs : List Byte) (fl : FlashSource) (dr : Nat) (st : Status) :
    ∃ fl' dr', ({ (d.wrote b ws f fd).polled a vs fl dr with status := st } : Device) = Device.shown
      { d with
        bank := b
        addrHi := hiByte (if vs = [] then f else a)
        addrLo := loByte (if vs = [] then f else a)
        ctrl := if vs = [] then writeCtrl d.ctrl else readCtrl d.ctrl
        portDir := if vs = [] then .output else .input
        portOut := .byte fd
        status := st
        localV := vs.getLast?.getD d.localV
        flash := fl'
        fstate := d.fstateAfter ws
        fmem := d.fmemAfter ws
        draws := dr' } := by
  cases vs with
  | nil => exact ⟨d.flash, d.draws, rfl⟩
  | cons v vs =>
    have hctrl : readCtrl (d.wrote b ws f fd).ctrl = readCtrl d.ctrl := readCtrl_writeCtrl d.ctrl
    refine ⟨fl, dr, ?_⟩
    simp only [Device.polled, reduceCtorEq, if_false, hctrl]
    rfl

/-- Settles O32: the command's write cycles, then the polls, which tell the status by the last byte they read. -/
theorem eraseResult : Obligations.EraseResult := by
  intro s i a b f fd hi hs hw
  obtain ⟨hq, hnw, hdec, hprog⟩ := hi.program
  obtain ⟨es, hcmd, hlog⟩ := Runs.eraseCommanded (d := s.launching i) s.params b f fd rfl hw
  obtain ⟨vs, fl, dr, es', hlen, hno, hall, hpolls, hlog', _⟩ :=
    finalRun_eraseWait s.params a s.params.erasePollRetries _ hcmd.1 (Device.wrote_pinOn_we ..)
  have hrun := hcmd.2 (eraseWait s.params a)
  rw [← hprog, eraseWait, hpolls] at hrun
  obtain ⟨fl', dr', hdone⟩ := (s.launching i).wrote_polled b (preambleWrites b ++ eraseWrites s.params b f fd) f fd a
    vs fl dr (if vs.getLast? = some 0xFF#8 then .initialised else .eraseFailed)
  rw [hdone] at hrun
  have hshown : BusLog.of (es ++ es') =
      { events := writeCycles (preambleWrites b ++ eraseWrites s.params b f fd) ++
          vs.flatMap fun v => .wait .erasePoll s.params.erasePollDelay :: readCycle s.params (addr20 b a) v
        lineWrites := 128 * (1 + (eraseWrites s.params b f fd).length) + 76 * vs.length } := by
    rw [BusLog.of_append, hlog, hlog']
    rfl
  obtain ⟨t, ht, hdev, hshows⟩ := hs.exec_shows hq hnw hdec hrun hshown
  have hflash : t.flash = fl' := congrArg Device.flash hdev
  have hdraws : t.draws = dr' := congrArg Device.draws hdev
  have hst : t.status = if vs.getLast? = some 0xFF#8 then .initialised else .eraseFailed :=
    congrArg Device.status hdev
  refine ⟨t, vs, ht, hlen, hno, fun h => by rw [hst, if_pos h], fun h => ⟨by rw [hst, if_neg h], hall h⟩, ?_, hshows⟩
  rw [hflash, hdraws, hst, hdev, State.launching, ← hs.noData]
  rfl

end Sys2Proof.Machine
end

section
/-! SUPPORT. The flash algorithm family, writes: the chunk as write cycles that drive their bytes from the buffer,
divided into segments by the readiness polls; the fixed-delay variant and the ready-polled one (R160 to R164). -/

namespace Sys2Proof.Machine

open Sys2Proof

/-! ### The chunk's write cycles as the polls divide them (R160, R164) -/

/-- An unlock write's cycle, which drives a byte of the program's own. -/
def unlockCycle (a : Half) (v : Byte) : Cycle := { addr := a, val := v, via := .drive v }

/-- A target write's cycle, which drives the buffer's byte. -/
def targetCycle (a : Half) (bytes : Vector Byte 64) (i : Fin 64) : Cycle :=
  { addr := chunkAddr a i.val, val := bytes.get i, via := .driveBuf i }

/-- The write cycles of byte `i`, divided by its three polls. -/
def byteSegments (a : Half) (bytes : Vector Byte 64) (i : Fin 64) : List (List Cycle) :=
  [[unlockCycle 0x0AAA#16 0xAA#8], [unlockCycle 0x0555#16 0x55#8],
    [unlockCycle 0x0AAA#16 0xA0#8, targetCycle a bytes i]]

/-- The write cycles of the chunk, divided by its 193 polls; none follow the last. -/
def chunkSegments (a : Half) (bytes : Vector Byte 64) : List (List Cycle) :=
  (List.finRange 64).flatMap (byteSegments a bytes) ++ [[]]

/-- Each cycle drives its byte where the buffer holds the bytes sent, by a statement after which the next one runs. -/
theorem byteSegments_drive (a : Half) (bytes : Vector Byte 64) (i : Fin 64) :
    ∀ cs ∈ byteSegments a bytes i, ∀ c ∈ cs, c.Drives (bytes.map .byte) ∧ c.via.straight = true := by
  have hunlock : ∀ t v, (unlockCycle t v).Drives (bytes.map .byte) ∧ (unlockCycle t v).via.straight = true :=
    fun _ _ => ⟨fun _ _ => rfl, rfl⟩
  have htarget : (targetCycle a bytes i).Drives (bytes.map .byte) ∧ (targetCycle a bytes i).via.straight = true := by
    refine ⟨fun x hx => ?_, rfl⟩
    have hget : x.buf.get i = .byte (bytes.get i) := by rw [hx]; exact Vector.getElem_map ..
    simp only [targetCycle, Stmt.exec, hget, Device.readSlot_byte]
  simp [byteSegments, hunlock, htarget]

theorem chunkSegments_drive (a : Half) (bytes : Vector Byte 64) :
    ∀ cs ∈ chunkSegments a bytes, ∀ c ∈ cs, c.Drives (bytes.map .byte) ∧ c.via.straight = true := by
  intro cs hcs c hc
  obtain hcs | hcs := List.mem_append.1 hcs
  · obtain ⟨i, _, hcs⟩ := List.mem_flatMap.1 hcs
    exact byteSegments_drive a bytes i cs hcs c hc
  · rw [List.mem_singleton.1 hcs] at hc
    cases hc

theorem chunkSegments_length (a : Half) (bytes : Vector Byte 64) : (chunkSegments a bytes).length = 193 := by
  simp [chunkSegments, byteSegments]

theorem chunkSegments_parts (b : Nibble) (a : Half) (bytes : Vector Byte 64) :
    (chunkSegments a bytes).map (cycleWrites b) = chunkParts b a bytes := by
  rw [chunkSegments, List.map_append, List.map_flatMap]
  rfl

/-- The write cycles of the chunk, a row for each byte: no poll divides them. -/
def byteRows (a : Half) (bytes : Vector Byte 64) : List (List Cycle) :=
  (List.finRange 64).map fun i => (byteSegments a bytes i).flatten

theorem byteRows_cycles (a : Half) (bytes : Vector Byte 64) :
    cyclePairs (byteRows a bytes).flatten = chunkCycles a bytes (List.finRange 64) := by
  rw [byteRows, ← List.flatMap_def, cyclePairs, List.map_flatMap]
  rfl

theorem chunkSegments_flatten (a : Half) (bytes : Vector Byte 64) :
    (chunkSegments a bytes).flatten = (byteRows a bytes).flatten := by
  rw [chunkSegments, List.flatten_append, List.flatMap_def, List.flatten_flatten, List.map_map]
  exact List.append_nil _

theorem chunkSegments_cycles (a : Half) (bytes : Vector Byte 64) :
    cyclePairs (chunkSegments a bytes).flatten = chunkCycles a bytes (List.finRange 64) := by
  rw [chunkSegments_flatten, byteRows_cycles]

/-- The chunk has 256 write cycles. -/
theorem chunkSegments_flatten_length (a : Half) (bytes : Vector Byte 64) :
    (chunkSegments a bytes).flatten.length = 256 := by
  rw [chunkSegments_flatten]
  simp [byteRows, byteSegments, Function.comp_def]

theorem cyclePairs_writes (b : Nibble) (cs : List Cycle) :
    ((cyclePairs cs).map fun w => (addr20 b w.1, w.2)) = cycleWrites b cs := List.map_map

/-- The chunk's write events in order, whichever polls divide them. -/
theorem chunkSegments_writes (b : Nibble) (a : Half) (bytes : Vector Byte 64) :
    cycleWrites b (chunkSegments a bytes).flatten = chunkWrites b a bytes := by
  rw [← chunkCycles_writes, ← chunkSegments_cycles, cyclePairs_writes]

/-- All 193 polls have the whole chunk after them. -/
theorem chunkSegments_take_all (a : Half) (bytes : Vector Byte 64) :
    (chunkSegments a bytes).take 193 = chunkSegments a bytes :=
  List.take_of_length_le (chunkSegments_length a bytes).le

/-- Whole bytes take four cycles for their three polls; of a byte's polls the first two have one cycle each. -/
theorem flatten_take_parts {α β : Type} {f : α → List (List β)}
    (hf : ∀ x, ∃ p q r s, f x = [[p], [q], [r, s]]) (L : List α) :
    ∀ k, ((L.flatMap f ++ [[]]).take k).flatten = (L.flatMap f ++ [[]]).flatten.take (4 * (k / 3) + k % 3) := by
  induction L with
  | nil => intro k; cases k <;> simp
  | cons x L ih =>
    intro k
    obtain ⟨p, q, r, s, hx⟩ := hf x
    match k with
    | 0 | 1 | 2 => simp [hx]
    | k + 3 =>
      have hk : 4 * ((k + 3) / 3) + (k + 3) % 3 = 4 * (k / 3) + k % 3 + 4 := by omega
      rw [hk, List.flatMap_cons, hx]
      simpa using ih k

/-- The write events that follow the first `k` polls. -/
theorem chunkSegments_take (b : Nibble) (a : Half) (bytes : Vector Byte 64) (k : Nat) :
    cycleWrites b ((chunkSegments a bytes).take k).flatten =
      (chunkWrites b a bytes).take (4 * (k / 3) + k % 3) := by
  rw [← chunkSegments_writes, cycleWrites, cycleWrites, ← List.map_take, chunkSegments,
    flatten_take_parts (f := byteSegments a bytes) fun i => ⟨_, _, _, _, rfl⟩]

/-- After one poll or more there is a last write cycle. -/
theorem chunkSegments_take_concat (a : Half) (bytes : Vector Byte 64) {k : Nat} (hk : k ≠ 0) :
    ∃ ws x v, cyclePairs ((chunkSegments a bytes).take k).flatten = ws ++ [(x, v)] := by
  obtain ⟨j, rfl⟩ := Nat.exists_eq_succ_of_ne_zero hk
  have hfirst : ∃ S, chunkSegments a bytes = [unlockCycle 0x0AAA#16 0xAA#8] :: S := ⟨_, rfl⟩
  obtain ⟨S, hS⟩ := hfirst
  have hne : cyclePairs ((chunkSegments a bytes).take (j + 1)).flatten ≠ [] := by simp [hS, cyclePairs]
  exact ⟨_, _, _, (List.dropLast_append_getLast hne).symm⟩

/-- The chunk's last write cycle is its last byte's target write. -/
theorem chunkCycles_concat (a : Half) (bytes : Vector Byte 64) :
    ∃ ws, chunkCycles a bytes (List.finRange 64) = ws ++ [(chunkAddr a 63, bytes.get 63)] := by
  have hlast : chunkCycles a bytes [Fin.last 63] =
      [(0x0AAA#16, 0xAA#8), (0x0555#16, 0x55#8), (0x0AAA#16, 0xA0#8)] ++ [(chunkAddr a 63, bytes.get 63)] := rfl
  rw [chunkCycles] at hlast ⊢
  rw [List.finRange_succ_last, List.flatMap_append, hlast, ← List.append_assoc]
  exact ⟨_, rfl⟩

/-- A device after the chunk's write cycles in bank `b`: the last target's address and byte, the fixture as the chunk's
write events leave it (R163, R164). -/
theorem Device.writtenAll_chunk (d : Device) (b : Nibble) (a : Half) (bytes : Vector Byte 64) :
    Device.writtenAll { d with bank := b } (chunkCycles a bytes (List.finRange 64)) =
      d.wrote b (chunkWrites b a bytes) (chunkAddr a 63) (bytes.get 63) := by
  obtain ⟨ws, hws⟩ := chunkCycles_concat a bytes
  rw [← chunkCycles_writes, hws, Device.writtenAll_wrote]

/-! ### The fixed-delay variant (R160, R162) -/

theorem Runs.wait {d : Device} (k : WaitKind) (n : Nat) (h : d.dstate = .executing) :
    Runs [.wait k n] d d [.wait k n] := Runs.of_execAll h rfl rfl

/-- Rows of write cycles, each followed by one fixed wait. -/
theorem Runs.delayedCycles (n : Nat) (S : List (List Cycle)) : ∀ {d : Device}, d.dstate = .executing → d.weShown →
    (∀ cs ∈ S, ∀ c ∈ cs, c.Drives d.buf ∧ c.via.straight = true) →
    ∃ es, Runs (S.flatMap fun cs => Machine.busCycles cs ++ [.wait .nop n]) d
        (d.writtenAll (cyclePairs S.flatten)) es ∧
      BusLog.of es =
        { events := S.flatMap fun cs => writeCycles (cycleWrites d.bank cs) ++ [.wait .nop n]
          lineWrites := 128 * S.flatten.length } := by
  induction S with
  | nil => exact fun h _ _ => ⟨[], Runs.nil h, rfl⟩
  | cons cs S ih =>
    intro d h hw hc
    obtain ⟨hcs, hS⟩ := List.forall_mem_cons.1 hc
    obtain ⟨es1, h1, l1⟩ := Runs.busCycles cs h hw (fun c hx => (hcs c hx).1) (fun c hx => (hcs c hx).2)
    obtain ⟨_, hbank, hbuf, hshown⟩ := Device.writtenAll_frame (cyclePairs cs) d
    obtain ⟨es2, h2, l2⟩ := ih h1.1 (hshown hw) (by rwa [hbuf])
    have hpairs : cyclePairs (cs :: S).flatten = cyclePairs cs ++ cyclePairs S.flatten := List.map_append
    have hwait : BusLog.of [.wait .nop n] = { events := [.wait .nop n] } := rfl
    have hrun := (h1.append (Runs.wait .nop n h1.1)).append h2
    rw [← Device.writtenAll_append, ← hpairs] at hrun
    refine ⟨_, hrun, ?_⟩
    rw [BusLog.of_append, BusLog.of_append, l1, l2, hbank, hwait]
    simp [BusLog.append, Nat.mul_add]

theorem byteRows_drive (a : Half) (bytes : Vector Byte 64) :
    ∀ cs ∈ byteRows a bytes, ∀ c ∈ cs, c.Drives (bytes.map .byte) ∧ c.via.straight = true := by
  intro cs hcs c hc
  obtain ⟨i, _, rfl⟩ := List.mem_map.1 hcs
  obtain ⟨cs, hcs, hc⟩ := List.mem_flatten.1 hc
  exact byteSegments_drive a bytes i cs hcs c hc

theorem progChunk_fixed (p : Params) (a : Half) (b : Nibble) (bytes : Vector Byte 64) :
    progChunk p a b .fixed = [.loadBank b] ++
      ((byteRows a bytes).flatMap fun cs => busCycles cs ++ [.wait .nop p.fixedDelayCycles]) ++
      [.setStatus .initialised] := by
  rw [byteRows, List.flatMap_map, progChunk, pollFirst, List.append_nil]
  rfl

/-- The fixed-delay program: every write cycle of the chunk and, after each byte, its wait (R162, R164). -/
theorem Runs.progChunk_fixed {d : Device} (p : Params) (a : Half) (b : Nibble) {bytes : Vector Byte 64}
    (h : d.dstate = .executing) (hw : d.weShown) (hb : d.buf = bytes.map .byte) :
    ∃ es, Runs (Machine.progChunk p a b .fixed) d
        { d.wrote b (chunkWrites b a bytes) (chunkAddr a 63) (bytes.get 63) with status := .initialised } es ∧
      BusLog.of es =
        { events := (List.finRange 64).flatMap fun k =>
            writeCycles (programWrites b (chunkAddr a k.val) (bytes.get k)) ++ [.wait .nop p.fixedDelayCycles]
          lineWrites := 32768 } := by
  have hload : Runs [.loadBank b] d { d with bank := b } [] := Runs.of_execAll h rfl rfl
  have hdrive := byteRows_drive a bytes
  rw [← hb] at hdrive
  obtain ⟨es, hrun, hlog⟩ := Runs.delayedCycles p.fixedDelayCycles (byteRows a bytes) hload.1 hw hdrive
  rw [byteRows_cycles, Device.writtenAll_chunk] at hrun
  have hstatus : Runs [.setStatus .initialised] _ _ [] := Runs.of_execAll hrun.1 rfl rfl
  rw [Machine.progChunk_fixed p a b bytes]
  refine ⟨_, (hload.append hrun).append hstatus, ?_⟩
  rw [List.nil_append, List.append_nil, hlog, ← chunkSegments_flatten, chunkSegments_flatten_length, byteRows,
    List.flatMap_map]
  rfl

/-- What a WRITE leaves whose last write cycle is `(x, v)`, told by the registers as they stood (R164). -/
theorem State.launching_wrote (s : State) (i : Instr) (bf : Vector Slot 64) (b : Nibble) (ws : List (Addr20 × Byte))
    (x : Half) (v : Byte) (st : Status) :
    Device.complete { Device.wrote { s.launching i with buf := bf } b ws x v with status := st } =
      Device.complete (Device.shown
        { s.toDevice with
          bank := b
          addrHi := hiByte x
          addrLo := loByte x
          ctrl := writeCtrl s.ctrl
          portDir := .output
          portOut := .byte v
          buf := bf
          dataPending := 0
          status := st
          fstate := s.fstateAfter ws
          fmem := s.fmemAfter ws }) := rfl

/-- Settles O21: the program as one block, no poll in it. -/
theorem writeFixedDelayResult : Obligations.WriteFixedDelayResult := by
  intro s i a b delays segs rest bytes hi hs hb hw
  obtain ⟨hq, hwr, hdec, hprog⟩ := hi.program
  obtain ⟨es, hrun, hlog⟩ :=
    Runs.progChunk_fixed (d := { s.launching i with buf := bytes.map .byte }) s.params a b rfl hw rfl
  rw [← hprog] at hrun
  obtain ⟨t, ht, hdev, hshows⟩ := hs.exec_shows hq hwr hdec hb hrun.finalRun hlog
  refine ⟨t, ht, ?_, hshows⟩
  rw [hdev, State.launching_wrote, hiByte_chunkAddr, loByte_chunkAddr]

end Sys2Proof.Machine
end

section
/-! SUPPORT. The flash algorithm family, the ready-polled WRITE: with a readiness line that is always true, and under
every behaviour of the line (R113, R160, R161, R164, R226). -/

namespace Sys2Proof.Machine

open Sys2Proof

theorem progChunk_readyPolled (p : Params) (a : Half) (b : Nibble) (bytes : Vector Byte 64) :
    progChunk p a b .readyPolled =
      [.loadBank b] ++ (polledSegments p.readySpinBound (chunkSegments a bytes) ++ [.setStatus .initialised]) := by
  rw [polledSegments, chunkSegments, List.flatMap_append, List.flatMap_assoc, progChunk, List.append_assoc,
    List.append_assoc, List.append_assoc]
  rfl

/-! ### A readiness line that is always true (R161) -/

/-- A poll whose first sample is true. -/
theorem Runs.poll_ready {d : Device} {n : Nat} (h : d.dstate = .executing) (hr : d.ready = .fake [] true) (hn : 0 < n) :
    Runs [.poll n] d d (pollEvents 0) := by
  obtain ⟨k, rfl⟩ := Nat.exists_eq_succ_of_ne_zero hn.ne'
  have hline : d.readyLine = (true, d) := by rw [Device.readyLine, hr]
  refine ⟨h, fun rest => ?_⟩
  rw [List.singleton_append, finalRun_poll_succ k rest d h, hline]
  rfl

/-- Segments whose every poll passes at its first sample. -/
theorem Runs.polledSegments_ready {n : Nat} (hn : 0 < n) (S : List (List Cycle)) : ∀ {d : Device},
    d.dstate = .executing → d.weShown → d.ready = .fake [] true →
    (∀ cs ∈ S, ∀ c ∈ cs, c.Drives d.buf ∧ c.via.straight = true) →
    ∃ es, Runs (polledSegments n S) d (d.writtenAll (cyclePairs S.flatten)) es ∧
      BusLog.of es =
        { events := polledCycles (List.replicate S.length 0) (S.map (cycleWrites d.bank))
          lineWrites := 128 * S.flatten.length } := by
  induction S with
  | nil => exact fun h _ _ _ => ⟨[], Runs.nil h, rfl⟩
  | cons cs S ih =>
    intro d h hw hr hc
    obtain ⟨hcs, hS⟩ := List.forall_mem_cons.1 hc
    obtain ⟨es1, h1, l1⟩ := Runs.busCycles cs h hw (fun c hx => (hcs c hx).1) (fun c hx => (hcs c hx).2)
    obtain ⟨_, hbank, hbuf, hshown⟩ := Device.writtenAll_frame (cyclePairs cs) d
    obtain ⟨_, hready⟩ := Device.writtenAll_sources (cyclePairs cs) d
    obtain ⟨es2, h2, l2⟩ := ih h1.1 (hshown hw) (hready.trans hr) (by rwa [hbuf])
    have hpairs : cyclePairs (cs :: S).flatten = cyclePairs cs ++ cyclePairs S.flatten := List.map_append
    have hrun := ((Runs.poll_ready h hr hn).append h1).append h2
    rw [← Device.writtenAll_append, ← hpairs] at hrun
    refine ⟨_, hrun, ?_⟩
    rw [BusLog.of_append, BusLog.of_append, log_pollEvents, l1, l2, hbank]
    simp [BusLog.append, Nat.mul_add, polledCycles, List.replicate_succ]

/-- The ready-polled program with a readiness line that is always true (R161, R164). -/
theorem Runs.progChunk_ready {d : Device} (p : Params) (a : Half) (b : Nibble) {bytes : Vector Byte 64}
    (h : d.dstate = .executing) (hw : d.weShown) (hb : d.buf = bytes.map .byte) (hr : d.ready = .fake [] true)
    (hn : 0 < p.readySpinBound) :
    ∃ es, Runs (Machine.progChunk p a b .readyPolled) d
        { d.wrote b (chunkWrites b a bytes) (chunkAddr a 63) (bytes.get 63) with status := .initialised } es ∧
      BusLog.of es =
        { events := polledCycles (List.replicate 193 0) (chunkParts b a bytes), lineWrites := 32768 } := by
  have hload : Runs [.loadBank b] d { d with bank := b } [] := Runs.of_execAll h rfl rfl
  have hdrive := chunkSegments_drive a bytes
  rw [← hb] at hdrive
  obtain ⟨es, hrun, hlog⟩ := Runs.polledSegments_ready hn (chunkSegments a bytes) hload.1 hw hr hdrive
  rw [chunkSegments_cycles, Device.writtenAll_chunk] at hrun
  rw [chunkSegments_length, chunkSegments_parts, chunkSegments_flatten_length] at hlog
  have hstatus : Runs [.setStatus .initialised] _ _ [] := Runs.of_execAll hrun.1 rfl rfl
  rw [progChunk_readyPolled p a b bytes]
  refine ⟨_, hload.append (hrun.append hstatus), ?_⟩
  rw [List.nil_append, List.append_nil, hlog]

/-- Settles O20: every poll passes at its first sample. -/
theorem writeReadyPolledSucceeds : Obligations.WriteReadyPolledSucceeds := by
  intro s i a b delays segs rest bytes hi hs hb hw hr hn
  obtain ⟨hq, hwr, hdec, hprog⟩ := hi.program
  obtain ⟨es, hrun, hlog⟩ :=
    Runs.progChunk_ready (d := { s.launching i with buf := bytes.map .byte }) s.params a b rfl hw rfl hr hn
  rw [← hprog] at hrun
  obtain ⟨t, ht, hdev, hshows⟩ := hs.exec_shows hq hwr hdec hb hrun.finalRun hlog
  refine ⟨t, ht, ?_, hshows⟩
  rw [hdev, State.launching_wrote, hiByte_chunkAddr, loByte_chunkAddr]

/-! ### Every behaviour of the readiness line (R113, R164, R226) -/

/-- What a ready-polled WRITE has made of a device in bank `b` after `k` polls that succeeded, with the readiness source
and the draws its samples leave. -/
def Device.afterPolls (d : Device) (b : Nibble) (a : Half) (bytes : Vector Byte 64) (k : Nat) (rd : ReadySource)
    (dr : Nat) : Device :=
  { Device.writtenAll { d with bank := b } (cyclePairs ((chunkSegments a bytes).take k).flatten) with
    ready := rd
    draws := dr }

/-- The ready-polled program runs to its end, or up to the first poll that runs out of samples (R164). -/
theorem finalRun_progChunk_readyPolled {d : Device} (p : Params) (a : Half) (b : Nibble) {bytes : Vector Byte 64}
    (h : d.dstate = .executing) (hw : d.weShown) (hb : d.buf = bytes.map .byte) :
    ∃ (k : Nat) (misses : List Nat) (rd : ReadySource) (dr : Nat) (es : List Event),
      k ≤ 193 ∧ misses.length = k ∧ (∀ n ∈ misses, n < p.readySpinBound) ∧
      (d.withPos (progChunk p a b .readyPolled)).finalRun =
        (Device.complete { d.afterPolls b a bytes k rd dr with
          status := if k = 193 then .initialised else .programFailed }, es) ∧
      BusLog.of es =
        { events := polledCycles misses (chunkParts b a bytes) ++
            (if k = 193 then [] else List.replicate p.readySpinBound (.sampleReady false))
          lineWrites := 128 * ((chunkWrites b a bytes).take (4 * (k / 3) + k % 3)).length } := by
  have hload : Runs [.loadBank b] d { d with bank := b } [] := Runs.of_execAll h rfl rfl
  have hdrive := chunkSegments_drive a bytes
  rw [← hb] at hdrive
  have hlen : ∀ k, ((chunkSegments a bytes).take k).flatten.length =
      ((chunkWrites b a bytes).take (4 * (k / 3) + k % 3)).length := fun k => by
    rw [← chunkSegments_take, cycleWrites, List.length_map]
  obtain ⟨k, misses, rd, dr, es, hk, hmisses, ⟨hend, hrun, hlog⟩ | ⟨hend, hrun, hlog⟩⟩ :=
    polledSegments_cases p.readySpinBound (chunkSegments a bytes) _ hload.1 hw hdrive
  · rw [chunkSegments_length] at hend
    subst hend
    have hstatus : Runs [.setStatus .initialised] _ _ [] := Runs.of_execAll hrun.1 rfl rfl
    have hfinal := (hload.append (hrun.append hstatus)).finalRun
    rw [← progChunk_readyPolled, List.nil_append, List.append_nil] at hfinal
    rw [chunkSegments_parts, ← chunkSegments_take_all, hlen] at hlog
    refine ⟨193, misses, rd, dr, es, le_rfl, hk, hmisses, ?_, ?_⟩
    · rw [hfinal, Device.afterPolls, chunkSegments_take_all]
      rfl
    · rw [hlog, if_pos rfl, List.append_nil]
  · rw [chunkSegments_length] at hend
    have hfinal := hload.2 (polledSegments p.readySpinBound (chunkSegments a bytes) ++ [.setStatus .initialised])
    rw [hrun, ← progChunk_readyPolled, List.nil_append] at hfinal
    rw [chunkSegments_parts, hlen] at hlog
    refine ⟨k, misses, rd, dr, es, hend.le, hk, hmisses, ?_, ?_⟩
    · rw [hfinal, if_neg hend.ne]
      rfl
    · rw [hlog, if_neg hend.ne]

/-- With no poll passed only the bank is loaded. -/
theorem Device.afterPolls_zero (d : Device) (b : Nibble) (a : Half) (bytes : Vector Byte 64) (rd : ReadySource)
    (dr : Nat) : d.afterPolls b a bytes 0 rd dr = { d with bank := b, ready := rd, draws := dr } := rfl

/-- After a poll that passed the device stands as the last write cycle so far leaves it. -/
theorem Device.afterPolls_wrote (d : Device) (b : Nibble) (a : Half) (bytes : Vector Byte 64) {k : Nat} (hk : k ≠ 0)
    (rd : ReadySource) (dr : Nat) :
    ∃ x v, ((chunkWrites b a bytes).take (4 * (k / 3) + k % 3)).getLast? = some (addr20 b x, v) ∧
      d.afterPolls b a bytes k rd dr =
        { d.wrote b ((chunkWrites b a bytes).take (4 * (k / 3) + k % 3)) x v with ready := rd, draws := dr } := by
  obtain ⟨ws, x, v, hws⟩ := chunkSegments_take_concat a bytes hk
  have hwrites : (ws ++ [(x, v)]).map (fun w => (addr20 b w.1, w.2)) =
      (chunkWrites b a bytes).take (4 * (k / 3) + k % 3) := by
    rw [← hws, cyclePairs_writes, chunkSegments_take]
  refine ⟨x, v, ?_, ?_⟩
  · rw [← hwrites, List.map_append]
    exact List.getLast?_concat
  · rw [Device.afterPolls, hws, Device.writtenAll_wrote, hwrites]

/-- After all polls the last write cycle is the last byte's. -/
theorem Device.afterPolls_all (d : Device) (b : Nibble) (a : Half) (bytes : Vector Byte 64) (rd : ReadySource)
    (dr : Nat) :
    d.afterPolls b a bytes 193 rd dr =
      { d.wrote b (chunkWrites b a bytes) (chunkAddr a 63) (bytes.get 63) with ready := rd, draws := dr } := by
  rw [Device.afterPolls, chunkSegments_take_all, chunkSegments_cycles, Device.writtenAll_chunk]

/-- Write cycles load the address, the control register, the port and the chain, and the fixture sees them; they change
nothing else. -/
theorem Device.writtenAll_rest (ws : List (Half × Byte)) : ∀ d : Device,
    d.writtenAll ws =
      { d with
        addrHi := (d.writtenAll ws).addrHi
        addrLo := (d.writtenAll ws).addrLo
        ctrl := (d.writtenAll ws).ctrl
        portDir := (d.writtenAll ws).portDir
        portOut := (d.writtenAll ws).portOut
        c := (d.writtenAll ws).c
        a1 := (d.writtenAll ws).a1
        a2 := (d.writtenAll ws).a2
        lines := (d.writtenAll ws).lines
        fstate := d.fstateAfter (ws.map fun w => (addr20 d.bank w.1, w.2))
        fmem := d.fmemAfter (ws.map fun w => (addr20 d.bank w.1, w.2)) } := by
  induction ws with
  | nil => exact fun _ => rfl
  | cons w ws ih => exact fun d => ih (d.written w.1 w.2)

/-- The fields of a ready-polled WRITE's end in which it does not matter how far it came, and what the fixture saw. -/
theorem Device.afterPolls_rest (d : Device) (b : Nibble) (a : Half) (bytes : Vector Byte 64) (k : Nat)
    (rd : ReadySource) (dr : Nat) :
    d.afterPolls b a bytes k rd dr =
      { d with
        bank := b
        addrHi := (d.afterPolls b a bytes k rd dr).addrHi
        addrLo := (d.afterPolls b a bytes k rd dr).addrLo
        ctrl := (d.afterPolls b a bytes k rd dr).ctrl
        portDir := (d.afterPolls b a bytes k rd dr).portDir
        portOut := (d.afterPolls b a bytes k rd dr).portOut
        c := (d.afterPolls b a bytes k rd dr).c
        a1 := (d.afterPolls b a bytes k rd dr).a1
        a2 := (d.afterPolls b a bytes k rd dr).a2
        lines := (d.afterPolls b a bytes k rd dr).lines
        ready := rd
        fstate := d.fstateAfter ((chunkWrites b a bytes).take (4 * (k / 3) + k % 3))
        fmem := d.fmemAfter ((chunkWrites b a bytes).take (4 * (k / 3) + k % 3))
        draws := dr } := by
  have hrest := Device.writtenAll_rest (cyclePairs ((chunkSegments a bytes).take k).flatten) { d with bank := b }
  rw [cyclePairs_writes, chunkSegments_take] at hrest
  exact congrArg (fun x : Device => { x with ready := rd, draws := dr }) hrest

/-- Settles O19: the run's polls and the write cycles that follow them, told apart by whether any poll passed. -/
theorem writeReadyPolledResult : Obligations.WriteReadyPolledResult := by
  intro s i a b delays segs rest bytes hi hs hb hw
  obtain ⟨hq, hwr, hdec, hprog⟩ := hi.program
  obtain ⟨k, misses, rd, dr, es, hk, hlen, hmisses, hrun, hlog⟩ :=
    finalRun_progChunk_readyPolled (d := { s.launching i with buf := bytes.map .byte }) s.params a b rfl hw rfl
  rw [← hprog] at hrun
  obtain ⟨t, ht, hdev, hshows⟩ := hs.exec_shows hq hwr hdec hb hrun hlog
  have hrest := hdev
  rw [Device.afterPolls_rest] at hrest
  have hdata : t.data = s.data := (congrArg Device.data hrest).trans rfl
  have hparams : t.params = s.params := (congrArg Device.params hrest).trans rfl
  have hflash : t.flash = s.flash := (congrArg Device.flash hrest).trans rfl
  have hv : t.localV = s.localV := (congrArg Device.localV hrest).trans rfl
  have hr : t.localR = s.localR := (congrArg Device.localR hrest).trans rfl
  refine ⟨t, k, misses, ht, hk, hlen, hmisses, hshows, congrArg Device.status hdev, congrArg Device.dstate hdev,
    congrArg Device.cmd hdev, congrArg Device.dataPending hrest, congrArg Device.pos hdev, congrArg Device.bank hrest,
    congrArg Device.buf hrest, hdata, hparams, hflash, hv, hr, congrArg Device.fstate hrest, congrArg Device.fmem hrest,
    fun h0 => ?_, fun h0 => ?_, fun hall => ?_⟩
  · subst h0
    rw [Device.afterPolls_zero] at hdev
    rw [hdev]
    exact ⟨rfl, rfl, rfl, rfl, rfl, rfl, rfl, rfl, rfl⟩
  · obtain ⟨x, v, hlast, hwrote⟩ :=
      Device.afterPolls_wrote { s.launching i with buf := bytes.map .byte } b a bytes h0 rd dr
    rw [hwrote] at hdev
    have hshown : t.toDevice = t.toDevice.shown := by rw [hdev]; rfl
    refine ⟨congrArg Device.ctrl hdev, congrArg Device.portDir hdev, hshown, _, hlast, ?_, ?_,
      congrArg Device.portOut hdev⟩
    · rw [mainOf_addr20]
      exact congrArg Device.addrHi hdev
    · rw [mainOf_addr20]
      exact congrArg Device.addrLo hdev
  · subst hall
    rw [Device.afterPolls_all] at hdev
    refine ⟨?_, ?_, congrArg Device.portOut hdev⟩
    · rw [← hiByte_chunkAddr a 63]
      exact congrArg Device.addrHi hdev
    · exact (congrArg Device.addrLo hdev).trans (loByte_chunkAddr a 63)

end Sys2Proof.Machine
end

section
/-! SUPPORT. The SETUP family, the modes that read no data: what stands after the preamble's write cycle, and the
straight block each mode ends with (R190 to R194). -/

namespace Sys2Proof.Machine

open Sys2Proof

/-! ### After the preamble (R190, R191) -/

/-- The device after SETUP's common part in bank `b`. -/
def Device.setUp (d : Device) (b : Nibble) : Device := d.wrote b (preambleWrites b) 0x000F#16 0xF0#8

theorem Runs.setUp {d : Device} (b : Nibble) (h : d.dstate = .executing) (hw : d.weShown) :
    ∃ es, Runs (Machine.setupCommon b) d (d.setUp b) es ∧
      BusLog.of es = { events := writeCycles (preambleWrites b), lineWrites := 128 } :=
  Runs.wrote b [] 0x000F#16 0xF0#8 h hw

theorem Device.setUp_weShown (d : Device) (b : Nibble) : (d.setUp b).weShown := Device.shown_weShown _

/-- The preamble leaves write-enable deasserted on the pins, so a read that follows makes no write event. -/
theorem Device.setUp_strayWrites (d : Device) (b : Nibble) : (d.setUp b).strayWrites = [] :=
  Device.strayWrites_of _ (d.wrote_pinOn_we b _ _ _)

/-- A SETUP request whose mode adds a straight block to the common part: it leaves what the block makes of the device
after the preamble, and shows the preamble's write cycle and then what the block shows. -/
theorem State.Ready.setsUp {s : State} (hs : s.Ready) (hw : s.weShown) {i : Instr} (hq : i.isQuery = false)
    (hwr : requestWrites i ≠ some .status) (hdec : decode (encode i) = .ok i) {b : Nibble} {l : List Stmt}
    (hprog : program s.params i = setupCommon b ++ l) (hl : l.all Stmt.straight = true) {d' : Device} {es : List Event}
    (hrun : execAll l ((s.toDevice.taking (encode i)).setUp b) = (d', es)) {log : BusLog} (hlog : BusLog.of es = log) :
    ∃ t, Machine.exec i s = .next t ∧ t.toDevice = d'.complete ∧
      s.Shows t
        { events := writeCycles (preambleWrites b) ++ log.events, lineWrites := 128 + log.lineWrites } := by
  obtain ⟨es₀, hsetup, hlog₀⟩ := Runs.setUp (d := s.toDevice.taking (encode i)) b rfl hw
  have hall := (hsetup.append (Runs.of_execAll hsetup.1 hl hrun)).finalRun
  rw [← hprog, ← hs.launching_eq hwr] at hall
  exact hs.exec_shows hq (isWrite_of_requestWrites hwr) hdec hall (by rw [BusLog.of_append, hlog₀, hlog]; rfl)

/-! ### Probe-ready (R192) -/

/-- One readiness sample put into `data`; a line that answers one value for ever answers it here too. -/
theorem execAll_probe (d : Device) :
    ∃ r rd dr, execAll [.sampleReady, .storeReady] d =
      ({ d with data := .byte (if r then 0x01#8 else 0x00#8), localR := r, ready := rd, draws := dr },
        [.sampleReady r]) ∧ ∀ v, d.ready = .fake [] v → r = v := by
  refine ⟨d.readyLine.1, d.readyLine.2.ready, d.readyLine.2.draws, ?_, fun v hv => by rw [Device.readyLine, hv]⟩
  simp only [execAll_cons, execAll_nil, Stmt.exec, List.append_nil]
  rw [Device.readyLine_rest]

/-- Settles O26: after the preamble, one sample of the readiness line as it stood at the request. -/
theorem probeReadyResult : Obligations.ProbeReadyResult := by
  intro s a n xm hs hw
  obtain ⟨r, rd, dr, hrun, hline⟩ :=
    execAll_probe ((s.toDevice.taking (encode (.setupProbeReady a n xm))).setUp (rsBank s.params n xm))
  obtain ⟨t, ht, hdev, hshows⟩ := hs.setsUp hw (i := .setupProbeReady a n xm) rfl (by simp [requestWrites])
    (decode_encode rfl) rfl rfl hrun (log := { events := [.sampleReady r] }) rfl
  have hready : t.ready = rd := congrArg Device.ready hdev
  have hdraws : t.draws = dr := congrArg Device.draws hdev
  refine ⟨t, r, ht, ?_, hline, hshows⟩
  rw [hready, hdraws, hdev]
  rfl

/-! ### Begin-read (R193) -/

/-- Settles O27: after the preamble, a read cycle up to its wait, which begins with write-enable deasserted. -/
theorem beginReadResult : Obligations.BeginReadResult := by
  intro s a n xm hs hw
  generalize hd : (s.toDevice.taking (encode (.setupBeginRead a n xm))).setUp (rsBank s.params n xm) = d
  have hrun := execAll_openRead d a
  have hstray : d.strayWrites = [] := hd ▸ Device.setUp_strayWrites _ _
  have hctrl : readCtrl d.ctrl = readCtrl s.ctrl := hd ▸ readCtrl_writeCtrl s.ctrl
  rw [Device.reading, Device.strayEvents, hstray, hctrl, ← hd] at hrun
  exact hs.setsUp hw (i := .setupBeginRead a n xm) rfl (by simp [requestWrites]) (decode_encode rfl) rfl rfl hrun
    (log := { events := [.dir .input], lineWrites := 76 }) rfl

/-! ### Begin-write (R194) -/

/-- The statements of a write cycle up to its address, with write-enable shown on the pins: no event but line writes
(R115, R194). With output-enable deasserted it loads the address as SET_ADDRESS does in the same bank (R138). -/
theorem execAll_openWrite {d : Device} (a : Half) (hw : d.weShown) :
    execAll (loadAddr a ++ [.setFlag .oe false] ++ loadFull) d =
      (Device.shown
        { d with
          addrHi := hiByte a
          addrLo := loByte a
          ctrl := writeFlag .als false (writeFlag .oe false d.ctrl) },
        shiftEvents .cclk .cdat (msbFirst (ctrlByte (writeFlag .als false (writeFlag .oe false d.ctrl)) d.bank)) ++
          shiftEvents .aclk .adat (msbFirst a)) := by
  have hwe : Device.weShown { d with ctrl := writeFlag .oe false d.ctrl } := by
    simpa [Device.weShown] using hw
  exact execAll_setAddress (d := { d with ctrl := writeFlag .oe false d.ctrl }) a d.bank hwe

/-- The port turned to output and write-enable asserted and latched, on a device that shows its registers: no write
event (R111, R194). -/
theorem execAll_holdWrite (x : Device) :
    execAll ([.setDir .output, .setFlag .we true] ++ [.shiftControl]) x.shown =
      (Device.shown { x with portDir := .output, ctrl := writeFlag .we true x.ctrl },
        .dir .output :: shiftEvents .cclk .cdat (msbFirst (ctrlByte (writeFlag .we true x.ctrl) x.bank))) := by
  have hset : execAll [.setDir .output, .setFlag .we true] x.shown =
      ({ Device.shown { x with portDir := .output } with ctrl := writeFlag .we true x.ctrl }, [.dir .output]) := rfl
  rw [execAll_append, hset, execAll_cons, execAll_nil, Stmt.exec, Device.shiftControl_shown _ _ (.inr (by simp)),
    List.append_nil]
  rfl

/-- A second write cycle's first two flags stand as the first cycle left them. -/
theorem openWrite_writeCtrl (c : Byte) : writeFlag .als false (writeFlag .oe false (writeCtrl c)) = writeCtrl c := by
  unfold writeCtrl
  rw [writeFlag_comm .oe .we _ _ _ (by decide), writeFlag_comm .oe .als _ _ _ (by decide), writeFlag_same,
    writeFlag_comm .als .we _ _ _ (by decide), writeFlag_same]

/-- Settles O28: after the preamble, a write cycle up to the assertion of write-enable. -/
theorem beginWriteResult : Obligations.BeginWriteResult := by
  intro s a n xm hs hw
  generalize hd : (s.toDevice.taking (encode (.setupBeginWrite a n xm))).setUp (rsBank s.params n xm) = d
  have hopen := execAll_openWrite a (hd ▸ Device.setUp_weShown _ _ : d.weShown)
  have hctrl : writeFlag .als false (writeFlag .oe false d.ctrl) = writeCtrl s.ctrl := hd ▸ openWrite_writeCtrl s.ctrl
  have hrun := execAll_append (loadAddr a ++ [.setFlag .oe false] ++ loadFull)
    ([.setDir .output, .setFlag .we true] ++ [.shiftControl]) d
  rw [hopen, hctrl, execAll_holdWrite, ← hd] at hrun
  exact hs.setsUp hw (i := .setupBeginWrite a n xm) rfl (by simp [requestWrites]) (decode_encode rfl) rfl rfl hrun
    (log := { events := [.dir .output], lineWrites := 102 }) rfl

end Sys2Proof.Machine
end

section
/-! SUPPORT. The exceptions family: a failing command's last step (R226), and what HOST_PACED says of the header RX
handles next (R131, R132, R247). -/

namespace Sys2Proof.Machine

open Sys2Proof

/-! ### Failure (R226) -/

/-- A statement that does `fail(st)` and nothing else completes the command in its own step (R135, R226). -/
theorem Device.dspStep_failing {d : Device} {x : Stmt} {st : Status} {rest : List Stmt} (hd : d.dstate = .executing)
    (hpos : d.pos = x :: rest) (hfail : x.exec (d.withPos rest) = ((d.withPos rest).failWith st, [])) :
    d.dspStep = ((d.failWith st).complete, []) := by
  have hfinish : ((d.withPos rest).failWith st).finish = (d.failWith st).complete :=
    if_pos ⟨rfl, by simp [hd]⟩
  rw [Device.dspStep, if_pos (Device.running_executing hd), Device.statement, hpos]
  simp only [hfail, hfinish]

/-- In IDLE a command is accepted (R131). -/
theorem State.rxInstr_idle {s : State} {i : Instr} (hd : s.dstate = .idle) (hq : i.isQuery = false) :
    s.rxInstr i = s.accept i := by
  rw [State.rxInstr_command hq, State.rxCommand, hd]

/-- Settles O44: either statement does `fail(st)` alone, so its step ends the command, and IDLE accepts the next. -/
theorem failureReturnsToIdle : Obligations.FailureReturnsToIdle := by
  intro d st rest hd hpos
  have hstep : d.dspStep = ((d.failWith st).complete, []) := by
    obtain hpos | ⟨hpos, rfl⟩ := hpos
    · exact Device.dspStep_failing hd hpos rfl
    · exact Device.dspStep_failing hd hpos rfl
  refine ⟨hstep, fun s i hs hq => State.rxInstr_idle ?_ hq⟩
  rw [hs, hstep]
  rfl

/-! ### The header RX handles next (R130) -/

/-- RX moves before DSP only while a command is pending or running. -/
theorem State.rxMoves_dstate {s : State} (h : s.rxMoves = true) :
    s.dstate = .commandReceived ∨ s.dstate = .executing := by
  unfold State.rxMoves at h
  split at h
  · cases h
  · cases hd : s.dstate <;> simp [hd] at h ⊢

/-- A header RX handles next is the link's first input, and the next atomic step is RX's. -/
theorem State.headerNow_cases {s : State} {h : Header} (hnow : s.headerNow = some h) :
    (s.dstate = .idle ∨ s.rxMoves = true) ∧ ∃ dl rest, s.link = { delay := dl, input := .header h } :: rest := by
  unfold State.headerNow at hnow
  split at hnow <;> rename_i hrx
  · refine ⟨by simpa using hrx, ?_⟩
    split at hnow <;> rename_i hl
    · cases hnow
      exact ⟨_, _, hl⟩
    · cases hnow
    · cases hnow
  · cases hnow

/-- The next atomic step is RX's meaning of the request, with its header off the link. -/
theorem State.atomicStep_headerNow {s : State} {h : Header} {i : Instr} (hnow : s.headerNow = some h)
    (hdec : decode h = .ok i) : s.atomicStep = State.rxInstr { s with link := s.link.tail } i := by
  obtain ⟨hrx, dl, rest, hl⟩ := State.headerNow_cases hnow
  have hstep : s.atomicStep = s.rxStep := hrx.elim State.atomicStep_idle State.atomicStep_rxMoves
  rw [hstep, State.rxStep_cons hl, hl]
  simp only [State.rxInput, State.rxHeader, hdec, List.tail_cons]

/-! ### HOST_PACED (R247) -/

/-- Under HOST_PACED any request but a GET_DATA comes in IDLE. -/
theorem State.PacedNow.idle {s : State} {polls : Nat → Prop} {h : Header} {i : Instr} (hs : s.PacedNow polls)
    (hnow : s.headerNow = some h) (hdec : decode h = .ok i) (hi : ∀ x0 x1, i ≠ .getData x0 x1) :
    s.dstate = .idle :=
  (hs h hnow).1 fun ⟨x0, x1, hget⟩ => hi x0 x1 (Decoded.ok.inj (hdec.symm.trans hget))

/-- Under HOST_PACED a completion poll comes in IDLE or while a command runs, never between acceptance and start. -/
theorem State.PacedNow.poll {s : State} {polls : Nat → Prop} {h : Header} {x0 x1 : Half} (hs : s.PacedNow polls)
    (hnow : s.headerNow = some h) (hdec : decode h = .ok (.getData x0 x1)) (hpoll : polls s.link.length) :
    s.dstate = .idle ∨ s.dstate = .executing :=
  (State.headerNow_cases hnow).1.imp_right fun hrx =>
    (State.rxMoves_dstate hrx).resolve_left ((hs h hnow).2 ⟨x0, x1, hdec⟩ hpoll)

/-- Settles O47: the pace says in which states a request can come, and RX's step there is its meaning. -/
theorem pacedHostIsServed : Obligations.PacedHostIsServed := by
  intro s polls n hpaced u h i hu hnow hdec
  have hnext : u.PacedNow polls := hu ▸ hpaced n
  have hstep := State.atomicStep_headerNow hnow hdec
  have henc := encode_of_decode hdec
  refine ⟨fun hq => ?_, fun x0 x1 hi => ?_, fun x0 x1 hi hpoll => ?_⟩
  · have hidle : u.dstate = .idle := hnext.idle hnow hdec fun _ _ hget => by simp [hget, Instr.isQuery] at hq
    exact ⟨hidle, hstep.trans (State.rxInstr_idle hidle hq)⟩
  · subst hi
    exact ⟨hnext.idle hnow hdec (by simp), by rw [hstep, State.rxInstr, henc]⟩
  · subst hi
    exact ⟨hnext.poll hnow hdec hpoll, by rw [hstep, State.rxInstr, henc]⟩

end Sys2Proof.Machine
end
